-- ==== Sys2Proof/Word.lean ====
section
/-! DEFINITION. The value types of R10: the unsigned byte, a bit index of a port register, and the pin, port and
mode names of R140 and R146. -/

namespace Sys2Proof

/-- `u8` of R10: an unsigned 8-bit value; its arithmetic is modulo 256. -/
abbrev Byte := BitVec 8

/-- The index of a bit of an 8-bit register, 0 to 7 (R11, R140). -/
abbrev BitIdx := Fin 8

/-- The ports `PORTS` = B, C, D of R8. -/
inductive Port where
  | b | c | d
  deriving DecidableEq, Repr

/-- A Pin (R140): a physical pin named by its port and its bit index. -/
structure Pin where
  port : Port
  bit : BitIdx
  deriving DecidableEq, Repr

/-- The mode of a pin (R39, R146): `output` is direction bit 1, `input` is direction bit 0. -/
inductive Mode where
  | output | input
  deriving DecidableEq, Repr

/-- The direction bit that stands for a mode (R39). -/
def Mode.bit : Mode → Bool
  | .output => true
  | .input => false

end Sys2Proof
end

