-- ==== Sys2Proof/Config.lean ====
section
/-! DEFINITION. The implementation parameters of 00_scope.md R8, each a named constant, and the free values: the draws
of R14 as opaque constants, of which no proof can see a value. Times are in nanoseconds (R16). -/

namespace Sys2Proof.Config

/-- One microsecond in the model's unit of time (R16). -/
def us : Nat := 1000

/-- One millisecond in the model's unit of time (R16). -/
def ms : Nat := 1000000

/-- `T_AS`: Enable low before its rise (R170). -/
def tAS : Nat := 1

/-- `T_PW`: Enable high (R170). -/
def tPW : Nat := 1

/-- `T_EXEC`: after Enable falls (R170). -/
def tExec : Nat := 100

/-- `T_POWER_ON`, in ms (R211). -/
def tPowerOn : Nat := 50

/-- `T_FORCE1`, in ms (R212). -/
def tForce1 : Nat := 5

/-- `T_FORCE2`, in ms (R212). -/
def tForce2 : Nat := 5

/-- `T_FORCE3`, in ms (R212). -/
def tForce3 : Nat := 1

/-- `T_INIT_SETTLE`, in ms (R215, R216, R218). -/
def tInitSettle : Nat := 5

/-- `T_SETTLE`, in ms: the settle wait after clear and home (R232, decision D7). -/
def tSettle : Nat := 5

/-- `T_POLL_SETTLE`, in us: before each read of the poll (R190, decision D12). -/
def tPollSettle : Nat := 1

/-- `T_POLL_GAP`, in us: Enable low between the poll's reads (R190, decision D12). -/
def tPollGap : Nat := 1

/-- `ROW_OFFSETS`: the DDRAM base address of each row, indices 0 to 3 (R8, R46). -/
def rowOffsets : List Byte := [0x00, 0x40, 0x14, 0x54]

/-- The wait policies R195 names; this block's is `fixed`. -/
inductive WaitPolicy where
  | fixed | poll
  deriving DecidableEq, Repr

/-- `WAIT_POLICY` (R8, R195): blind delays only. No host operation reads it, since none polls. -/
def waitPolicy : WaitPolicy := .fixed

/-- `BUS_WIDTH` (R8): 4 bits, so the function-set field DL is 0 (R33). -/
def busWidthDL : Bool := false

/-- `FONT` (R8): 5x8, so the function-set field F is 0 (R33). -/
def fontF : Bool := false

/-- `HANDLES` (R8, R312): one handle per model instance. -/
def handles : Nat := 1

/-- `F_CPU` (R8, R153): OPEN. Nothing reads it. -/
opaque fCpu : Nat

/-- `IO_ADDR` of `PORT(p)`: its data-space address (R62). -/
def portAddr : Port → Nat
  | .b => 0x25
  | .c => 0x28
  | .d => 0x2B

/-- `DDR(p) = PORT(p) - 1`: the direction register is the one before the data register (R62, R146). -/
def ddrAddr (p : Port) : Nat := portAddr p - 1

/-- `PIN(p)`, the input register, at the address before the direction register (R62). It holds no state (R40). -/
def pinAddr (p : Port) : Nat := portAddr p - 2

/-- The I/O address of a register at a data-space address (R62's two columns). -/
def ioAddr (dataSpace : Nat) : Nat := dataSpace - 0x20

/-- `INIT_PORTS` (R8, R48): what the register at an address holds at launch, and so what an address that the memory
does not list reads as. The spec's default is 0x00 for each (decision D31; log 10). -/
def initPorts (_addr : Nat) : Byte := 0x00

/-- FREE VALUE. The k-th draw of a duration (R14, R150 to R152): how much longer than its lower bound the k-th
timed thing takes. Nothing is known of it (log 4). -/
opaque drawTime : Nat → Nat

/-- FREE VALUE. The k-th draw of an input level (R14, R147). Nothing is known of it (log 4, 27). -/
opaque drawLevel : Nat → Bool

end Sys2Proof.Config
end

