-- ==== Sys2Proof/Syntax.lean ====
section
/-! DEFINITION. One constructor per row of spec/opcode_table.json, in the table's order: the 18 host operations (R110),
the 12 primitives (R111) and the 9 bus words (R102). -/

namespace Sys2Proof

/-- A row of the opcode table with its operands. -/
inductive Instr where
  -- host operations (R110)
  | create (rs en d4 d5 d6 d7 : Byte)
  | begin (columns rows : Byte)
  | clear
  | home
  | setCursor (col row : Byte)
  | write (c : Byte)
  | print (s : List Byte)
  | display
  | noDisplay
  | cursor
  | noCursor
  | blink
  | noBlink
  | scrollDisplayLeft
  | scrollDisplayRight
  | autoscroll
  | noAutoscroll
  | createChar (slot : Byte) (rows : List Byte)
  -- primitives (R111)
  | resolve (n : Byte)
  | set (pin : Pin) (level : Bool)
  | setDirection (pin : Pin) (mode : Mode)
  | sample (pin : Pin)
  | delayUs (n : Nat)
  | delayMs (n : Nat)
  | pulseEnable
  | writeNibble (v : Byte)
  | transferByte (v : Byte) (rs : Bool)
  | command (v : Byte)
  | data (v : Byte)
  | readBusy
  -- bus words (R102), with the field letters of R103
  | b1ClearDisplay
  | b2ReturnHome
  | b3EntryModeSet (i s : Bool)
  | b4DisplayControl (d c b : Bool)
  | b5CursorDisplayShift (s r : Bool)
  | b6FunctionSet (l n f : Bool)
  | b7SetCgramAddress (a : BitVec 6)
  | b8SetDdramAddress (a : BitVec 7)
  | b9WriteData (d : Byte)
  deriving DecidableEq, Repr

/-- The table's "kind" of a row. -/
inductive Kind where
  | hostOperation | primitive | busWord
  deriving DecidableEq, Repr

/-- The kind of the row an instruction stands for. -/
def Instr.kind : Instr → Kind
  | .create _ _ _ _ _ _ | .begin _ _ | .clear | .home | .setCursor _ _ | .write _ | .print _ | .display | .noDisplay
  | .cursor | .noCursor | .blink | .noBlink | .scrollDisplayLeft | .scrollDisplayRight | .autoscroll | .noAutoscroll
  | .createChar _ _ => .hostOperation
  | .resolve _ | .set _ _ | .setDirection _ _ | .sample _ | .delayUs _ | .delayMs _ | .pulseEnable | .writeNibble _
  | .transferByte _ _ | .command _ | .data _ | .readBusy => .primitive
  | .b1ClearDisplay | .b2ReturnHome | .b3EntryModeSet _ _ | .b4DisplayControl _ _ _ | .b5CursorDisplayShift _ _
  | .b6FunctionSet _ _ _ | .b7SetCgramAddress _ | .b8SetDdramAddress _ | .b9WriteData _ => .busWord

/-- The name of a row, without operands: what a fault records as "the operation's name" (R302). -/
inductive OpName where
  | create | begin | clear | home | setCursor | write | print | display | noDisplay | cursor | noCursor | blink
  | noBlink | scrollDisplayLeft | scrollDisplayRight | autoscroll | noAutoscroll | createChar
  | resolve | set | setDirection | sample | delayUs | delayMs | pulseEnable | writeNibble | transferByte | command
  | data | readBusy
  | b1ClearDisplay | b2ReturnHome | b3EntryModeSet | b4DisplayControl | b5CursorDisplayShift | b6FunctionSet
  | b7SetCgramAddress | b8SetDdramAddress | b9WriteData
  deriving DecidableEq, Repr

/-- The name of an instruction's row. -/
def Instr.opName : Instr → OpName
  | .create _ _ _ _ _ _ => .create
  | .begin _ _ => .begin
  | .clear => .clear
  | .home => .home
  | .setCursor _ _ => .setCursor
  | .write _ => .write
  | .print _ => .print
  | .display => .display
  | .noDisplay => .noDisplay
  | .cursor => .cursor
  | .noCursor => .noCursor
  | .blink => .blink
  | .noBlink => .noBlink
  | .scrollDisplayLeft => .scrollDisplayLeft
  | .scrollDisplayRight => .scrollDisplayRight
  | .autoscroll => .autoscroll
  | .noAutoscroll => .noAutoscroll
  | .createChar _ _ => .createChar
  | .resolve _ => .resolve
  | .set _ _ => .set
  | .setDirection _ _ => .setDirection
  | .sample _ => .sample
  | .delayUs _ => .delayUs
  | .delayMs _ => .delayMs
  | .pulseEnable => .pulseEnable
  | .writeNibble _ => .writeNibble
  | .transferByte _ _ => .transferByte
  | .command _ => .command
  | .data _ => .data
  | .readBusy => .readBusy
  | .b1ClearDisplay => .b1ClearDisplay
  | .b2ReturnHome => .b2ReturnHome
  | .b3EntryModeSet _ _ => .b3EntryModeSet
  | .b4DisplayControl _ _ _ => .b4DisplayControl
  | .b5CursorDisplayShift _ _ => .b5CursorDisplayShift
  | .b6FunctionSet _ _ _ => .b6FunctionSet
  | .b7SetCgramAddress _ => .b7SetCgramAddress
  | .b8SetDdramAddress _ => .b8SetDdramAddress
  | .b9WriteData _ => .b9WriteData

end Sys2Proof
end

