-- ==== Sys2Proof/WellFormed.lean ====
section
/-! DEFINITION. The operands that make a term no operation of the block (R115): a print list without 0x00 and a
createChar row list whose length is not eight. These are refusals, not faults. -/

namespace Sys2Proof

/-- Why a term is no operation of the block (R115). -/
inductive Defect where
  /-- `print` with a list that contains no 0x00 (decision D22). -/
  | stringNotTerminated
  /-- `createChar` with a row list whose length is not eight (decision D37). -/
  | glyphRowsNotEight
  deriving DecidableEq, Repr

/-- The defect of a term, if it has one (R115). -/
def Instr.defect : Instr → Option Defect
  | .print s => if (0x00 : Byte) ∈ s then none else some .stringNotTerminated
  | .createChar _ rows => if rows.length = 8 then none else some .glyphRowsNotEight
  | .create _ _ _ _ _ _ | .begin _ _ | .clear | .home | .setCursor _ _ | .write _ | .display | .noDisplay | .cursor
  | .noCursor | .blink | .noBlink | .scrollDisplayLeft | .scrollDisplayRight | .autoscroll | .noAutoscroll
  | .resolve _ | .set _ _ | .setDirection _ _ | .sample _ | .delayUs _ | .delayMs _ | .pulseEnable | .writeNibble _
  | .transferByte _ _ | .command _ | .data _ | .readBusy | .b1ClearDisplay | .b2ReturnHome | .b3EntryModeSet _ _
  | .b4DisplayControl _ _ _ | .b5CursorDisplayShift _ _ | .b6FunctionSet _ _ _ | .b7SetCgramAddress _
  | .b8SetDdramAddress _ | .b9WriteData _ => none

/-- An instruction is well formed when it has no defect: its operands have the types R110 lists. -/
def Instr.wellFormed (i : Instr) : Bool := i.defect.isNone

end Sys2Proof
end

