-- ==== Sys2Proof/Decode.lean ====
section
/-! DEFINITION. The bus words of R102 and R103, the delivered form of a call and its decoder and encoder, and the word
of an opcode-table row. The spec gives bus words 9 bits and host operations no opcode at all (R110, decision D40): the
delivered form is the model's (log 2). A call is a list of bytes: a 16-bit header, low byte first, then operands, one
byte each. Header bits 8:0 are the key and bits 15:9 the way to read it:
* 0: the key is a word of the opcode table. If it is the word of a host operation's row (its fixed bits, its free bits
  0) the call is that operation, the earliest such row; if not, it is a bus word.
* 1: the key is the index of a row, from 0, that has no word of its own.
* 2: the key is a bus word, whichever rows share it. -/

namespace Sys2Proof

/-- Why bytes or a text are no call. -/
inductive DecodeError where
  /-- Fewer bytes than the header and the operands take. -/
  | tooShort
  /-- A 9-bit word that matches no row's pattern (R117). -/
  | unknownWord
  /-- An index that is no row delivered by index. -/
  | unknownRow
  /-- Header bits 15:9 are above 2. -/
  | unknownHeader
  /-- An operand byte that is no pin. -/
  | badPin
  /-- An operand byte that is neither 0 nor 1 where a bit is wanted. -/
  | badBit
  /-- A host's call that names a primitive or a bus word, and so no host operation of R110 (R111, R115). -/
  | notHostOperation
  /-- A text that is not written as R119 says. -/
  | badText
  deriving DecidableEq, Repr

/-! ### The bus words of R102, written as the spec writes them: RS, then b7 to b0 -/

/-- A bit as a one-bit vector. -/
def bit1 (x : Bool) : BitVec 1 := BitVec.ofBool x

/-- B1, `0 00000001`. -/
def b1Word : BitVec 9 := 0b000000001#9

/-- B2, `0 00000010`. -/
def b2Word : BitVec 9 := 0b000000010#9

/-- B3, `0 000001IS`. -/
def b3Word (i s : Bool) : BitVec 9 := 0b0000001#7 ++ bit1 i ++ bit1 s

/-- B4, `0 00001DCB`. -/
def b4Word (d c b : Bool) : BitVec 9 := 0b000001#6 ++ bit1 d ++ bit1 c ++ bit1 b

/-- B5, `0 0001SR00`. -/
def b5Word (s r : Bool) : BitVec 9 := 0b00001#5 ++ bit1 s ++ bit1 r ++ 0b00#2

/-- B6, `0 001LNF00`. -/
def b6Word (l n f : Bool) : BitVec 9 := 0b0001#4 ++ bit1 l ++ bit1 n ++ bit1 f ++ 0b00#2

/-- B7, `0 01aaaaaa`. -/
def b7Word (a : BitVec 6) : BitVec 9 := 0b001#3 ++ a

/-- B8, `0 1aaaaaaa`. -/
def b8Word (a : BitVec 7) : BitVec 9 := 0b01#2 ++ a

/-- B9, `1 dddddddd`. -/
def b9Word (d : Byte) : BitVec 9 := 0b1#1 ++ d

/-- The bus word a row of kind bus word stands for (R102). -/
def Instr.busWord : Instr → Option (BitVec 9)
  | .b1ClearDisplay => some b1Word
  | .b2ReturnHome => some b2Word
  | .b3EntryModeSet i s => some (b3Word i s)
  | .b4DisplayControl d c b => some (b4Word d c b)
  | .b5CursorDisplayShift s r => some (b5Word s r)
  | .b6FunctionSet l n f => some (b6Word l n f)
  | .b7SetCgramAddress a => some (b7Word a)
  | .b8SetDdramAddress a => some (b8Word a)
  | .b9WriteData d => some (b9Word d)
  | .create _ _ _ _ _ _ | .begin _ _ | .clear | .home | .setCursor _ _ | .write _ | .print _ | .display | .noDisplay
  | .cursor | .noCursor | .blink | .noBlink | .scrollDisplayLeft | .scrollDisplayRight | .autoscroll | .noAutoscroll
  | .createChar _ _ | .resolve _ | .set _ _ | .setDirection _ _ | .sample _ | .delayUs _ | .delayMs _ | .pulseEnable
  | .writeNibble _ | .transferByte _ _ | .command _ | .data _ | .readBusy => none

/-- The row of R102 that a 9-bit word matches, by the table's masks; none for the word of no row (R117). -/
def decodeBusWord (w : BitVec 9) : Option Instr :=
  if w &&& 0x1FF#9 = 0x001#9 then some .b1ClearDisplay
  else if w &&& 0x1FF#9 = 0x002#9 then some .b2ReturnHome
  else if w &&& 0x1FC#9 = 0x004#9 then some (.b3EntryModeSet (w.getLsbD 1) (w.getLsbD 0))
  else if w &&& 0x1F8#9 = 0x008#9 then some (.b4DisplayControl (w.getLsbD 2) (w.getLsbD 1) (w.getLsbD 0))
  else if w &&& 0x1F3#9 = 0x010#9 then some (.b5CursorDisplayShift (w.getLsbD 3) (w.getLsbD 2))
  else if w &&& 0x1E3#9 = 0x020#9 then some (.b6FunctionSet (w.getLsbD 4) (w.getLsbD 3) (w.getLsbD 2))
  else if w &&& 0x1C0#9 = 0x040#9 then some (.b7SetCgramAddress (w.extractLsb' 0 6))
  else if w &&& 0x180#9 = 0x080#9 then some (.b8SetDdramAddress (w.extractLsb' 0 7))
  else if w &&& 0x100#9 = 0x100#9 then some (.b9WriteData (w.extractLsb' 0 8))
  else none

/-- Whether the block ever emits a bus word: R102's patterns with the field values of R103 (R117 lists what is left
out: I = 0, S/C = 0, DL = 1, F = 1, a CGRAM address whose low three bits are not 0). -/
def emittedWord (w : BitVec 9) : Bool :=
  match decodeBusWord w with
  | some (.b3EntryModeSet i _) => i
  | some (.b5CursorDisplayShift s _) => s
  | some (.b6FunctionSet l _ f) => !l && !f
  | some (.b7SetCgramAddress a) => a.extractLsb' 0 3 == 0#3
  | some _ => true
  | none => false

/-! ### Operand bytes of a delivered call -/

/-- A level or mode bit as a byte. -/
def byteOfBit (x : Bool) : Byte := if x then 1 else 0

/-- A byte that stands for a bit. -/
def bitOfByte (v : Byte) : Option Bool :=
  if v = 0 then some false else if v = 1 then some true else none

/-- The code of a port in a pin byte. -/
def portCode : Port → Byte
  | .b => 0
  | .c => 8
  | .d => 16

/-- A Pin as a byte: bits 4:3 the port, bits 2:0 the bit index. -/
def byteOfPin (p : Pin) : Byte := portCode p.port + BitVec.ofNat 8 p.bit.val

/-- A byte that stands for a Pin: every bit of the three ports (R140). DESIGN CHOICE: bits 6 and 7 of ports B and C are
taken too, which no resolved Pin names (R63; log 31). -/
def pinOfByte (v : Byte) : Option Pin :=
  let bit : BitIdx := Fin.ofNat 8 v.toNat
  if v.toNat < 8 then some ⟨.b, bit⟩
  else if v.toNat < 16 then some ⟨.c, bit⟩
  else if v.toNat < 24 then some ⟨.d, bit⟩
  else none

/-- The mode a direction bit stands for (R39). -/
def modeOfBit (x : Bool) : Mode := if x then .output else .input

/-- A natural number's bytes, lowest first, with fuel for the number of bytes. -/
def bytesOfNat : Nat → Nat → List Byte
  | 0, _ => []
  | fuel + 1, n => BitVec.ofNat 8 n :: bytesOfNat fuel (n / 256)

/-- The natural number whose bytes, lowest first, are these. -/
def natOfBytes : List Byte → Nat
  | [] => 0
  | b :: rest => b.toNat + 256 * natOfBytes rest

/-- How many bytes hold a natural number. -/
def byteCount (n : Nat) : Nat := n.log2 / 8 + 1

/-! ### The decoder -/

/-- The word of a host operation's row that has one to itself or stands first among those that share it, and its
operands, which follow as bytes. `none`: the key is no such word. -/
def decodeHostWord (w : BitVec 9) (rest : List Byte) : Option (Except DecodeError Instr) :=
  if w = 0x003#9 then some (match rest with
    | c :: r :: _ => .ok (.begin c r)
    | _ => .error .tooShort)
  else if w = 0x001#9 then some (.ok .clear)
  else if w = 0x002#9 then some (.ok .home)
  else if w = 0x080#9 then some (match rest with
    | c :: r :: _ => .ok (.setCursor c r)
    | _ => .error .tooShort)
  else if w = 0x100#9 then some (match rest with
    | c :: _ => .ok (.write c)
    | _ => .error .tooShort)
  else if w = 0x00C#9 then some (.ok .display)
  else if w = 0x008#9 then some (.ok .noDisplay)
  else if w = 0x00A#9 then some (.ok .cursor)
  else if w = 0x009#9 then some (.ok .blink)
  else if w = 0x018#9 then some (.ok .scrollDisplayLeft)
  else if w = 0x01C#9 then some (.ok .scrollDisplayRight)
  else if w = 0x007#9 then some (.ok .autoscroll)
  else if w = 0x006#9 then some (.ok .noAutoscroll)
  else if w = 0x040#9 then some (match rest with
    | slot :: rows => if 8 ≤ rows.length then .ok (.createChar slot (rows.take 8)) else .error .tooShort
    | _ => .error .tooShort)
  else none

/-- A bus word, or the name of its refusal. -/
def decodeBus (w : BitVec 9) : Except DecodeError Instr :=
  match decodeBusWord w with
  | some i => .ok i
  | none => .error .unknownWord

/-- A pin operand, then the rest. -/
def withPin (rest : List Byte) (k : Pin → List Byte → Except DecodeError Instr) : Except DecodeError Instr :=
  match rest with
  | v :: rest =>
    match pinOfByte v with
    | some p => k p rest
    | none => .error .badPin
  | [] => .error .tooShort

/-- A bit operand. -/
def withBitOperand (rest : List Byte) (k : Bool → Except DecodeError Instr) : Except DecodeError Instr :=
  match rest with
  | v :: _ =>
    match bitOfByte v with
    | some x => k x
    | none => .error .badBit
  | [] => .error .tooShort

/-- A u8 operand, then the rest. -/
def withByte (rest : List Byte) (k : Byte → List Byte → Except DecodeError Instr) : Except DecodeError Instr :=
  match rest with
  | v :: rest => k v rest
  | [] => .error .tooShort

/-- The rows delivered by their index in the table, from 0: those that have no word, or share the word of an earlier
host operation's row. `print` takes all the bytes that follow; a delay takes them as one number, lowest byte first. -/
def decodeRow (index : Nat) (rest : List Byte) : Except DecodeError Instr :=
  match index with
  | 0 =>
    match rest with
    | rs :: en :: d4 :: d5 :: d6 :: d7 :: _ => .ok (.create rs en d4 d5 d6 d7)
    | _ => .error .tooShort
  | 6 => .ok (.print rest)
  | 10 => .ok .noCursor
  | 12 => .ok .noBlink
  | 18 => withByte rest fun n _ => .ok (.resolve n)
  | 19 => withPin rest fun p rest => withBitOperand rest fun l => .ok (.set p l)
  | 20 => withPin rest fun p rest => withBitOperand rest fun m => .ok (.setDirection p (modeOfBit m))
  | 21 => withPin rest fun p _ => .ok (.sample p)
  | 22 => .ok (.delayUs (natOfBytes rest))
  | 23 => .ok (.delayMs (natOfBytes rest))
  | 24 => .ok .pulseEnable
  | 25 => withByte rest fun v _ => .ok (.writeNibble v)
  | 26 => withByte rest fun v rest => withBitOperand rest fun rs => .ok (.transferByte v rs)
  | 27 => withByte rest fun v _ => .ok (.command v)
  | 28 => withByte rest fun v _ => .ok (.data v)
  | 29 => .ok .readBusy
  | _ => .error .unknownRow

/-- The key of a header: its bits 8:0. -/
def headerKey (low high : Byte) : BitVec 9 := bit1 (high.getLsbD 0) ++ low

/-- The way to read a header's key: its bits 15:9. -/
def headerWay (high : Byte) : Nat := high.toNat / 2

/-- The call that bytes deliver, or the name of their refusal. Bytes beyond the operands are not read. -/
def decode : List Byte → Except DecodeError Instr
  | low :: high :: rest =>
    match headerWay high with
    | 0 =>
      match decodeHostWord (headerKey low high) rest with
      | some r => r
      | none => decodeBus (headerKey low high)
    | 1 => decodeRow (headerKey low high).toNat rest
    | 2 => decodeBus (headerKey low high)
    | _ => .error .unknownHeader
  | _ => .error .tooShort

/-- The host operation a host's call names, or the name of its refusal: the host can issue the operations of R110 and
nothing else (R111, R115). -/
def decodeHostCall (bytes : List Byte) : Except DecodeError Instr :=
  match decode bytes with
  | .ok i => if i.kind = .hostOperation then .ok i else .error .notHostOperation
  | .error why => .error why

/-! ### The encoder -/

/-- A header's two bytes, low byte first. -/
def header (way : Nat) (key : BitVec 9) : List Byte :=
  [key.setWidth 8, BitVec.ofNat 8 (2 * way + key.toNat / 256)]

/-- The header of a row delivered by index. -/
def rowHeader (index : Nat) : List Byte := header 1 (BitVec.ofNat 9 index)

/-- The bytes that deliver an instruction. -/
def encode : Instr → List Byte
  | .create rs en d4 d5 d6 d7 => rowHeader 0 ++ [rs, en, d4, d5, d6, d7]
  | .begin columns rows => header 0 0x003#9 ++ [columns, rows]
  | .clear => header 0 0x001#9
  | .home => header 0 0x002#9
  | .setCursor col row => header 0 0x080#9 ++ [col, row]
  | .write c => header 0 0x100#9 ++ [c]
  | .print s => rowHeader 6 ++ s
  | .display => header 0 0x00C#9
  | .noDisplay => header 0 0x008#9
  | .cursor => header 0 0x00A#9
  | .noCursor => rowHeader 10
  | .blink => header 0 0x009#9
  | .noBlink => rowHeader 12
  | .scrollDisplayLeft => header 0 0x018#9
  | .scrollDisplayRight => header 0 0x01C#9
  | .autoscroll => header 0 0x007#9
  | .noAutoscroll => header 0 0x006#9
  | .createChar slot rows => header 0 0x040#9 ++ slot :: rows
  | .resolve n => rowHeader 18 ++ [n]
  | .set p l => rowHeader 19 ++ [byteOfPin p, byteOfBit l]
  | .setDirection p m => rowHeader 20 ++ [byteOfPin p, byteOfBit m.bit]
  | .sample p => rowHeader 21 ++ [byteOfPin p]
  | .delayUs n => rowHeader 22 ++ bytesOfNat (byteCount n) n
  | .delayMs n => rowHeader 23 ++ bytesOfNat (byteCount n) n
  | .pulseEnable => rowHeader 24
  | .writeNibble v => rowHeader 25 ++ [v]
  | .transferByte v rs => rowHeader 26 ++ [v, byteOfBit rs]
  | .command v => rowHeader 27 ++ [v]
  | .data v => rowHeader 28 ++ [v]
  | .readBusy => rowHeader 29
  | .b1ClearDisplay => header 2 b1Word
  | .b2ReturnHome => header 2 b2Word
  | .b3EntryModeSet i s => header 2 (b3Word i s)
  | .b4DisplayControl d c b => header 2 (b4Word d c b)
  | .b5CursorDisplayShift s r => header 2 (b5Word s r)
  | .b6FunctionSet l n f => header 2 (b6Word l n f)
  | .b7SetCgramAddress a => header 2 (b7Word a)
  | .b8SetDdramAddress a => header 2 (b8Word a)
  | .b9WriteData d => header 2 (b9Word d)

/-! ### The words of the opcode table -/

/-- An instruction's bytes from its bits as the table numbers them, lowest byte first, and then zeros up to the longest
operation with a word of its own (createChar: two bytes and nine). -/
def tableBytes (nbits w : Nat) : List Byte :=
  (List.range ((nbits + 7) / 8)).map (fun k => BitVec.ofNat 8 (w / 256 ^ k)) ++ List.replicate 11 0

/-- The instruction the decoder reads from a word of the opcode table. -/
def decodeTableWord (nbits w : Nat) : Option Instr :=
  match decode (tableBytes nbits w) with
  | .ok i => some i
  | .error _ => none

end Sys2Proof
end

