-- ==== Sys2Proof/Machine/State.lean ====
section
/-! DEFINITION. The state of R30 as plain data, the records of its parts, the reasons a step can stop, and the state at
launch (R48). -/

namespace Sys2Proof.Machine

/-- The sequencing state of R37. -/
inductive Phase where
  | noHandle
  | constructed
  -- the internal states of begin (R210)
  | reset | forceNibble1 | forceNibble2 | forceNibble3 | setFourBitMode | functionSet | displayOn | clear
  | entryModeSet
  | ready
  | faulted
  deriving DecidableEq, Repr

/-- The display handle `H` (R31): six resolved Pins and five bytes. `none` in a byte is the spec's `unset` (R12, R303). -/
structure Handle where
  rs : Pin
  en : Pin
  d4 : Pin
  d5 : Pin
  d6 : Pin
  d7 : Pin
  functionFlags : Option Byte
  controlFlags : Option Byte
  entryFlags : Option Byte
  lineCount : Option Byte
  currentLine : Option Byte
  deriving DecidableEq, Repr

/-- Who made a register write (R44). -/
inductive Origin where
  | block | env
  deriving DecidableEq, Repr

/-- What an event records (R44). `target` is the bit written and its level or mode; an environment write omits it. -/
inductive EventKind where
  | pinWrite (port : Port) (target : Option (BitIdx × Bool)) (byte : Byte) (origin : Origin)
  | dirWrite (port : Port) (target : Option (BitIdx × Mode)) (byte : Byte) (origin : Origin)
  | sample (port : Port) (bit : BitIdx) (level : Bool)
  deriving DecidableEq, Repr

/-- An event with the time at which its write or read took effect (R44). -/
structure Event where
  time : Nat
  kind : EventKind
  deriving DecidableEq, Repr

/-- A byte of the handle, by name: what `UnsetRead` records (R303). -/
inductive HandleByte where
  | functionFlags | controlFlags | entryFlags | lineCount | currentLine
  deriving DecidableEq, Repr

/-- The fault record of R302: a code's name with its info. -/
inductive FaultRecord where
  | noHandle (op : OpName)
  | alreadyCreated (phase : Phase)
  | notReady (op : OpName)
  | beginTwice (phase : Phase)
  | rowOffsetOutOfRange (r : Byte)
  | pinNotOutput (pin : Pin)
  | unsetRead (field : HandleByte)
  deriving DecidableEq, Repr

/-- The number of a fault's code (R302). -/
def FaultRecord.code : FaultRecord → Nat
  | .noHandle _ => 1
  | .alreadyCreated _ => 2
  | .notReady _ => 3
  | .beginTwice _ => 4
  | .rowOffsetOutOfRange _ => 5
  | .pinNotOutput _ => 6
  | .unsetRead _ => 7

/-- The two kinds of GPIO register that hold state: the data register PORT and the direction register DDR (R38, R39). -/
inductive RegKind where
  | data | direction
  deriving DecidableEq, Repr

/-- An input of the host, of a test bench or of the environment (R42, R72, R371), in the order in which they happen. -/
inductive HostEvent where
  /-- The host issues the operation these bytes deliver (log 2); bytes that name no host operation are refused (R115). -/
  | call (bytes : List Byte)
  /-- The host issues the operation this text writes, one ASCII code a byte (R119). -/
  | text (source : List Byte)
  /-- A test bench runs the instruction of any row that these bytes deliver, by itself, as vector V18 of
  95_test_vectors.md runs read_busy. It is no input of the host (R111; log 1). -/
  | bench (bytes : List Byte)
  /-- The environment writes the bits of `mask` in one register with those of `value` (R72(b)). -/
  | envWrite (reg : RegKind) (port : Port) (mask value : Byte)
  deriving DecidableEq, Repr

/-- What a primitive run by itself gave back: `resolve` a Pin, `sample` a level, `read_busy` a byte (log 8). -/
inductive Returned where
  | pin (p : Pin)
  | level (l : Bool)
  | byte (b : Byte)
  deriving DecidableEq, Repr

/-- The GPIO register space: the listed registers, by data-space address (R62). -/
abbrev Memory := List Host.Cell

/-- The state of R30, and three fields of the model's own: `pending`, `draws` and `returned`. -/
structure State where
  /-- `GPIO`: PORT and DDR of each port (R30(a)). -/
  mem : Memory
  /-- `H` (R30(b)). -/
  handle : Option Handle
  /-- R30(c), R37. -/
  phase : Phase
  /-- Virtual time in nanoseconds (R30(d), R43). -/
  now : Nat
  /-- The events, oldest first (R30(e), R44). -/
  trace : List Event
  /-- R30(f), R302. -/
  fault : Option FaultRecord
  /-- The model's own: the inputs of R370 not yet taken, oldest first (log 3). -/
  pending : List HostEvent
  /-- The model's own: how many draws of R14 were taken; the index of the next free value (log 4). -/
  draws : Nat
  /-- The model's own: the last value a primitive gave back (log 8). -/
  returned : Option Returned
  deriving DecidableEq, Repr

/-- Why the machine stops. -/
inductive Fault where
  /-- Raised by every meaning and by the step when the phase is `faulted`: "A faulted state has no step" (R301). Safe. -/
  | faultedHasNoStep
  /-- Raised by the commands of 44_commands.md in an internal phase of begin, in which no host operation can be issued
  (R37, R42); no step leaves the machine in such a phase (log 6). Safe. -/
  | beginIsRunning
  deriving DecidableEq, Repr

/-- Why the machine has no meaning for what it is given. -/
inductive Refusal where
  /-- Raised by exec for an instruction that has no meaning yet. Safe. -/
  | notModelled (mnemonic : String)
  /-- Raised by the step when what the host delivers is no host operation of the block (R115), or what a bench delivers is
  no instruction. Safe. -/
  | undecodable (why : DecodeError)
  /-- Raised by print and createChar for operands that make no operation (R115). Safe. -/
  | illFormed (why : Defect)
  /-- Raised by the step for an environment write to a handle Pin's bit, which has no move (R72(b), U9). Safe. -/
  | envWriteToHandlePin
  deriving DecidableEq, Repr

/-- The state at model launch (R48), with nothing delivered. The memory lists nothing: every register holds
`INIT_PORTS`, 0x00. -/
def State.reset : State where
  mem := []
  handle := none
  phase := .noHandle
  now := 0
  trace := []
  fault := none
  pending := []
  draws := 0
  returned := none

end Sys2Proof.Machine
end

