-- ==== Sys2Proof/Machine/Operands.lean ====
section
/-! DEFINITION. The operand forms: the pin mapper (R141), bit fields of a byte (R11), the row clamp and the addresses
(R104, R240, R252), and the text up to its terminator (R244). -/

namespace Sys2Proof.Machine

/-- The mask of a bit: `1 << b`. -/
def bitMask (b : BitIdx) : Byte := (1 : Byte) <<< b.val

/-- A byte with one bit driven: OR-in the mask for high, AND with its complement for low (R145, R146). -/
def withBit (v : Byte) (b : BitIdx) (level : Bool) : Byte :=
  if level then v ||| bitMask b else v &&& ~~~(bitMask b)

/-- Bit b of a byte, `v[b]` (R11). -/
def bitOf (v : Byte) (b : BitIdx) : Bool := v.getLsbD b.val

/-- `resolve(n)`: the pin mapper, pure and total (R141). -/
def resolvePin (n : Byte) : Pin :=
  if n.toNat ≤ 7 then ⟨.d, Fin.ofNat 8 n.toNat⟩
  else if n.toNat ≤ 13 then ⟨.b, Fin.ofNat 8 (n.toNat - 8)⟩
  else if n.toNat ≤ 19 then ⟨.c, Fin.ofNat 8 (n.toNat - 14)⟩
  else ⟨.d, 0⟩

/-- The row after the clamp (R240): a row at or above the line count becomes `(line_count - 1) mod 256`. -/
def clampRow (lineCount row : Byte) : Byte :=
  if lineCount ≤ row then lineCount - 1 else row

/-- The entry of `ROW_OFFSETS` for a clamped row; none outside 0 to 3 (R46). -/
def rowOffset (r : Byte) : Option Byte := Config.rowOffsets[r.toNat]?

/-- `0x80 | ((col + offset) mod 128)`: the set-DDRAM-address byte (R104(a), R240). -/
def ddramByte (col offset : Byte) : Byte :=
  0x80 ||| BitVec.ofNat 8 ((col.toNat + offset.toNat) % 128)

/-- `0x40 | ((slot & 0x7) << 3)`: the set-CGRAM-address byte (R104(b), R252). -/
def cgramByte (slot : Byte) : Byte := 0x40 ||| ((slot &&& 0x7) <<< 3)

/-- The bytes of a string before its first 0x00 (R244). -/
def untilTerminator : List Byte → List Byte
  | [] => []
  | c :: rest => if c = 0x00 then [] else c :: untilTerminator rest

/-- The byte `{hi, lo}` of two nibbles (R190). -/
def byteOfNibbles (hi lo : BitVec 4) : Byte := hi ++ lo

/-- A nibble from its four levels, D7 first (R190). -/
def nibbleOfLevels (l7 l6 l5 l4 : Bool) : BitVec 4 :=
  BitVec.ofBool l7 ++ BitVec.ofBool l6 ++ BitVec.ofBool l5 ++ BitVec.ofBool l4

/-- The RS bit of a 9-bit bus word (R100). -/
def wordRs (w : BitVec 9) : Bool := w.getLsbD 8

/-- The byte of a 9-bit bus word (R100). -/
def wordByte (w : BitVec 9) : Byte := w.extractLsb' 0 8

end Sys2Proof.Machine
end

