-- ==== Sys2Proof/Machine/Ops.lean ====
section
/-! DEFINITION. The named operations: memory and registers (R13, R62, R64), draws and time (R14, R150, R151), raising a
fault (R301), sequences of steps that a fault ends, the register primitives (R145, R146, R147), and the shells that
the meanings share. -/

namespace Sys2Proof.Machine

/-! ### Memory: a rising list of the registers that do not hold what an unlisted one reads as -/

/-- What an address that is not listed reads as: `INIT_PORTS` (R48; log 10). -/
def Memory.unlisted (a : Nat) : Byte := Config.initPorts a

/-- The byte at an address. -/
def Memory.read : Memory → Nat → Byte
  | [], a => Memory.unlisted a
  | (k, v) :: rest, a => if a = k then v else Memory.read rest a

/-- The memory without an entry for an address. -/
def Memory.erase : Memory → Nat → Memory
  | [], _ => []
  | (k, v) :: rest, a => if a = k then Memory.erase rest a else (k, v) :: Memory.erase rest a

/-- An entry put before the first greater address. -/
def Memory.insert : Memory → Nat → Byte → Memory
  | [], a, v => [(a, v)]
  | (k, w) :: rest, a, v => if a < k then (a, v) :: (k, w) :: rest else (k, w) :: Memory.insert rest a v

/-- The memory with one byte written, in the canonical form. -/
def Memory.write (m : Memory) (a : Nat) (v : Byte) : Memory :=
  if v = Memory.unlisted a then Memory.erase m a else Memory.insert (Memory.erase m a) a v

/-- Every address of a memory is above a bound. -/
def Memory.above (m : Memory) (a : Nat) : Bool := m.all fun c => decide (a < c.1)

/-- The canonical form: addresses strictly rising, no entry equal to what an unlisted address reads as. -/
def Memory.wf : Memory → Bool
  | [] => true
  | (k, v) :: rest => decide (v ≠ Memory.unlisted k) && Memory.above rest k && Memory.wf rest

/-- The addresses of the registers that hold state: PORT and DDR of each port (R62). -/
def registerAddrs : List Nat :=
  [Config.ddrAddr .b, Config.portAddr .b, Config.ddrAddr .c, Config.portAddr .c, Config.ddrAddr .d, Config.portAddr .d]

/-- A memory lists registers that hold state and nothing else. -/
def Memory.mapped (m : Memory) : Bool := m.all fun c => registerAddrs.contains c.1

/-- The address of a register (R62). -/
def regAddr : RegKind → Port → Nat
  | .data, p => Config.portAddr p
  | .direction, p => Config.ddrAddr p

/-- The data register `PORT(p)` (R38). -/
def State.port (s : State) (p : Port) : Byte := Memory.read s.mem (Config.portAddr p)

/-- The direction register `DDR(p)` (R39). -/
def State.ddr (s : State) (p : Port) : Byte := Memory.read s.mem (Config.ddrAddr p)

/-- Whether a pin is an output: its direction bit is 1 (R39). -/
def isOutput (s : State) (pin : Pin) : Bool := bitOf (s.ddr pin.port) pin.bit

/-! ### Time, draws, events -/

/-- `Wait(n)`: time advances by a drawn amount of n or more (R14, R150). -/
def advance (n : Nat) (s : State) : State :=
  { s with now := s.now + (n + Config.drawTime s.draws), draws := s.draws + 1 }

/-- A drawn level (R14, R147). -/
def drawLevel (s : State) : Bool × State :=
  (Config.drawLevel s.draws, { s with draws := s.draws + 1 })

/-- `Emit(e)`: append an event stamped with the time (R14, R44). -/
def emit (k : EventKind) (s : State) : State :=
  { s with trace := s.trace ++ [⟨s.now, k⟩] }

/-- `MemRead(addr, 1)`: time advances by a drawn amount, then the byte is read (R13, R151). -/
def memRead (a : Nat) (s : State) : Byte × State :=
  (Memory.read s.mem a, advance 0 s)

/-- `MemWrite(addr, 1, v)`: time advances by a drawn amount, then the byte is written (R13, R151). -/
def memWrite (a : Nat) (v : Byte) (s : State) : State :=
  { advance 0 s with mem := Memory.write s.mem a v }

/-! ### Faults -/

/-- `raise Fault(code, info)`: the fault is recorded and the phase becomes Faulted; nothing else changes (R301). -/
def raise (r : FaultRecord) (s : State) : State :=
  { s with fault := some r, phase := .faulted }

/-! ### Sequences of steps -/

/-- A step of an operation goes on, or has raised a fault, which ends the operation at once (R301). -/
inductive Flow where
  | go (s : State)
  | halted (s : State)
  deriving DecidableEq, Repr

/-- The state in which a step leaves the machine, fault or not. -/
def Flow.state : Flow → State
  | .go s => s
  | .halted s => s

/-- The next step, unless a fault was raised. -/
def Flow.andThen : Flow → (State → Flow) → Flow
  | .go s, k => k s
  | .halted s, _ => .halted s

/-- The statements of a pseudocode in order (R70), up to the first fault. -/
def runSteps : List (State → Flow) → State → Flow
  | [], s => .go s
  | k :: rest, s => (k s).andThen (runSteps rest)

/-- A statement that raises a fault. -/
def raiseStep (r : FaultRecord) (s : State) : Flow := .halted (raise r s)

/-- A statement that moves the phase (R15). -/
def setPhase (p : Phase) (s : State) : Flow := .go { s with phase := p }

/-- A statement that writes fields of the handle (R12). -/
def updateHandle (f : Handle → Handle) (s : State) : Flow := .go { s with handle := s.handle.map f }

/-- `delay_us(n)` (R150). -/
def delayUsStep (n : Nat) (s : State) : Flow := .go (advance (n * Config.us) s)

/-- `delay_ms(n)` (R150). -/
def delayMsStep (n : Nat) (s : State) : Flow := .go (advance (n * Config.ms) s)

/-! ### The register primitives -/

/-- `set(pin, level)`: the read-modify-write of the data register; PinNotOutput when the direction bit is 0 (R145). -/
def setPin (pin : Pin) (level : Bool) (s : State) : Flow :=
  if isOutput s pin then
    let read := memRead (Config.portAddr pin.port) s
    let v := withBit read.1 pin.bit level
    .go (emit (.pinWrite pin.port (some (pin.bit, level)) v .block) (memWrite (Config.portAddr pin.port) v read.2))
  else .halted (raise (.pinNotOutput pin) s)

/-- `set_direction(pin, mode)`: the read-modify-write of the direction register (R146). -/
def setDirectionStep (pin : Pin) (mode : Mode) (s : State) : Flow :=
  let read := memRead (Config.ddrAddr pin.port) s
  let v := withBit read.1 pin.bit mode.bit
  .go (emit (.dirWrite pin.port (some (pin.bit, mode)) v .block) (memWrite (Config.ddrAddr pin.port) v read.2))

/-- `sample(pin)`: a read of the input register, whose bit is a draw (R147, R151). -/
def samplePin (pin : Pin) (s : State) : Bool × State :=
  let level := drawLevel (advance 0 s)
  (level.1, emit (.sample pin.port pin.bit level.1) level.2)

/-- What a primitive gives back (log 8). -/
def giveBack (r : Returned) (s : State) : State := { s with returned := some r }

/-! ### The shells of the meanings -/

/-- An operation in a phase that has a step: in Faulted there is none (R301). -/
def unlessFaulted (s : State) (k : Host.Outcome State Fault Refusal) : Host.Outcome State Fault Refusal :=
  if s.phase = .faulted then .fault .faultedHasNoStep else k

/-- An operation that runs to its end or to its first fault: a next state either way (R301). -/
def complete (f : Flow) : Host.Outcome State Fault Refusal := .next f.state

/-- A primitive that needs no handle. -/
def runPrimitive (s : State) (body : State → Flow) : Host.Outcome State Fault Refusal :=
  unlessFaulted s (complete (body s))

/-- A primitive or bus word that reads the handle's Pins; with no handle it raises NoHandle (log 7). -/
def runWithHandle (op : OpName) (s : State) (body : Handle → State → Flow) : Host.Outcome State Fault Refusal :=
  unlessFaulted s (complete (match s.handle with
    | some h => body h s
    | none => raiseStep (.noHandle op) s))

/-- A command of 44_commands.md: the phase check of R230, then its statements. -/
def runReady (op : OpName) (s : State) (body : Handle → State → Flow) : Host.Outcome State Fault Refusal :=
  match s.phase with
  | .noHandle => complete (raiseStep (.noHandle op) s)
  | .constructed => complete (raiseStep (.notReady op) s)
  | .ready =>
    complete (match s.handle with
      | some h => body h s
      | none => raiseStep (.noHandle op) s)
  | .faulted => .fault .faultedHasNoStep
  | .reset | .forceNibble1 | .forceNibble2 | .forceNibble3 | .setFourBitMode | .functionSet | .displayOn | .clear
  | .entryModeSet => .fault .beginIsRunning

/-- A handle byte read by a rule; `unset` raises UnsetRead (R303). -/
def readByte (field : HandleByte) (v : Option Byte) (k : Byte → State → Flow) : State → Flow :=
  match v with
  | some b => k b
  | none => raiseStep (.unsetRead field)

/-- A term that is no operation of the block is refused at the interface (R115). -/
def refuseIllFormed (i : Instr) (k : Host.Outcome State Fault Refusal) : Host.Outcome State Fault Refusal :=
  match i.defect with
  | some d => .refused (.illFormed d)
  | none => k

end Sys2Proof.Machine
end

