-- ==== Sys2Proof/Machine/Protocol.lean ====
section
/-! DEFINITION. The nibble protocol engine (R170 to R173) and the busy-flag poll (R190), as statements over a handle. -/

namespace Sys2Proof.Machine

/-- `pulse_enable()`: one Enable strobe (R170). -/
def pulseEnable (h : Handle) : State → Flow :=
  runSteps [
    setPin h.en false, delayUsStep Config.tAS,
    setPin h.en true, delayUsStep Config.tPW,
    setPin h.en false, delayUsStep Config.tExec]

/-- `write_nibble(v)`: the four data lines in the order D4 to D7 from bits 0 to 3, then a strobe (R101, R171). -/
def writeNibble (h : Handle) (v : Byte) : State → Flow :=
  runSteps [
    setPin h.d4 (bitOf v 0),
    setPin h.d5 (bitOf v 1),
    setPin h.d6 (bitOf v 2),
    setPin h.d7 (bitOf v 3),
    pulseEnable h]

/-- `transfer_byte(v, rs)`: RS once, then the high nibble, then the low nibble (R172). -/
def transferByte (h : Handle) (v : Byte) (rs : Bool) : State → Flow :=
  runSteps [setPin h.rs rs, writeNibble h (v >>> 4), writeNibble h v]

/-- `command(v)`: a transfer with RS low (R173). -/
def command (h : Handle) (v : Byte) : State → Flow := transferByte h v false

/-- `data(v)`: a transfer with RS high (R173). -/
def data (h : Handle) (v : Byte) : State → Flow := transferByte h v true

/-- One read of the poll: D7, D6, D5, D4 in that order (R190). -/
def sampleNibble (h : Handle) (s : State) : BitVec 4 × State :=
  let l7 := samplePin h.d7 s
  let l6 := samplePin h.d6 l7.2
  let l5 := samplePin h.d5 l6.2
  let l4 := samplePin h.d4 l5.2
  (nibbleOfLevels l7.1 l6.1 l5.1 l4.1, l4.2)

/-- The four data Pins made inputs or outputs, D4 first (R190). -/
def dataDirections (h : Handle) (mode : Mode) : State → Flow :=
  runSteps [
    setDirectionStep h.d4 mode, setDirectionStep h.d5 mode, setDirectionStep h.d6 mode, setDirectionStep h.d7 mode]

/-- `read_busy()` (R190): the result is given back as a byte; it is a free value, since every sample is (R192). -/
def readBusy (h : Handle) (s : State) : Flow :=
  (runSteps [dataDirections h .input, setPin h.rs false, setPin h.en true, delayUsStep Config.tPollSettle] s).andThen
    fun s =>
      let hi := sampleNibble h s
      (runSteps [setPin h.en false, delayUsStep Config.tPollGap, setPin h.en true, delayUsStep Config.tPollSettle]
          hi.2).andThen
        fun s =>
          let lo := sampleNibble h s
          (runSteps [setPin h.en false, dataDirections h .output] lo.2).andThen
            fun s => .go (giveBack (.byte (byteOfNibbles hi.1 lo.1)) s)

end Sys2Proof.Machine
end

