-- ==== Sys2Proof/Machine/BusWords.lean ====
section
/-! DEFINITION. The bus words of R102, each run by itself: the byte transfer that puts it on the bus (R100: "`BYTE` is
`transfer_byte`"). A word carries no flag update and no wait of its own (log 1, 23). -/

namespace Sys2Proof.Machine

/-- The transfer of a 9-bit bus word: its byte, with its RS bit (R100). -/
def transferWord (w : BitVec 9) (h : Handle) : State → Flow := transferByte h (wordByte w) (wordRs w)

/-- B1, clear display (R102). -/
def execB1ClearDisplay (s : State) : Host.Outcome State Fault Refusal :=
  runWithHandle .b1ClearDisplay s (transferWord b1Word)

/-- B2, return home (R102). -/
def execB2ReturnHome (s : State) : Host.Outcome State Fault Refusal :=
  runWithHandle .b2ReturnHome s (transferWord b2Word)

/-- B3, entry mode set (R102). -/
def execB3EntryModeSet (i sh : Bool) (s : State) : Host.Outcome State Fault Refusal :=
  runWithHandle .b3EntryModeSet s (transferWord (b3Word i sh))

/-- B4, display control (R102). -/
def execB4DisplayControl (d c b : Bool) (s : State) : Host.Outcome State Fault Refusal :=
  runWithHandle .b4DisplayControl s (transferWord (b4Word d c b))

/-- B5, cursor or display shift (R102). -/
def execB5CursorDisplayShift (sc rl : Bool) (s : State) : Host.Outcome State Fault Refusal :=
  runWithHandle .b5CursorDisplayShift s (transferWord (b5Word sc rl))

/-- B6, function set (R102). -/
def execB6FunctionSet (l n f : Bool) (s : State) : Host.Outcome State Fault Refusal :=
  runWithHandle .b6FunctionSet s (transferWord (b6Word l n f))

/-- B7, set CGRAM address (R102). -/
def execB7SetCgramAddress (a : BitVec 6) (s : State) : Host.Outcome State Fault Refusal :=
  runWithHandle .b7SetCgramAddress s (transferWord (b7Word a))

/-- B8, set DDRAM address (R102). -/
def execB8SetDdramAddress (a : BitVec 7) (s : State) : Host.Outcome State Fault Refusal :=
  runWithHandle .b8SetDdramAddress s (transferWord (b8Word a))

/-- B9, write data (R102). -/
def execB9WriteData (d : Byte) (s : State) : Host.Outcome State Fault Refusal :=
  runWithHandle .b9WriteData s (transferWord (b9Word d))

end Sys2Proof.Machine
end

