-- ==== Sys2Proof/Machine/Flags.lean ====
section
/-! DEFINITION. The three flag bytes of the handle and the command bytes they compose (R33, R34, R35, R104(c)). The
on-forms set their bit and the off-forms clear it; they do not invert it (R245, 90_conflicts.md C2). -/

namespace Sys2Proof.Machine

/-- `H.function_flags` for a row count: DL = 0 and F = 0 always, N = 1 when rows ≥ 2 (R33, R215). -/
def functionFlagsFor (rows : Byte) : Byte := if 2 ≤ rows.toNat then 0x08 else 0x00

/-- `H.control_flags` after begin: display on, cursor off, blink off (R216). -/
def controlFlagsInit : Byte := 0x04

/-- `H.entry_flags` after begin: left to right, no autoscroll (R218). -/
def entryFlagsInit : Byte := 0x02

/-- D of `H.control_flags` (R34). -/
def displayBit : Byte := 0x04

/-- C of `H.control_flags` (R34). -/
def cursorBit : Byte := 0x02

/-- B of `H.control_flags` (R34). -/
def blinkBit : Byte := 0x01

/-- S of `H.entry_flags` (R35). -/
def autoscrollBit : Byte := 0x01

/-- An on-form: set the bits of a mask. -/
def setFlag (mask flags : Byte) : Byte := flags ||| mask

/-- An off-form: clear the bits of a mask. -/
def clearFlag (mask flags : Byte) : Byte := flags &&& ~~~mask

/-- The function-set byte, `0x20 | function_flags` (R104(c)). -/
def functionSetByte (flags : Byte) : Byte := 0x20 ||| flags

/-- The display-control byte, `0x08 | control_flags` (R104(c)). -/
def displayControlByte (flags : Byte) : Byte := 0x08 ||| flags

/-- The entry-mode byte, `0x04 | entry_flags` (R104(c)). -/
def entryModeByte (flags : Byte) : Byte := 0x04 ||| flags

/-- The shift byte to the left, `0x10 | 0x08 | 0x00` (R255). -/
def scrollLeftByte : Byte := 0x10 ||| 0x08 ||| 0x00

/-- The shift byte to the right, `0x10 | 0x08 | 0x04` (R256). -/
def scrollRightByte : Byte := 0x10 ||| 0x08 ||| 0x04

/-- The values `H.function_flags` reaches (R33). -/
def functionFlagsLegal (v : Byte) : Bool := v == 0x00 || v == 0x08

/-- The values `H.control_flags` reaches: bits 7:3 are 0 (R34). -/
def controlFlagsLegal (v : Byte) : Bool := v &&& 0xF8 == 0x00

/-- The values `H.entry_flags` reaches: 0x02 and 0x03, so the direction bit is 1 (R35, R235). -/
def entryFlagsLegal (v : Byte) : Bool := v == 0x02 || v == 0x03

end Sys2Proof.Machine
end

