-- ==== Sys2Proof/Machine/Commands.lean ====
section
/-! DEFINITION. The commands of 44_commands.md sections 1, 2 and 5: clear, home, set_cursor, write, print, createChar. -/

namespace Sys2Proof.Machine

/-- A command byte and the settle wait (R232). -/
def settledCommand (h : Handle) (v : Byte) : State → Flow := runSteps [command h v, delayMsStep Config.tSettle]

/-- clear(): R231. -/
def execClear (s : State) : Host.Outcome State Fault Refusal :=
  runReady .clear s fun h => settledCommand h 0x01

/-- home(): R233. -/
def execHome (s : State) : Host.Outcome State Fault Refusal :=
  runReady .home s fun h => settledCommand h 0x02

/-- The statements of set_cursor after its phase check: the clamp, the operand check, the transfer (R240). -/
def setCursorSteps (h : Handle) (col row : Byte) : State → Flow :=
  readByte .lineCount h.lineCount fun lineCount =>
    match rowOffset (clampRow lineCount row) with
    | some offset => command h (ddramByte col offset)
    | none => raiseStep (.rowOffsetOutOfRange (clampRow lineCount row))

/-- set_cursor(col, row): R240. -/
def execSetCursor (col row : Byte) (s : State) : Host.Outcome State Fault Refusal :=
  runReady .setCursor s fun h => setCursorSteps h col row

/-- write(c): R242. -/
def execWrite (c : Byte) (s : State) : Host.Outcome State Fault Refusal :=
  runReady .write s fun h => data h c

/-- print(s): the bytes before the first 0x00, each as a data byte (R244); a list without 0x00 is refused (R115). -/
def execPrint (text : List Byte) (s : State) : Host.Outcome State Fault Refusal :=
  refuseIllFormed (.print text)
    (runReady .print s fun h => runSteps ((untilTerminator text).map (data h)))

/-- createChar(slot, rows): the CGRAM address, then the eight rows unmasked (R252); other lengths are refused (R115). -/
def execCreateChar (slot : Byte) (rows : List Byte) (s : State) : Host.Outcome State Fault Refusal :=
  refuseIllFormed (.createChar slot rows)
    (runReady .createChar s fun h => runSteps (command h (cgramByte slot) :: rows.map (data h)))

end Sys2Proof.Machine
end

