-- ==== Sys2Proof/Machine/Display.lean ====
section
/-! DEFINITION. The commands of 44_commands.md sections 3 and 4: display control (R245 to R251), shifts (R255, R256)
and entry mode (R258, R259). -/

namespace Sys2Proof.Machine

/-- The statements of a display-control operation: update `H.control_flags`, then send `0x08 | H.control_flags`
(R245). -/
def controlSteps (h : Handle) (update : Byte → Byte) : State → Flow :=
  readByte .controlFlags h.controlFlags fun flags =>
    runSteps [
      updateHandle (fun h => { h with controlFlags := some (update flags) }),
      command h (displayControlByte (update flags))]

/-- The statements of an autoscroll operation: update `H.entry_flags`, then send `0x04 | H.entry_flags` (R258). -/
def entrySteps (h : Handle) (update : Byte → Byte) : State → Flow :=
  readByte .entryFlags h.entryFlags fun flags =>
    runSteps [
      updateHandle (fun h => { h with entryFlags := some (update flags) }),
      command h (entryModeByte (update flags))]

/-- display(): R246. -/
def execDisplay (s : State) : Host.Outcome State Fault Refusal :=
  runReady .display s fun h => controlSteps h (setFlag displayBit)

/-- noDisplay(): R247. -/
def execNoDisplay (s : State) : Host.Outcome State Fault Refusal :=
  runReady .noDisplay s fun h => controlSteps h (clearFlag displayBit)

/-- cursor(): R248. -/
def execCursor (s : State) : Host.Outcome State Fault Refusal :=
  runReady .cursor s fun h => controlSteps h (setFlag cursorBit)

/-- noCursor(): R249. -/
def execNoCursor (s : State) : Host.Outcome State Fault Refusal :=
  runReady .noCursor s fun h => controlSteps h (clearFlag cursorBit)

/-- blink(): R250. -/
def execBlink (s : State) : Host.Outcome State Fault Refusal :=
  runReady .blink s fun h => controlSteps h (setFlag blinkBit)

/-- noBlink(): R251. -/
def execNoBlink (s : State) : Host.Outcome State Fault Refusal :=
  runReady .noBlink s fun h => controlSteps h (clearFlag blinkBit)

/-- scrollDisplayLeft(): R255. -/
def execScrollDisplayLeft (s : State) : Host.Outcome State Fault Refusal :=
  runReady .scrollDisplayLeft s fun h => command h scrollLeftByte

/-- scrollDisplayRight(): R256. -/
def execScrollDisplayRight (s : State) : Host.Outcome State Fault Refusal :=
  runReady .scrollDisplayRight s fun h => command h scrollRightByte

/-- autoscroll(): R258. -/
def execAutoscroll (s : State) : Host.Outcome State Fault Refusal :=
  runReady .autoscroll s fun h => entrySteps h (setFlag autoscrollBit)

/-- noAutoscroll(): R259. -/
def execNoAutoscroll (s : State) : Host.Outcome State Fault Refusal :=
  runReady .noAutoscroll s fun h => entrySteps h (clearFlag autoscrollBit)

end Sys2Proof.Machine
end

