-- ==== Sys2Proof/Machine/Primitives.lean ====
section
/-! DEFINITION. The primitives of R111, each run by itself as one instruction (log 1). -/

namespace Sys2Proof.Machine

/-- resolve(n): pure; the Pin is given back (R141; log 8). -/
def execResolve (n : Byte) (s : State) : Host.Outcome State Fault Refusal :=
  runPrimitive s fun s => .go (giveBack (.pin (resolvePin n)) s)

/-- set(pin, level): R145. -/
def execSet (pin : Pin) (level : Bool) (s : State) : Host.Outcome State Fault Refusal :=
  runPrimitive s (setPin pin level)

/-- set_direction(pin, mode): R146. -/
def execSetDirection (pin : Pin) (mode : Mode) (s : State) : Host.Outcome State Fault Refusal :=
  runPrimitive s (setDirectionStep pin mode)

/-- sample(pin): the level is a draw and is given back (R147; log 8). -/
def execSample (pin : Pin) (s : State) : Host.Outcome State Fault Refusal :=
  runPrimitive s fun s =>
    let level := samplePin pin s
    .go (giveBack (.level level.1) level.2)

/-- delay_us(n): R150. -/
def execDelayUs (n : Nat) (s : State) : Host.Outcome State Fault Refusal :=
  runPrimitive s (delayUsStep n)

/-- delay_ms(n): R150. -/
def execDelayMs (n : Nat) (s : State) : Host.Outcome State Fault Refusal :=
  runPrimitive s (delayMsStep n)

/-- pulse_enable(): R170. -/
def execPulseEnable (s : State) : Host.Outcome State Fault Refusal :=
  runWithHandle .pulseEnable s pulseEnable

/-- write_nibble(v): R171. -/
def execWriteNibble (v : Byte) (s : State) : Host.Outcome State Fault Refusal :=
  runWithHandle .writeNibble s fun h => writeNibble h v

/-- transfer_byte(v, rs): R172. -/
def execTransferByte (v : Byte) (rs : Bool) (s : State) : Host.Outcome State Fault Refusal :=
  runWithHandle .transferByte s fun h => transferByte h v rs

/-- command(v): R173. -/
def execCommand (v : Byte) (s : State) : Host.Outcome State Fault Refusal :=
  runWithHandle .command s fun h => command h v

/-- data(v): R173. -/
def execData (v : Byte) (s : State) : Host.Outcome State Fault Refusal :=
  runWithHandle .data s fun h => data h v

/-- read_busy(): R190. -/
def execReadBusy (s : State) : Host.Outcome State Fault Refusal :=
  runWithHandle .readBusy s readBusy

end Sys2Proof.Machine
end

