-- ==== Sys2Proof/Machine/Setup.lean ====
section
/-! DEFINITION. The host operations that configure the block: create (R201) and begin (R210). -/

namespace Sys2Proof.Machine

/-- The handle `create` builds: six resolved Pins and five unset bytes (R201). -/
def newHandle (rs en d4 d5 d6 d7 : Byte) : Handle where
  rs := resolvePin rs
  en := resolvePin en
  d4 := resolvePin d4
  d5 := resolvePin d5
  d6 := resolvePin d6
  d7 := resolvePin d7
  functionFlags := none
  controlFlags := none
  entryFlags := none
  lineCount := none
  currentLine := none

/-- The statements of `create` on the new handle (R201). -/
def createSteps (h : Handle) : State → Flow :=
  runSteps [
    fun s => .go { s with handle := some h },
    setDirectionStep h.rs .output, setDirectionStep h.en .output,
    setDirectionStep h.d4 .output, setDirectionStep h.d5 .output,
    setDirectionStep h.d6 .output, setDirectionStep h.d7 .output,
    setPhase .constructed]

/-- create(rs, en, d4, d5, d6, d7): R201. -/
def execCreate (rs en d4 d5 d6 d7 : Byte) (s : State) : Host.Outcome State Fault Refusal :=
  unlessFaulted s (complete (
    if s.phase = .noHandle then createSteps (newHandle rs en d4 d5 d6 d7) s
    else raiseStep (.alreadyCreated s.phase) s))

/-- The statements of `begin`, state by state (R210 to R219). -/
def beginSteps (h : Handle) (rows : Byte) : State → Flow :=
  runSteps [
    updateHandle (fun h => { h with lineCount := some rows, currentLine := some 0 }),
    setPhase .reset, delayMsStep Config.tPowerOn, setPin h.rs false, setPin h.en false,
    setPhase .forceNibble1, writeNibble h 0x03, delayMsStep Config.tForce1,
    setPhase .forceNibble2, writeNibble h 0x03, delayMsStep Config.tForce2,
    setPhase .forceNibble3, writeNibble h 0x03, delayMsStep Config.tForce3,
    setPhase .setFourBitMode, writeNibble h 0x02,
    setPhase .functionSet,
    updateHandle (fun h => { h with functionFlags := some (functionFlagsFor rows) }),
    command h (functionSetByte (functionFlagsFor rows)), delayMsStep Config.tInitSettle,
    setPhase .displayOn,
    updateHandle (fun h => { h with controlFlags := some controlFlagsInit }),
    command h (displayControlByte controlFlagsInit), delayMsStep Config.tInitSettle,
    setPhase .clear, command h 0x01, delayMsStep Config.tSettle,
    setPhase .entryModeSet,
    updateHandle (fun h => { h with entryFlags := some entryFlagsInit }),
    command h (entryModeByte entryFlagsInit), delayMsStep Config.tInitSettle,
    setPhase .ready]

/-- begin(columns, rows): R210. `columns` is discarded (decision D21). -/
def execBegin (_columns rows : Byte) (s : State) : Host.Outcome State Fault Refusal :=
  unlessFaulted s (complete (
    if s.phase = .noHandle then raiseStep (.noHandle .begin) s
    else if s.phase = .constructed then
      match s.handle with
      | some h => beginSteps h rows s
      | none => raiseStep (.noHandle .begin) s
    else raiseStep (.beginTwice s.phase) s))

end Sys2Proof.Machine
end

