-- ==== Sys2Proof/Machine/Dispatch.lean ====
section
/-! DEFINITION. One arm per constructor of Instr: the call of its meaning. -/

namespace Sys2Proof.Machine

def exec (i : Instr) (s : State) : Host.Outcome State Fault Refusal :=
  match i with
  -- host operations (R110)
  | .create rs en d4 d5 d6 d7 => Sys2Proof.Machine.execCreate rs en d4 d5 d6 d7 s
  | .begin columns rows => Sys2Proof.Machine.execBegin columns rows s
  | .clear => Sys2Proof.Machine.execClear s
  | .home => Sys2Proof.Machine.execHome s
  | .setCursor col row => Sys2Proof.Machine.execSetCursor col row s
  | .write c => Sys2Proof.Machine.execWrite c s
  | .print text => Sys2Proof.Machine.execPrint text s
  | .display => Sys2Proof.Machine.execDisplay s
  | .noDisplay => Sys2Proof.Machine.execNoDisplay s
  | .cursor => Sys2Proof.Machine.execCursor s
  | .noCursor => Sys2Proof.Machine.execNoCursor s
  | .blink => Sys2Proof.Machine.execBlink s
  | .noBlink => Sys2Proof.Machine.execNoBlink s
  | .scrollDisplayLeft => Sys2Proof.Machine.execScrollDisplayLeft s
  | .scrollDisplayRight => Sys2Proof.Machine.execScrollDisplayRight s
  | .autoscroll => Sys2Proof.Machine.execAutoscroll s
  | .noAutoscroll => Sys2Proof.Machine.execNoAutoscroll s
  | .createChar slot rows => Sys2Proof.Machine.execCreateChar slot rows s
  -- primitives (R111)
  | .resolve n => Sys2Proof.Machine.execResolve n s
  | .set pin level => Sys2Proof.Machine.execSet pin level s
  | .setDirection pin mode => Sys2Proof.Machine.execSetDirection pin mode s
  | .sample pin => Sys2Proof.Machine.execSample pin s
  | .delayUs n => Sys2Proof.Machine.execDelayUs n s
  | .delayMs n => Sys2Proof.Machine.execDelayMs n s
  | .pulseEnable => Sys2Proof.Machine.execPulseEnable s
  | .writeNibble v => Sys2Proof.Machine.execWriteNibble v s
  | .transferByte v rs => Sys2Proof.Machine.execTransferByte v rs s
  | .command v => Sys2Proof.Machine.execCommand v s
  | .data v => Sys2Proof.Machine.execData v s
  | .readBusy => Sys2Proof.Machine.execReadBusy s
  -- bus words (R102)
  | .b1ClearDisplay => Sys2Proof.Machine.execB1ClearDisplay s
  | .b2ReturnHome => Sys2Proof.Machine.execB2ReturnHome s
  | .b3EntryModeSet id sh => Sys2Proof.Machine.execB3EntryModeSet id sh s
  | .b4DisplayControl d c b => Sys2Proof.Machine.execB4DisplayControl d c b s
  | .b5CursorDisplayShift sc rl => Sys2Proof.Machine.execB5CursorDisplayShift sc rl s
  | .b6FunctionSet l n f => Sys2Proof.Machine.execB6FunctionSet l n f s
  | .b7SetCgramAddress a => Sys2Proof.Machine.execB7SetCgramAddress a s
  | .b8SetDdramAddress a => Sys2Proof.Machine.execB8SetDdramAddress a s
  | .b9WriteData d => Sys2Proof.Machine.execB9WriteData d s

end Sys2Proof.Machine
end

