-- ==== Sys2Proof/Machine/Text.lean ====
section
/-! DEFINITION. The written form of a host operation (R119): `name(arg, ...)` with the names of R110, numbers in decimal or
`0x` hexadecimal, and a print string as `"text"`, whose bytes are its ASCII codes and one 0x00. The eight rows of
createChar stand in square brackets, as R252's example writes them; spaces between tokens are skipped (log 26). -/

namespace Sys2Proof.Machine

/-- The ASCII codes of a name of R110. -/
def ascii (name : String) : List Byte := name.toList.map fun c => BitVec.ofNat 8 c.toNat

/-- A token of R119's syntax. -/
inductive Token where
  | name (codes : List Byte)
  | number (n : Nat)
  | string (codes : List Byte)
  | mark (code : Byte)
  deriving DecidableEq, Repr

/-- `(` -/
def markOpen : Byte := 0x28
/-- `)` -/
def markClose : Byte := 0x29
/-- `,` -/
def markComma : Byte := 0x2C
/-- `[` -/
def markListOpen : Byte := 0x5B
/-- `]` -/
def markListClose : Byte := 0x5D
/-- `"` -/
def markQuote : Byte := 0x22

/-- What the scanner is inside of. -/
inductive Scan where
  | between
  | inName (codes : List Byte)
  | inZero
  | inDecimal (n : Nat)
  | afterX
  | inHex (n : Nat)
  | inString (codes : List Byte)
  deriving DecidableEq, Repr

/-- The value of a decimal digit. -/
def digitValue (c : Byte) : Option Nat :=
  if 0x30 ≤ c.toNat ∧ c.toNat ≤ 0x39 then some (c.toNat - 0x30) else none

/-- The value of a hexadecimal digit, of either case. -/
def hexValue (c : Byte) : Option Nat :=
  match digitValue c with
  | some d => some d
  | none =>
    if 0x41 ≤ c.toNat ∧ c.toNat ≤ 0x46 then some (c.toNat - 0x37)
    else if 0x61 ≤ c.toNat ∧ c.toNat ≤ 0x66 then some (c.toNat - 0x57)
    else none

/-- A letter or the underscore of `set_cursor`. -/
def isNameCode (c : Byte) : Bool :=
  (0x41 ≤ c.toNat && c.toNat ≤ 0x5A) || (0x61 ≤ c.toNat && c.toNat ≤ 0x7A) || c == 0x5F

/-- A mark of the syntax. -/
def isMark (c : Byte) : Bool :=
  c == markOpen || c == markClose || c == markComma || c == markListOpen || c == markListClose

/-- A code that begins a token. -/
def scanStart (c : Byte) : Option (List Token × Scan) :=
  if c = 0x20 then some ([], .between)
  else if isMark c then some ([.mark c], .between)
  else if c = markQuote then some ([], .inString [])
  else if isNameCode c then some ([], .inName [c])
  else
    match digitValue c with
    | some 0 => some ([], .inZero)
    | some (d + 1) => some ([], .inDecimal (d + 1))
    | none => none

/-- A token that ends, and the code after it. -/
def scanEnd (t : Token) (c : Byte) : Option (List Token × Scan) :=
  (scanStart c).map fun r => (t :: r.1, r.2)

/-- One code of the text. A decimal number may begin with zeros: `007` is 7. R119 says only "decimal", so this is a DESIGN
CHOICE (log 26). -/
def scanCode (m : Scan) (c : Byte) : Option (List Token × Scan) :=
  match m with
  | .between => scanStart c
  | .inName codes => if isNameCode c then some ([], .inName (codes ++ [c])) else scanEnd (.name codes) c
  | .inZero =>
    if c = 0x78 then some ([], .afterX)
    else
      match digitValue c with
      | some d => some ([], .inDecimal d)
      | none => scanEnd (.number 0) c
  | .afterX =>
    match hexValue c with
    | some d => some ([], .inHex d)
    | none => none
  | .inDecimal n =>
    match digitValue c with
    | some d => some ([], .inDecimal (10 * n + d))
    | none => scanEnd (.number n) c
  | .inHex n =>
    match hexValue c with
    | some d => some ([], .inHex (16 * n + d))
    | none => scanEnd (.number n) c
  | .inString codes =>
    if c = markQuote then some ([.string codes], .between)
    else if c = 0x00 then none
    else some ([], .inString (codes ++ [c]))

/-- The tokens of a text; none where it has none. -/
def scanText : Scan → List Byte → Option (List Token)
  | m, [] =>
    match m with
    | .between => some []
    | .inName codes => some [.name codes]
    | .inZero => some [.number 0]
    | .inDecimal n | .inHex n => some [.number n]
    | .afterX | .inString _ => none
  | m, c :: rest =>
    match scanCode m c with
    | some (ts, m') => (scanText m' rest).map (ts ++ ·)
    | none => none

/-- Numbers with a comma between two and a closing mark at the end; then what follows. Each is a u8 (R119). -/
def numbersUntil (close : Byte) : List Token → Option (List Byte × List Token)
  | .number n :: .mark c :: rest =>
    if n < 256 then
      if c = close then some ([BitVec.ofNat 8 n], rest)
      else if c = markComma then
        match numbersUntil close rest with
        | some (vs, rest') => some (BitVec.ofNat 8 n :: vs, rest')
        | none => none
      else none
    else none
  | _ => none

/-- The numeric arguments of a call, none or several, which end the text. -/
def numericArgs : List Token → Option (List Byte)
  | [.mark c] => if c = markClose then some [] else none
  | ts =>
    match numbersUntil markClose ts with
    | some (vs, []) => some vs
    | _ => none

/-- The arguments of createChar: the slot, then the rows in brackets. -/
def glyphArgs : List Token → Option (Byte × List Byte)
  | .number n :: .mark c :: .mark o :: rest =>
    if n < 256 ∧ c = markComma ∧ o = markListOpen then
      match numbersUntil markListClose rest with
      | some (rows, [.mark e]) => if e = markClose then some (BitVec.ofNat 8 n, rows) else none
      | _ => none
    else none
  | _ => none

/-- The operation of a name of R110 that takes numbers only. -/
def numericCall (name : List Byte) (args : List Byte) : Option Instr :=
  match args with
  | [] =>
    if name = ascii "clear" then some .clear
    else if name = ascii "home" then some .home
    else if name = ascii "display" then some .display
    else if name = ascii "noDisplay" then some .noDisplay
    else if name = ascii "cursor" then some .cursor
    else if name = ascii "noCursor" then some .noCursor
    else if name = ascii "blink" then some .blink
    else if name = ascii "noBlink" then some .noBlink
    else if name = ascii "scrollDisplayLeft" then some .scrollDisplayLeft
    else if name = ascii "scrollDisplayRight" then some .scrollDisplayRight
    else if name = ascii "autoscroll" then some .autoscroll
    else if name = ascii "noAutoscroll" then some .noAutoscroll
    else none
  | [a] => if name = ascii "write" then some (.write a) else none
  | [a, b] =>
    if name = ascii "begin" then some (.begin a b)
    else if name = ascii "set_cursor" then some (.setCursor a b)
    else none
  | [a, b, c, d, e, f] => if name = ascii "create" then some (.create a b c d e f) else none
  | _ => none

/-- The host operation a list of tokens writes. -/
def callOfTokens : List Token → Option Instr
  | .name name :: .mark o :: args =>
    if o = markOpen then
      if name = ascii "print" then
        match args with
        | [.string codes, .mark e] => if e = markClose then some (.print (codes ++ [0x00])) else none
        | _ => none
      else if name = ascii "createChar" then (glyphArgs args).map fun a => .createChar a.1 a.2
      else (numericArgs args).bind (numericCall name)
    else none
  | _ => none

/-- The host operation a text writes (R119), or the name of its refusal (R115). -/
def parseCall (source : List Byte) : Except DecodeError Instr :=
  match (scanText .between source).bind callOfTokens with
  | some i => .ok i
  | none => .error .badText

/-! ### The text of a host operation -/

/-- A hexadecimal digit's code. -/
def hexCode (d : Nat) : Byte := if d < 10 then BitVec.ofNat 8 (0x30 + d) else BitVec.ofNat 8 (0x37 + d)

/-- A u8 as `0xNN` (R10). -/
def renderByte (v : Byte) : List Byte := [0x30, 0x78, hexCode (v.toNat / 16), hexCode (v.toNat % 16)]

/-- A u8 in decimal, without leading zeros (R119). -/
def renderDecimal (v : Byte) : List Byte :=
  let digit (d : Nat) : Byte := BitVec.ofNat 8 (0x30 + d)
  if v.toNat < 10 then [digit v.toNat]
  else if v.toNat < 100 then [digit (v.toNat / 10), digit (v.toNat % 10)]
  else [digit (v.toNat / 100), digit (v.toNat / 10 % 10), digit (v.toNat % 10)]

/-- How a call is written where R119 gives a choice: which numbers are decimal, first argument first (the others are
hexadecimal), and whether a space follows each comma. -/
structure TextForm where
  decimal : List Bool
  spaced : Bool
  deriving DecidableEq, Repr

/-- A number in decimal or in hexadecimal. -/
def renderNumber (decimal : Bool) (v : Byte) : List Byte := if decimal then renderDecimal v else renderByte v

/-- What stands between two arguments. -/
def separator (spaced : Bool) : List Byte := if spaced then [markComma, 0x20] else [markComma]

/-- Numbers with a comma between two. -/
def renderNumbers (spaced : Bool) : List Bool → List Byte → List Byte
  | _, [] => []
  | ds, [v] => renderNumber (ds.headD false) v
  | ds, v :: rest => renderNumber (ds.headD false) v ++ separator spaced ++ renderNumbers spaced ds.tail rest

/-- A name with its arguments in parentheses. -/
def renderNamed (name : String) (args : List Byte) : List Byte := ascii name ++ markOpen :: args ++ [markClose]

/-- The text of a host operation in a form of R119. A print string has one when it ends at its first 0x00 and holds no quote. -/
def renderCall (form : TextForm) : Instr → Option (List Byte)
  | .create rs en d4 d5 d6 d7 => some (renderNamed "create" (renderNumbers form.spaced form.decimal [rs, en, d4, d5, d6, d7]))
  | .begin columns rows => some (renderNamed "begin" (renderNumbers form.spaced form.decimal [columns, rows]))
  | .clear => some (renderNamed "clear" [])
  | .home => some (renderNamed "home" [])
  | .setCursor col row => some (renderNamed "set_cursor" (renderNumbers form.spaced form.decimal [col, row]))
  | .write c => some (renderNamed "write" (renderNumber (form.decimal.headD false) c))
  | .print s =>
    if s.getLast? = some 0x00 ∧ (0x00 : Byte) ∉ s.dropLast ∧ markQuote ∉ s then
      some (renderNamed "print" (markQuote :: s.dropLast ++ [markQuote]))
    else none
  | .display => some (renderNamed "display" [])
  | .noDisplay => some (renderNamed "noDisplay" [])
  | .cursor => some (renderNamed "cursor" [])
  | .noCursor => some (renderNamed "noCursor" [])
  | .blink => some (renderNamed "blink" [])
  | .noBlink => some (renderNamed "noBlink" [])
  | .scrollDisplayLeft => some (renderNamed "scrollDisplayLeft" [])
  | .scrollDisplayRight => some (renderNamed "scrollDisplayRight" [])
  | .autoscroll => some (renderNamed "autoscroll" [])
  | .noAutoscroll => some (renderNamed "noAutoscroll" [])
  | .createChar slot rows =>
    some (renderNamed "createChar" (renderNumber (form.decimal.headD false) slot ++ separator form.spaced ++
      markListOpen :: renderNumbers form.spaced form.decimal.tail rows ++ [markListClose]))
  | .resolve _ | .set _ _ | .setDirection _ _ | .sample _ | .delayUs _ | .delayMs _ | .pulseEnable | .writeNibble _
  | .transferByte _ _ | .command _ | .data _ | .readBusy | .b1ClearDisplay | .b2ReturnHome | .b3EntryModeSet _ _
  | .b4DisplayControl _ _ _ | .b5CursorDisplayShift _ _ | .b6FunctionSet _ _ _ | .b7SetCgramAddress _
  | .b8SetDdramAddress _ | .b9WriteData _ => none

end Sys2Proof.Machine
end

