-- ==== Sys2Proof/Machine/HostInputs.lean ====
section
/-! DEFINITION. What happens between operations: time passes (R152), the environment writes (R72(b)), the host issues its
next operation (R110, R115). -/

namespace Sys2Proof.Machine

/-- Time between operations: it advances by a drawn amount of 0 or more (R43, R152; log 11). -/
def gap (s : State) : State := advance 0 s

/-- The Pins of a handle, in the order of `create`'s direction writes. -/
def Handle.pins (h : Handle) : List Pin := [h.rs, h.en, h.d4, h.d5, h.d6, h.d7]

/-- Whether a mask touches a handle Pin's bit of a port (R72(b)). -/
def touchesHandle (s : State) (p : Port) (mask : Byte) : Bool :=
  match s.handle with
  | none => false
  | some h => h.pins.any fun pin => decide (pin.port = p) && bitOf mask pin.bit

/-- A byte with the bits of a mask replaced by those of a value. -/
def maskedByte (old mask value : Byte) : Byte := (old &&& ~~~mask) ||| (value &&& mask)

/-- The event of an environment write: the new byte, with no bit and no level (R44). -/
def envEvent (reg : RegKind) (p : Port) (byte : Byte) : EventKind :=
  match reg with
  | .data => .pinWrite p none byte .env
  | .direction => .dirWrite p none byte .env

/-- An environment write: recorded with origin `env`; one that touches a handle Pin's bit has no move (R72(b)). -/
def envWrite (reg : RegKind) (p : Port) (mask value : Byte) (s : State) : Host.Outcome State Fault Refusal :=
  if touchesHandle s p mask then .refused .envWriteToHandlePin
  else
    let byte := maskedByte (Memory.read s.mem (regAddr reg p)) mask value
    .next (emit (envEvent reg p byte) { s with mem := Memory.write s.mem (regAddr reg p) byte })

/-- The inputs after the first are what is left; the time before the first has passed. -/
def takeInput (rest : List HostEvent) (s : State) : State := gap { s with pending := rest }

/-- What an input delivers: a host operation for the host's call or text (R110, R111, R115), the instruction of any row for
a bench (log 1), or the name of its refusal; nothing for an environment write. -/
def delivered : HostEvent → Option (Except DecodeError Instr)
  | .call bytes => some (decodeHostCall bytes)
  | .bench bytes => some (decode bytes)
  | .text source => some (parseCall source)
  | .envWrite _ _ _ _ => none

/-- The input that delivers a word of the opcode table: the host's call where the word is read as a host operation, a
bench's input where it is read as another row (log 1, 3). -/
def tableInput (nbits w : Nat) : HostEvent :=
  match decodeHostCall (tableBytes nbits w) with
  | .ok _ => .call (tableBytes nbits w)
  | .error _ => .bench (tableBytes nbits w)

end Sys2Proof.Machine
end

