-- ==== Sys2Proof/Machine/Step.lean ====
section
/-! DEFINITION. One step: the next input of the host or the environment. A host operation is one step (R42). With no
input left only time passes (R152). -/

namespace Sys2Proof.Machine

/-- What a call, a text or a bench delivered is run, or refused by its name (R110, R115). -/
def runDelivered (r : Except DecodeError Instr) (s : State) : Host.Outcome State Fault Refusal :=
  match r with
  | .ok i => exec i s
  | .error why => .refused (.undecodable why)

/-- One step of the machine. A faulted state has none (R301). -/
def step (s : State) : Host.Outcome State Fault Refusal :=
  if s.phase = .faulted then .fault .faultedHasNoStep
  else
    match s.pending with
    | [] => .next (gap s)
    | .envWrite reg p mask value :: rest => envWrite reg p mask value (takeInput rest s)
    | .call bytes :: rest => runDelivered (decodeHostCall bytes) (takeInput rest s)
    | .text source :: rest => runDelivered (parseCall source) (takeInput rest s)
    | .bench bytes :: rest => runDelivered (decode bytes) (takeInput rest s)

/-- The state with an opcode-table word delivered as the next input, so that the very next step runs it (log 3). -/
def State.withFetchWord (s : State) (nbits w : Nat) : State :=
  { s with pending := tableInput nbits w :: s.pending }

end Sys2Proof.Machine
end

