-- ==== Sys2Proof/Machine/Bus.lean ====
section
/-! DEFINITION. The bus as the LCD sees it: line levels (R41), latched nibbles (R176) and the bytes they pair up to (R177).
These are readings of the state and the trace; no operation uses them. -/

namespace Sys2Proof.Machine

/-- The level the block drives on a Pin's line: the data bit when the pin is an output, none when it is not (R41). -/
def lineLevel (m : Memory) (pin : Pin) : Option Bool :=
  if bitOf (Memory.read m (Config.ddrAddr pin.port)) pin.bit then
    some (bitOf (Memory.read m (Config.portAddr pin.port)) pin.bit)
  else none

/-- A `LATCH` word (R100): RS, then D7 to D4. A bit whose line is not driven has no value (R194; log 20). -/
structure Latch where
  rs : Option Bool
  d7 : Option Bool
  d6 : Option Bool
  d5 : Option Bool
  d4 : Option Bool
  deriving DecidableEq, Repr

/-- The levels on the handle's RS and data lines. -/
def latchOf (h : Handle) (m : Memory) : Latch where
  rs := lineLevel m h.rs
  d7 := lineLevel m h.d7
  d6 := lineLevel m h.d6
  d5 := lineLevel m h.d5
  d4 := lineLevel m h.d4

/-- The `LATCH` word of a nibble with every line driven (R101). -/
def nibbleLatch (rs : Bool) (v : Byte) : Latch where
  rs := some rs
  d7 := some (bitOf v 3)
  d6 := some (bitOf v 2)
  d5 := some (bitOf v 1)
  d4 := some (bitOf v 0)

/-- The registers after an event: each register write records the full new byte (R44). -/
def applyEvent (m : Memory) : EventKind → Memory
  | .pinWrite p _ byte _ => Memory.write m (Config.portAddr p) byte
  | .dirWrite p _ byte _ => Memory.write m (Config.ddrAddr p) byte
  | .sample _ _ _ => m

/-- A falling edge of Enable: a block write of `H.en` with level 0 when the line was driven high just before (R176). -/
def fallingEdge (h : Handle) (m : Memory) : EventKind → Bool
  | .pinWrite p (some (b, false)) _ .block => decide (p = h.en.port ∧ b = h.en.bit) && decide (lineLevel m h.en = some true)
  | .pinWrite _ _ _ _ | .dirWrite _ _ _ _ | .sample _ _ _ => false

/-- The words latched by the events that follow registers `m`, in trace order (R176). A word holds the levels right
after the write that makes the edge (log 19). -/
def latched (h : Handle) : Memory → List EventKind → List Latch
  | _, [] => []
  | m, e :: rest =>
    if fallingEdge h m e then latchOf h (applyEvent m e) :: latched h (applyEvent m e) rest
    else latched h (applyEvent m e) rest

/-- The events of a state after the first n. -/
def eventsFrom (n : Nat) (s : State) : List EventKind := (s.trace.drop n).map Event.kind

/-- What an operation that led from `s` to `t` put on the bus (R176). -/
def latchedBetween (h : Handle) (s t : State) : List Latch := latched h s.mem (eventsFrom s.trace.length t)

/-- The `BYTE` word `{r, h[3:0], l[3:0]}` of two latched words that carry the same RS (R177); none otherwise. -/
def pairWord (hi lo : Latch) : Option (BitVec 9) :=
  match hi, lo with
  | ⟨some r, some a, some b, some c, some d⟩, ⟨some r', some e, some f, some g, some i⟩ =>
    if r = r' then some (bit1 r ++ bit1 a ++ bit1 b ++ bit1 c ++ bit1 d ++ bit1 e ++ bit1 f ++ bit1 g ++ bit1 i)
    else none
  | _, _ => none

/-- Latched words paired to `BYTE` words (R177); none where they do not pair. -/
def pairWords : List Latch → Option (List (BitVec 9))
  | [] => some []
  | [_] => none
  | hi :: lo :: rest =>
    match pairWord hi lo, pairWords rest with
    | some w, some ws => some (w :: ws)
    | _, _ => none

/-- `bytes(trace)` (R177): from the registers at launch, without the four raw nibbles. -/
def busBytes (h : Handle) (launch : Memory) (s : State) : Option (List (BitVec 9)) :=
  pairWords ((latched h launch (eventsFrom 0 s)).drop 4)

/-- The `BYTE` word of a transfer (R100). -/
def transferredWord (rs : Bool) (v : Byte) : BitVec 9 := bit1 rs ++ v

end Sys2Proof.Machine
end

