-- ==== Sys2Proof/Safety.lean ====
section
/-! DEFINITION. What a good state and a good run are, in the terms the statements use: the invariant of the machine, the
register writes an operation makes, the premises under which it runs to its end, and the flag invariant of R32. -/

namespace Sys2Proof.Machine

/-- A run ends well when every operation has returned and no fault is set (R370). -/
def State.endsWell (s : State) : Bool := s.pending.isEmpty && s.fault.isNone

/-! ### The invariant -/

/-- A bit some logical pin number reaches: all of port D, bits 0 to 5 of ports B and C (R63). -/
def reachablePin (pin : Pin) : Bool :=
  match pin.port with
  | .d => true
  | .b | .c => decide (pin.bit.val ≤ 5)

/-- The five bytes of a handle are `unset` (R201, R303). -/
def Handle.unset (h : Handle) : Bool :=
  h.functionFlags.isNone && h.controlFlags.isNone && h.entryFlags.isNone && h.lineCount.isNone && h.currentLine.isNone

/-- The five bytes of a handle after begin: values that R33 to R36 allow. -/
def Handle.configured (h : Handle) : Bool :=
  match h.functionFlags, h.controlFlags, h.entryFlags, h.lineCount, h.currentLine with
  | some f, some c, some e, some n, some l =>
    f == functionFlagsFor n && controlFlagsLegal c && entryFlagsLegal e && l == 0
  | _, _, _, _, _ => false

/-- The handle that a phase goes with (R37, R202, R214); no phase inside begin is seen between steps. -/
def State.phaseFits (s : State) : Bool :=
  match s.phase with
  | .noHandle => s.handle.isNone
  | .constructed => s.handle.any fun h => h.unset && h.pins.all reachablePin
  | .ready => s.handle.any fun h => h.configured && h.pins.all reachablePin
  | .faulted => true
  | .reset | .forceNibble1 | .forceNibble2 | .forceNibble3 | .setFourBitMode | .functionSet | .displayOn | .clear
  | .entryModeSet => false

/-- The timestamps of the trace never decrease, and none is later than the time (R43, R44, R70). -/
abbrev State.timely (s : State) : Prop :=
  (s.trace.map Event.time).Pairwise (· ≤ ·) ∧ ∀ e ∈ s.trace, e.time ≤ s.now

/-- The invariant of the machine. -/
abbrev State.Inv (s : State) : Prop :=
  Memory.wf s.mem = true ∧ Memory.mapped s.mem = true ∧ s.timely ∧ (s.fault.isSome = true ↔ s.phase = .faulted) ∧
    s.phaseFits = true

/-- Every Pin of a handle is an output. -/
def driven (s : State) (h : Handle) : Bool := h.pins.all (isOutput s)

/-- From `create` on, while no fault is raised, the handle's Pins are outputs (R202, R214). -/
def State.pinsDriven (s : State) : Bool :=
  match s.phase with
  | .constructed | .ready => s.handle.all (driven s)
  | .noHandle | .faulted | .reset | .forceNibble1 | .forceNibble2 | .forceNibble3 | .setFourBitMode | .functionSet
  | .displayOn | .clear | .entryModeSet => true

/-! ### The register writes of an operation -/

/-- One bit written in one register: a level in PORT or a direction in DDR. -/
structure RegWrite where
  kind : RegKind
  pin : Pin
  bit : Bool
  deriving DecidableEq, Repr

/-- The address of the register written. -/
def writeAddr (w : RegWrite) : Nat := regAddr w.kind w.pin.port

/-- The new byte: the old one with the bit set or cleared (R145, R146). -/
def writeByte (m : Memory) (w : RegWrite) : Byte := withBit (Memory.read m (writeAddr w)) w.pin.bit w.bit

/-- The memory after one write. -/
def writeMem (m : Memory) (w : RegWrite) : Memory := Memory.write m (writeAddr w) (writeByte m w)

/-- The event of one write (R44). -/
def writeEvent (m : Memory) (w : RegWrite) : EventKind :=
  match w.kind with
  | .data => .pinWrite w.pin.port (some (w.pin.bit, w.bit)) (writeByte m w) .block
  | .direction => .dirWrite w.pin.port (some (w.pin.bit, modeOfBit w.bit)) (writeByte m w) .block

/-- The memory after writes in order. -/
def writesMem (m : Memory) (ws : List RegWrite) : Memory := ws.foldl writeMem m

/-- The events of writes in order. -/
def writesEvents : Memory → List RegWrite → List EventKind
  | _, [] => []
  | m, w :: rest => writeEvent m w :: writesEvents (writeMem m w) rest

/-- A level driven on a Pin. -/
def drive (pin : Pin) (level : Bool) : RegWrite := ⟨.data, pin, level⟩

/-- A direction given to a Pin. -/
def direct (pin : Pin) (mode : Mode) : RegWrite := ⟨.direction, pin, mode.bit⟩

/-- The writes of `pulse_enable` (R170). -/
def pulseWrites (h : Handle) : List RegWrite := [drive h.en false, drive h.en true, drive h.en false]

/-- The writes of `write_nibble` (R171). -/
def nibbleWrites (h : Handle) (v : Byte) : List RegWrite :=
  [drive h.d4 (bitOf v 0), drive h.d5 (bitOf v 1), drive h.d6 (bitOf v 2), drive h.d7 (bitOf v 3)] ++ pulseWrites h

/-- The writes of `transfer_byte` (R172). -/
def transferWrites (h : Handle) (v : Byte) (rs : Bool) : List RegWrite :=
  drive h.rs rs :: nibbleWrites h (v >>> 4) ++ nibbleWrites h v

/-- The writes of `begin` (R210). -/
def beginWrites (h : Handle) (rows : Byte) : List RegWrite :=
  [drive h.rs false, drive h.en false] ++ nibbleWrites h 0x03 ++ nibbleWrites h 0x03 ++ nibbleWrites h 0x03 ++
    nibbleWrites h 0x02 ++ transferWrites h (0x20 ||| if 2 ≤ rows.toNat then 0x08 else 0x00) false ++
    transferWrites h 0x0C false ++ transferWrites h 0x01 false ++ transferWrites h 0x06 false

/-- The four data Pins, D4 first. -/
def Handle.dataPins (h : Handle) : List Pin := [h.d4, h.d5, h.d6, h.d7]

/-- From `s` to `t` the machine makes these register writes, records their events after those it had, and takes at
least `ns` nanoseconds; the memory is otherwise as it was, and so are the fault, the inputs and what was given back.
(The phase and the handle are for each statement to say.) -/
def SendsOnly (s t : State) (ws : List RegWrite) (ns : Nat) : Prop :=
  (∃ evs, t.trace = s.trace ++ evs ∧ evs.map Event.kind = writesEvents s.mem ws) ∧ t.mem = writesMem s.mem ws ∧
    s.now + ns ≤ t.now ∧ t.fault = s.fault ∧ t.pending = s.pending ∧ t.returned = s.returned

/-! ### Premises and results -/

/-- Every Pin that some writes drive is an output. -/
def allOutputs (s : State) (ws : List RegWrite) : Bool := ws.all fun w => isOutput s w.pin

/-- `exec i s` makes the writes up to the first one whose Pin is an input, and there raises PinNotOutput (R145, R304);
the handle is then `h'`. -/
def StopsAtInput (i : Instr) (s : State) (ws : List RegWrite) (h' : Option Handle) : Prop :=
  ∃ t before w after, ws = before ++ w :: after ∧ allOutputs s before = true ∧ isOutput s w.pin = false ∧
    exec i s = .next t ∧ t.fault = some (.pinNotOutput w.pin) ∧ t.phase = .faulted ∧ t.handle = h' ∧
    t.mem = writesMem s.mem before ∧
    (∃ evs, t.trace = s.trace ++ evs ∧ evs.map Event.kind = writesEvents s.mem before) ∧ s.now ≤ t.now ∧
    t.pending = s.pending ∧ t.returned = s.returned

/-- `exec i s` answers a next state: with every Pin an output it makes the writes, takes `ns` or longer, stays in its
phase and leaves the handle `h'`; with some Pin an input it stops there. -/
def Performs (i : Instr) (s : State) (ws : List RegWrite) (ns : Nat) (h' : Option Handle) : Prop :=
  (allOutputs s ws = true → ∃ t, exec i s = .next t ∧ SendsOnly s t ws ns ∧ t.phase = s.phase ∧ t.handle = h') ∧
    (allOutputs s ws = false → StopsAtInput i s ws h')

/-- A state in which a command runs to its end (R230): Ready, and the Pins are outputs. -/
def IsReady (s : State) (h : Handle) : Prop := s.phase = .ready ∧ s.handle = some h ∧ driven s h = true

/-- The phase check of R230 for one command. -/
def PhaseChecked (i : Instr) (op : OpName) (s : State) : Prop :=
  (s.phase = .noHandle → exec i s = .next (raise (.noHandle op) s)) ∧
    (s.phase = .constructed → exec i s = .next (raise (.notReady op) s))

/-- The Pins whose PORT bit an instruction may write. -/
def mayDrive (i : Instr) (s : State) : List Pin :=
  match i with
  | .set pin _ => [pin]
  | .create _ _ _ _ _ _ | .resolve _ | .setDirection _ _ | .sample _ | .delayUs _ | .delayMs _ => []
  | .begin _ _ | .clear | .home | .setCursor _ _ | .write _ | .print _ | .display | .noDisplay | .cursor | .noCursor
  | .blink | .noBlink | .scrollDisplayLeft | .scrollDisplayRight | .autoscroll | .noAutoscroll | .createChar _ _
  | .pulseEnable | .writeNibble _ | .transferByte _ _ | .command _ | .data _ | .readBusy | .b1ClearDisplay
  | .b2ReturnHome | .b3EntryModeSet _ _ | .b4DisplayControl _ _ _ | .b5CursorDisplayShift _ _ | .b6FunctionSet _ _ _
  | .b7SetCgramAddress _ | .b8SetDdramAddress _ | .b9WriteData _ =>
    match s.handle with
    | some h => h.pins
    | none => []

/-- The Pins whose DDR bit an instruction may write. -/
def mayDirect (i : Instr) (s : State) : List Pin :=
  match i with
  | .setDirection pin _ => [pin]
  | .create rs en d4 d5 d6 d7 => [rs, en, d4, d5, d6, d7].map resolvePin
  | .readBusy =>
    match s.handle with
    | some h => h.dataPins
    | none => []
  | .set _ _ | .resolve _ | .sample _ | .delayUs _ | .delayMs _ | .begin _ _ | .clear | .home | .setCursor _ _
  | .write _ | .print _ | .display | .noDisplay | .cursor | .noCursor | .blink | .noBlink | .scrollDisplayLeft
  | .scrollDisplayRight | .autoscroll | .noAutoscroll | .createChar _ _ | .pulseEnable | .writeNibble _
  | .transferByte _ _ | .command _ | .data _ | .b1ClearDisplay | .b2ReturnHome | .b3EntryModeSet _ _
  | .b4DisplayControl _ _ _ | .b5CursorDisplayShift _ _ | .b6FunctionSet _ _ _ | .b7SetCgramAddress _
  | .b8SetDdramAddress _ | .b9WriteData _ => []

/-- The Pins an instruction may sample. A host operation samples none (R195). -/
def maySample (i : Instr) (s : State) : List Pin :=
  match i with
  | .sample pin => [pin]
  | .readBusy =>
    match s.handle with
    | some h => h.dataPins
    | none => []
  | .create _ _ _ _ _ _ | .begin _ _ | .clear | .home | .setCursor _ _ | .write _ | .print _ | .display | .noDisplay
  | .cursor | .noCursor | .blink | .noBlink | .scrollDisplayLeft | .scrollDisplayRight | .autoscroll | .noAutoscroll
  | .createChar _ _ | .resolve _ | .set _ _ | .setDirection _ _ | .delayUs _ | .delayMs _ | .pulseEnable
  | .writeNibble _ | .transferByte _ _ | .command _ | .data _ | .b1ClearDisplay | .b2ReturnHome | .b3EntryModeSet _ _
  | .b4DisplayControl _ _ _ | .b5CursorDisplayShift _ _ | .b6FunctionSet _ _ _ | .b7SetCgramAddress _
  | .b8SetDdramAddress _ | .b9WriteData _ => []

/-- An event that an instruction's own rule allows: a block write of a Pin it may drive or direct, or a read of a Pin it
may sample. -/
def ownEvent (i : Instr) (s : State) : EventKind → Bool
  | .pinWrite p (some (b, _)) _ .block => decide (⟨p, b⟩ ∈ mayDrive i s)
  | .dirWrite p (some (b, _)) _ .block => decide (⟨p, b⟩ ∈ mayDirect i s)
  | .sample p b _ => decide (⟨p, b⟩ ∈ maySample i s)
  | .pinWrite _ _ _ _ | .dirWrite _ _ _ _ => false

/-- A handle with the bytes an instruction may write taken out: what it leaves as it was. -/
def untouchedPart (i : Instr) (h : Handle) : Handle :=
  match i with
  | .begin _ _ =>
    { h with functionFlags := none, controlFlags := none, entryFlags := none, lineCount := none, currentLine := none }
  | .display | .noDisplay | .cursor | .noCursor | .blink | .noBlink => { h with controlFlags := none }
  | .autoscroll | .noAutoscroll => { h with entryFlags := none }
  | .create _ _ _ _ _ _ | .clear | .home | .setCursor _ _ | .write _ | .print _ | .scrollDisplayLeft
  | .scrollDisplayRight | .createChar _ _ | .resolve _ | .set _ _ | .setDirection _ _ | .sample _ | .delayUs _
  | .delayMs _ | .pulseEnable | .writeNibble _ | .transferByte _ _ | .command _ | .data _ | .readBusy
  | .b1ClearDisplay | .b2ReturnHome | .b3EntryModeSet _ _ | .b4DisplayControl _ _ _ | .b5CursorDisplayShift _ _
  | .b6FunctionSet _ _ _ | .b7SetCgramAddress _ | .b8SetDdramAddress _ | .b9WriteData _ => h

/-- Whether an instruction is a primitive that gives a value back (R141, R147, R190). -/
def givesBack (i : Instr) : Bool := i.opName == .resolve || i.opName == .sample || i.opName == .readBusy

/-- Whether an instruction is one of the commands of 44_commands.md. -/
def isCommand (i : Instr) : Bool := i.kind == .hostOperation && i.opName != .create && i.opName != .begin

/-- The six Pins are distinct and Enable is driven low: the premises of R177 for one transfer. -/
def CleanBus (s : State) (h : Handle) : Prop := h.pins.Nodup ∧ lineLevel s.mem h.en = some false

/-- The bus words of a command, first to last, as R102 encodes them (R120, R231 to R259): what it puts on a clean bus. An
operation of no command has none here, nor has a cursor position that R240 faults. -/
def commandWords (i : Instr) (h : Handle) : List (BitVec 9) :=
  let control (word : Byte → BitVec 9) : List (BitVec 9) := (h.controlFlags.map word).toList
  let entry (word : Byte → BitVec 9) : List (BitVec 9) := (h.entryFlags.map word).toList
  match i with
  | .clear => [b1Word]
  | .home => [b2Word]
  | .setCursor col row =>
    match h.lineCount.bind fun n => rowOffset (clampRow n row) with
    | some offset => [b8Word (BitVec.ofNat 7 (col.toNat + offset.toNat))]
    | none => []
  | .write c => [b9Word c]
  | .print text => (untilTerminator text).map b9Word
  | .display => control fun f => b4Word true (bitOf f 1) (bitOf f 0)
  | .noDisplay => control fun f => b4Word false (bitOf f 1) (bitOf f 0)
  | .cursor => control fun f => b4Word (bitOf f 2) true (bitOf f 0)
  | .noCursor => control fun f => b4Word (bitOf f 2) false (bitOf f 0)
  | .blink => control fun f => b4Word (bitOf f 2) (bitOf f 1) true
  | .noBlink => control fun f => b4Word (bitOf f 2) (bitOf f 1) false
  | .scrollDisplayLeft => [b5Word true false]
  | .scrollDisplayRight => [b5Word true true]
  | .autoscroll => entry fun f => b3Word (bitOf f 1) true
  | .noAutoscroll => entry fun f => b3Word (bitOf f 1) false
  | .createChar slot rows => b7Word (BitVec.ofNat 3 slot.toNat ++ 0b000#3) :: rows.map b9Word
  | .create _ _ _ _ _ _ | .begin _ _ | .resolve _ | .set _ _ | .setDirection _ _ | .sample _ | .delayUs _ | .delayMs _
  | .pulseEnable | .writeNibble _ | .transferByte _ _ | .command _ | .data _ | .readBusy | .b1ClearDisplay
  | .b2ReturnHome | .b3EntryModeSet _ _ | .b4DisplayControl _ _ _ | .b5CursorDisplayShift _ _ | .b6FunctionSet _ _ _
  | .b7SetCgramAddress _ | .b8SetDdramAddress _ | .b9WriteData _ => []

/-! ### The flag invariant -/

/-- The registers that a trace leads to (R44: each register write records the full new byte). -/
def replay (launch : Memory) (trace : List Event) : Memory := (trace.map Event.kind).foldl applyEvent launch

/-- The last word of a pattern among the bytes sent. -/
def lastWord (mask pattern : BitVec 9) (ws : List (BitVec 9)) : Option (BitVec 9) :=
  ws.reverse.find? fun w => w &&& mask == pattern

/-- R32 for the words sent so far: the last function-set, display-control and entry-mode bytes are those that the
handle's flag bytes compose. -/
def FlagsSent (h : Handle) (ws : List (BitVec 9)) : Prop :=
  h.configured = true ∧
    lastWord 0x1E3#9 0x020#9 ws = h.functionFlags.map (fun f => transferredWord false (functionSetByte f)) ∧
    lastWord 0x1F8#9 0x008#9 ws = h.controlFlags.map (fun c => transferredWord false (displayControlByte c)) ∧
    lastWord 0x1FC#9 0x004#9 ws = h.entryFlags.map (fun e => transferredWord false (entryModeByte e))

/-- A Ready state on a clean bus whose registers are those its trace leads to from `launch` and whose flag bytes are in
sync with the bytes sent (R32, R177). -/
def InSync (launch : Memory) (s : State) (h : Handle) : Prop :=
  IsReady s h ∧ CleanBus s h ∧ s.mem = replay launch s.trace ∧ ∃ ws, busBytes h launch s = some ws ∧ FlagsSent h ws

/-- The next input is a host operation, an environment write, or none: what the host may do (R110, R111, R371). -/
def State.hostPlays (s : State) : Bool :=
  match s.pending with
  | [] => true
  | e :: _ =>
    match delivered e with
    | some (.ok i) => i.kind == .hostOperation
    | some (.error _) => false
    | none => true

end Sys2Proof.Machine
end

