-- ==== Sys2Proof/Certificates/Slice0/Obligations.lean ====
section
/-! DEFINITION. The statements for the provers. Each docstring names the rules of spec/ it formalises; where a clause rests
on a choice of the model's own it names the log entry. -/

open Sys2Proof Sys2Proof.Machine

/-! ### Launch, faults, steps -/

/-- R48: the state at model launch, with `INIT_PORTS` at its default 0x00. -/
def Obligations.LaunchStateIsAsSpecified : Prop :=
  (∀ p, State.reset.port p = 0x00 ∧ State.reset.ddr p = 0x00) ∧ State.reset.handle = none ∧
    State.reset.phase = .noHandle ∧ State.reset.now = 0 ∧ State.reset.trace = [] ∧ State.reset.fault = none

/-- The launch state meets the invariant, and no Pin is yet a handle's. -/
def Obligations.LaunchStateMeetsInvariant : Prop :=
  State.reset.Inv ∧ State.reset.pinsDriven = true

/-- R301: raising a fault records it and moves the phase to Faulted, keeps the events recorded before it and the rest of
the state, and ends the operation at once; a faulted state has no step and is no good end of a run. That the machine
then answers a fault of its own is the form "no step" takes in the model (log 5). -/
def Obligations.RaisedFaultEndsTheRun : Prop :=
  (∀ r s, (raise r s).fault = some r ∧ (raise r s).phase = .faulted ∧
      raise r s = { s with fault := (raise r s).fault, phase := (raise r s).phase } ∧
      (raise r s).endsWell = false) ∧
    (∀ r s rest, runSteps (raiseStep r :: rest) s = .halted (raise r s)) ∧
    (∀ s, s.phase = .faulted → step s = .fault .faultedHasNoStep) ∧
    (∀ i s, s.phase = .faulted → i.wellFormed = true → exec i s = .fault .faultedHasNoStep)

/-- R110, R42, R152: when the next input delivers an instruction, the step is that instruction run after the time between
operations has passed; when it delivers none, the step refuses it by name (R115). -/
def Obligations.StepRunsDeliveredInstruction : Prop :=
  ∀ s e rest, s.phase ≠ .faulted → s.pending = e :: rest →
    (∀ i, delivered e = some (.ok i) → step s = exec i (takeInput rest s)) ∧
    (∀ why, delivered e = some (.error why) → step s = .refused (.undecodable why)) ∧
    s.now ≤ (takeInput rest s).now ∧
    takeInput rest s =
      { s with pending := rest, now := (takeInput rest s).now, draws := (takeInput rest s).draws }

/-- R152 with no operation issued: a step only lets time pass (log 11). -/
def Obligations.IdleStepOnlyPassesTime : Prop :=
  ∀ s, s.phase ≠ .faulted → s.pending = [] →
    ∃ t, step s = .next t ∧ s.now ≤ t.now ∧ t = { s with now := t.now, draws := t.draws }

/-- R72(b), R44: an environment write changes the bits of its mask in one register, is recorded with the new byte and
origin env, and leaves every bit of a handle Pin; one that touches such a bit has no move (log 12). -/
def Obligations.EnvironmentWritesOnlyForeignBits : Prop :=
  ∀ s reg p mask value rest, s.phase ≠ .faulted → s.pending = .envWrite reg p mask value :: rest →
    (touchesHandle s p mask = false →
      ∃ t, step s = .next t ∧
        (∀ b, bitOf (Memory.read t.mem (regAddr reg p)) b =
          if bitOf mask b then bitOf value b else bitOf (Memory.read s.mem (regAddr reg p)) b) ∧
        (∀ a, a ≠ regAddr reg p → Memory.read t.mem a = Memory.read s.mem a) ∧
        (∀ h pin, s.handle = some h → pin ∈ h.pins →
          bitOf (t.port pin.port) pin.bit = bitOf (s.port pin.port) pin.bit ∧ isOutput t pin = isOutput s pin) ∧
        t.trace = s.trace ++ [⟨t.now, envEvent reg p (Memory.read t.mem (regAddr reg p))⟩] ∧
        s.now ≤ t.now ∧ t.handle = s.handle ∧ t.phase = s.phase ∧ t.fault = s.fault ∧ t.pending = rest ∧
        t.returned = s.returned) ∧
    (touchesHandle s p mask = true → step s = .refused .envWriteToHandlePin)

/-- R115: what is no operation of the block is refused: a print list without 0x00, a createChar row list whose length is
not eight. -/
def Obligations.IllFormedOperationsAreRefused : Prop :=
  (∀ text s, (0x00 : Byte) ∉ text → exec (.print text) s = .refused (.illFormed .stringNotTerminated)) ∧
    (∀ slot rows s, rows.length ≠ 8 → exec (.createChar slot rows) s = .refused (.illFormed .glyphRowsNotEight))

/-! ### Primitives -/

/-- R141, R142: the pin mapper. What `resolve` gives back stands in the model's own field (log 8). -/
def Obligations.ResolveMapsPinNumbers : Prop :=
  ∀ n s, s.phase ≠ .faulted →
    exec (.resolve n) s = .next { s with returned := some (.pin (resolvePin n)) } ∧
      (n.toNat ≤ 7 → (resolvePin n).port = .d ∧ (resolvePin n).bit.val = n.toNat) ∧
      (8 ≤ n.toNat → n.toNat ≤ 13 → (resolvePin n).port = .b ∧ (resolvePin n).bit.val = n.toNat - 8) ∧
      (14 ≤ n.toNat → n.toNat ≤ 19 → (resolvePin n).port = .c ∧ (resolvePin n).bit.val = n.toNat - 14) ∧
      (20 ≤ n.toNat → resolvePin n = ⟨.d, 0⟩)

/-- R63: no logical pin number reaches bits 6 and 7 of ports B and C, and every other bit is reached. -/
def Obligations.ResolveReachesExactlyTheNamedBits : Prop :=
  ∀ pin, (∃ n, resolvePin n = pin) ↔ reachablePin pin = true

/-- R145: `set` writes one bit of the latch, keeps the other seven, and records the new byte; on an input pin it raises
PinNotOutput with no access and no time. -/
def Obligations.SetDrivesOneLatchBit : Prop :=
  ∀ pin level s, s.phase ≠ .faulted →
    (isOutput s pin = true →
      ∃ t, exec (.set pin level) s = .next t ∧
        (∀ b, bitOf (t.port pin.port) b = if b = pin.bit then level else bitOf (s.port pin.port) b) ∧
        (∀ a, a ≠ Config.portAddr pin.port → Memory.read t.mem a = Memory.read s.mem a) ∧
        t.trace = s.trace ++ [⟨t.now, .pinWrite pin.port (some (pin.bit, level)) (t.port pin.port) .block⟩] ∧
        s.now ≤ t.now ∧ t = { s with mem := t.mem, now := t.now, trace := t.trace, draws := t.draws }) ∧
    (isOutput s pin = false → exec (.set pin level) s = .next (raise (.pinNotOutput pin) s))

/-- R146: `set_direction` writes one bit of the direction register, keeps the other seven and PORT, and records the new
byte. -/
def Obligations.SetDirectionDrivesOneDirectionBit : Prop :=
  ∀ pin mode s, s.phase ≠ .faulted →
    ∃ t, exec (.setDirection pin mode) s = .next t ∧
      (∀ b, bitOf (t.ddr pin.port) b = if b = pin.bit then mode.bit else bitOf (s.ddr pin.port) b) ∧
      (∀ a, a ≠ Config.ddrAddr pin.port → Memory.read t.mem a = Memory.read s.mem a) ∧
      t.trace = s.trace ++ [⟨t.now, .dirWrite pin.port (some (pin.bit, mode)) (t.ddr pin.port) .block⟩] ∧
      s.now ≤ t.now ∧ t = { s with mem := t.mem, now := t.now, trace := t.trace, draws := t.draws }

/-- R147: `sample` draws a level, records it and gives it back; it writes no register. The level is a free value: the
statement holds for every one. -/
def Obligations.SampleRecordsADrawnLevel : Prop :=
  ∀ pin s, s.phase ≠ .faulted →
    ∃ t k, exec (.sample pin) s = .next t ∧
      t.trace = s.trace ++ [⟨t.now, .sample pin.port pin.bit (Config.drawLevel k)⟩] ∧
      t.returned = some (.level (Config.drawLevel k)) ∧ s.now ≤ t.now ∧
      t = { s with now := t.now, trace := t.trace, draws := t.draws, returned := t.returned }

/-- R150: a delay takes at least its figure and changes nothing but the time. -/
def Obligations.DelaysLastAtLeastTheirFigure : Prop :=
  ∀ n s, s.phase ≠ .faulted →
    (∃ t, exec (.delayUs n) s = .next t ∧ s.now + n * 1000 ≤ t.now ∧ t = { s with now := t.now, draws := t.draws }) ∧
    (∃ t, exec (.delayMs n) s = .next t ∧ s.now + n * 1000000 ≤ t.now ∧
      t = { s with now := t.now, draws := t.draws })

/-- R170: `pulse_enable` drives Enable low, high, low, over at least 102 us, or raises PinNotOutput. -/
def Obligations.PulseEnableStrobesOnce : Prop :=
  ∀ s h, s.phase ≠ .faulted → s.handle = some h →
    Performs .pulseEnable s [drive h.en false, drive h.en true, drive h.en false] 102000 (some h)

/-- R171: `write_nibble` drives D4 to D7 with bits 0 to 3 and then strobes Enable. -/
def Obligations.WriteNibblePresentsBitsThenStrobes : Prop :=
  ∀ v s h, s.phase ≠ .faulted → s.handle = some h →
    Performs (.writeNibble v) s
      [drive h.d4 (bitOf v 0), drive h.d5 (bitOf v 1), drive h.d6 (bitOf v 2), drive h.d7 (bitOf v 3),
        drive h.en false, drive h.en true, drive h.en false] 102000 (some h)

/-- R172, R101: `transfer_byte` drives RS once, then sends bits 7:4, then bits 3:0. -/
def Obligations.TransferByteSendsHighNibbleFirst : Prop :=
  ∀ v rs s h, s.phase ≠ .faulted → s.handle = some h →
    Performs (.transferByte v rs) s
      [drive h.rs rs,
        drive h.d4 (bitOf v 4), drive h.d5 (bitOf v 5), drive h.d6 (bitOf v 6), drive h.d7 (bitOf v 7),
        drive h.en false, drive h.en true, drive h.en false,
        drive h.d4 (bitOf v 0), drive h.d5 (bitOf v 1), drive h.d6 (bitOf v 2), drive h.d7 (bitOf v 3),
        drive h.en false, drive h.en true, drive h.en false] 204000 (some h)

/-- R173: `command` and `data` are transfers with RS low and RS high, and no wait is added: each ends in the very state in
which the transfer ends. -/
def Obligations.CommandAndDataAreTransfers : Prop :=
  ∀ v s h, s.phase ≠ .faulted → s.handle = some h →
    exec (.command v) s = exec (.transferByte v false) s ∧ exec (.data v) s = exec (.transferByte v true) s ∧
      Performs (.command v) s (transferWrites h v false) 204000 (some h) ∧
      Performs (.data v) s (transferWrites h v true) 204000 (some h)

/-- R174: the waits of one nibble and of one byte, between the events in order. A nibble's events are D4 to D7, E low, E
high, E low; a byte's are RS and two nibbles'. -/
def Obligations.TransfersKeepTheWaits : Prop :=
  ∀ v rs s h, s.phase ≠ .faulted → s.handle = some h → driven s h = true →
    (∃ t evs, exec (.writeNibble v) s = .next t ∧ t.trace = s.trace ++ evs ∧ evs.length = 7 ∧
      evs.map Event.kind = writesEvents s.mem (nibbleWrites h v) ∧
      (evs.map Event.time).Pairwise (· ≤ ·) ∧
      (let time := fun k => (evs.map Event.time).getD k 0;
        s.now ≤ time 0 ∧ time 3 + 1000 ≤ time 5 ∧ time 4 + 1000 ≤ time 5 ∧ time 5 + 1000 ≤ time 6 ∧
          time 6 + 100000 ≤ t.now ∧ s.now + 102000 ≤ t.now)) ∧
    (∃ t evs, exec (.transferByte v rs) s = .next t ∧ t.trace = s.trace ++ evs ∧ evs.length = 15 ∧
      evs.map Event.kind = writesEvents s.mem (transferWrites h v rs) ∧
      (evs.map Event.time).Pairwise (· ≤ ·) ∧
      (let time := fun k => (evs.map Event.time).getD k 0;
        s.now ≤ time 0 ∧ time 0 + 1000 ≤ time 6 ∧
          time 4 + 1000 ≤ time 6 ∧ time 5 + 1000 ≤ time 6 ∧ time 6 + 1000 ≤ time 7 ∧ time 7 + 100000 ≤ time 8 ∧
          time 11 + 1000 ≤ time 13 ∧ time 12 + 1000 ≤ time 13 ∧ time 13 + 1000 ≤ time 14 ∧ time 14 + 100000 ≤ t.now ∧
          s.now + 204000 ≤ t.now))

/-- R190, R193: `read_busy` with RS and Enable on no data Pin: its 21 events, its result from the eight drawn levels, and
the data Pins outputs again. The levels are free values. -/
def Obligations.ReadBusyPollsTwoNibbles : Prop :=
  ∀ s h, s.phase ≠ .faulted → s.handle = some h → isOutput s h.rs = true → isOutput s h.en = true →
    h.rs ∉ h.dataPins → h.en ∉ h.dataPins →
    ∃ t evs a7 a6 a5 a4 b7 b6 b5 b4, exec .readBusy s = .next t ∧
      t.returned = some (.byte (byteOfNibbles (nibbleOfLevels a7 a6 a5 a4) (nibbleOfLevels b7 b6 b5 b4))) ∧
      (let w1 := h.dataPins.map (direct · .input) ++ [drive h.rs false, drive h.en true];
        let w2 := [drive h.en false, drive h.en true];
        let w3 := drive h.en false :: h.dataPins.map (direct · .output);
        let m1 := writesMem s.mem w1;
        let m2 := writesMem m1 w2;
        let read := fun l7 l6 l5 l4 => [EventKind.sample h.d7.port h.d7.bit l7, .sample h.d6.port h.d6.bit l6,
          .sample h.d5.port h.d5.bit l5, .sample h.d4.port h.d4.bit l4];
        t.trace = s.trace ++ evs ∧ evs.length = 21 ∧
          evs.map Event.kind = writesEvents s.mem w1 ++ read a7 a6 a5 a4 ++ writesEvents m1 w2 ++
            read b7 b6 b5 b4 ++ writesEvents m2 w3 ∧
          t.mem = writesMem m2 w3) ∧
      (∀ pin ∈ h.dataPins, isOutput t pin = true) ∧ s.now + 3000 ≤ t.now ∧
      t.handle = s.handle ∧ t.phase = s.phase ∧ t.fault = s.fault ∧ t.pending = s.pending

/-- R190's faults (R145, R154): the poll makes the data Pins inputs and then drives RS and Enable; at the first of the
two that is an input, be it as an aliased data Pin, it ends with PinNotOutput. -/
def Obligations.ReadBusyStopsAtAnInput : Prop :=
  ∀ s h, s.phase ≠ .faulted → s.handle = some h →
    (h.rs ∈ h.dataPins ∨ isOutput s h.rs = false →
      ∃ t evs, exec .readBusy s = .next t ∧ t.fault = some (.pinNotOutput h.rs) ∧ t.phase = .faulted ∧
        t.trace = s.trace ++ evs ∧
        evs.map Event.kind = writesEvents s.mem (h.dataPins.map (direct · .input)) ∧
        t.mem = writesMem s.mem (h.dataPins.map (direct · .input))) ∧
    (h.rs ∉ h.dataPins → isOutput s h.rs = true → h.en ∈ h.dataPins ∨ isOutput s h.en = false →
      ∃ t evs, exec .readBusy s = .next t ∧ t.fault = some (.pinNotOutput h.en) ∧ t.phase = .faulted ∧
        t.trace = s.trace ++ evs ∧
        evs.map Event.kind = writesEvents s.mem (h.dataPins.map (direct · .input) ++ [drive h.rs false]) ∧
        t.mem = writesMem s.mem (h.dataPins.map (direct · .input) ++ [drive h.rs false]))

/-- R194: the two words a poll latches have RS low and no value on the data lines. -/
def Obligations.PollLatchesUndrivenData : Prop :=
  ∀ s h, s.phase ≠ .faulted → s.handle = some h → driven s h = true → CleanBus s h →
    ∃ t, exec .readBusy s = .next t ∧
      latchedBetween h s t = [⟨some false, none, none, none, none⟩, ⟨some false, none, none, none, none⟩]

/-- A primitive or bus word that reads the handle's Pins, with no handle, raises NoHandle: the spec gives it no rule, so
this is the model's choice (log 7). -/
def Obligations.PinsNeedAHandle : Prop :=
  ∀ i s, i.kind ≠ .hostOperation → (∀ n, i ≠ .resolve n) → (∀ p l, i ≠ .set p l) → (∀ p m, i ≠ .setDirection p m) →
    (∀ p, i ≠ .sample p) → (∀ n, i ≠ .delayUs n) → (∀ n, i ≠ .delayMs n) →
    s.phase ≠ .faulted → s.handle = none → exec i s = .next (raise (.noHandle i.opName) s)

/-- R100, R102: a bus word run by itself is the transfer of its byte with its RS bit. That it can be run by itself,
and needs nothing but the handle, is the model's choice (log 1). -/
def Obligations.BusWordsAreTransfers : Prop :=
  ∀ i w s h, i.busWord = some w → s.phase ≠ .faulted → s.handle = some h →
    Performs i s (transferWrites h (wordByte w) (wordRs w)) 204000 (some h)

/-- R176, R177: on a clean bus a transfer latches the high nibble and then the low nibble, which pair to its word, and
leaves the bus clean. -/
def Obligations.TransferLatchesItsTwoNibbles : Prop :=
  ∀ v rs s h, s.phase ≠ .faulted → s.handle = some h → driven s h = true → CleanBus s h →
    ∃ t, exec (.transferByte v rs) s = .next t ∧
      latchedBetween h s t = [nibbleLatch rs (v >>> 4), nibbleLatch rs v] ∧
      pairWords (latchedBetween h s t) = some [transferredWord rs v] ∧ CleanBus t h

/-! ### create and begin -/

/-- R201: `create` resolves the six Pins, leaves the five bytes unset, makes the Pins outputs in order, writes no PORT,
and moves to Constructed; with a handle it raises AlreadyCreated. -/
def Obligations.CreateBuildsTheHandle : Prop :=
  ∀ rs en d4 d5 d6 d7 s,
    (s.phase = .noHandle →
      ∃ t, exec (.create rs en d4 d5 d6 d7) s = .next t ∧ t.phase = .constructed ∧
        t.handle = some { rs := resolvePin rs, en := resolvePin en, d4 := resolvePin d4, d5 := resolvePin d5,
                          d6 := resolvePin d6, d7 := resolvePin d7, functionFlags := none, controlFlags := none,
                          entryFlags := none, lineCount := none, currentLine := none } ∧
        SendsOnly s t [direct (resolvePin rs) .output, direct (resolvePin en) .output, direct (resolvePin d4) .output,
          direct (resolvePin d5) .output, direct (resolvePin d6) .output, direct (resolvePin d7) .output] 0 ∧
        (∀ p, t.port p = s.port p) ∧
        (∀ n ∈ [rs, en, d4, d5, d6, d7], isOutput t (resolvePin n) = true)) ∧
    (s.phase ≠ .noHandle → s.phase ≠ .faulted →
      exec (.create rs en d4 d5 d6 d7) s = .next (raise (.alreadyCreated s.phase) s))

/-- R210, R220: `begin` on driven Pins makes the 90 register writes of its states in order, takes at least 82.224 ms, and
ends in Ready with the five bytes set. `columns` has no effect. -/
def Obligations.BeginReachesReady : Prop :=
  ∀ columns rows s h, s.phase = .constructed → s.handle = some h → driven s h = true →
    ∃ t, exec (.begin columns rows) s = .next t ∧ SendsOnly s t (beginWrites h rows) 82224000 ∧
      (beginWrites h rows).length = 90 ∧ t.phase = .ready ∧
      t.handle = some { h with functionFlags := some (if 2 ≤ rows.toNat then 0x08 else 0x00),
                               controlFlags := some 0x04, entryFlags := some 0x02, lineCount := some rows,
                               currentLine := some 0 }

/-- R210, R211, R212, R215, R216, R218, R217: the waits of `begin` between its events in order: the two level writes come
after the power-on wait; each nibble and each byte is followed by the wait of its last strobe and then its state's own. -/
def Obligations.BeginKeepsTheWaits : Prop :=
  ∀ columns rows s h, s.phase = .constructed → s.handle = some h → driven s h = true →
    ∃ t evs, exec (.begin columns rows) s = .next t ∧ t.trace = s.trace ++ evs ∧ evs.length = 90 ∧
      evs.map Event.kind = writesEvents s.mem (beginWrites h rows) ∧ (evs.map Event.time).Pairwise (· ≤ ·) ∧
      (let time := fun k => (evs.map Event.time).getD k 0;
        s.now + 50000000 ≤ time 0 ∧ time 8 + 5100000 ≤ time 9 ∧ time 15 + 5100000 ≤ time 16 ∧
          time 22 + 1100000 ≤ time 23 ∧ time 29 + 100000 ≤ time 30 ∧ time 44 + 5100000 ≤ time 45 ∧
          time 59 + 5100000 ≤ time 60 ∧ time 74 + 5100000 ≤ time 75 ∧ time 89 + 5100000 ≤ t.now)

/-- R210, R145: `begin` with some Pin of its handle an input, as only a primitive run by itself can leave it (log 1), makes
its register writes up to the first one to such a Pin, and there raises PinNotOutput. -/
def Obligations.BeginStopsAtAnInput : Prop :=
  ∀ columns rows s h, s.phase = .constructed → s.handle = some h → driven s h = false →
    ∃ h', StopsAtInput (.begin columns rows) s (beginWrites h rows) h'

/-- R210, R302: `begin` before `create` raises NoHandle, and in any later phase but Constructed BeginTwice; neither makes
an access or takes time (R304). -/
def Obligations.BeginOutOfOrderFaults : Prop :=
  ∀ columns rows s,
    (s.phase = .noHandle → exec (.begin columns rows) s = .next (raise (.noHandle .begin) s)) ∧
    (s.phase ≠ .noHandle → s.phase ≠ .constructed → s.phase ≠ .faulted →
      exec (.begin columns rows) s = .next (raise (.beginTwice s.phase) s))

/-- R214: the lines after `begin` with six distinct Pins, and what it leaves: DDR and every bit of no handle Pin. -/
def Obligations.BeginLeavesTheLinesAsSpecified : Prop :=
  ∀ columns rows s h, s.phase = .constructed → s.handle = some h → driven s h = true → h.pins.Nodup →
    ∃ t, exec (.begin columns rows) s = .next t ∧
      latchOf h t.mem = { rs := some false, d7 := some false, d6 := some true, d5 := some true, d4 := some false } ∧
      lineLevel t.mem h.en = some false ∧ (∀ p, t.ddr p = s.ddr p) ∧
      (∀ pin, pin ∉ h.pins → bitOf (t.port pin.port) pin.bit = bitOf (s.port pin.port) pin.bit)

/-- R221: on a clean bus `begin` latches exactly the documented sequence: the raw nibbles 3, 3, 3, 2, then the four bytes,
high nibble first, all with RS low. -/
def Obligations.BeginLatchesTheInitSequence : Prop :=
  ∀ columns rows s h, s.phase = .constructed → s.handle = some h → driven s h = true → CleanBus s h →
    ∃ t, exec (.begin columns rows) s = .next t ∧
      latchedBetween h s t =
        [0x03, 0x03, 0x03, 0x02].map (nibbleLatch false) ++
          ([0x20 ||| (if 2 ≤ rows.toNat then 0x08 else 0x00), 0x0C, 0x01, 0x06] : List Byte).flatMap fun (v : Byte) =>
            [nibbleLatch false (v >>> 4), nibbleLatch false v]

/-! ### Commands -/

/-- R230: every command checks the phase before anything else. -/
def Obligations.CommandsCheckThePhase : Prop :=
  ∀ i s, isCommand i = true → i.wellFormed = true →
    (s.phase = .noHandle → exec i s = .next (raise (.noHandle i.opName) s)) ∧
      (s.phase = .constructed → exec i s = .next (raise (.notReady i.opName) s)) ∧
      (∀ t, s.phase = .ready → exec i s = .next t → t.phase = .ready ∨ t.phase = .faulted)

/-- R231, R232: `clear` sends 0x01; its settle wait of 5 ms comes after the transfer and the wait of its last strobe. -/
def Obligations.ClearSendsAndSettles : Prop :=
  ∀ s, PhaseChecked .clear .clear s ∧
    ∀ h, s.phase = .ready → s.handle = some h →
      Performs .clear s (transferWrites h 0x01 false) 5204000 (some h) ∧
        (driven s h = true → ∃ t evs, exec .clear s = .next t ∧ t.trace = s.trace ++ evs ∧
          ∀ e ∈ evs, e.time + 5100000 ≤ t.now)

/-- R233, R232: `home` sends 0x02; its settle wait of 5 ms comes after the transfer and the wait of its last strobe. -/
def Obligations.HomeSendsAndSettles : Prop :=
  ∀ s, PhaseChecked .home .home s ∧
    ∀ h, s.phase = .ready → s.handle = some h →
      Performs .home s (transferWrites h 0x02 false) 5204000 (some h) ∧
        (driven s h = true → ∃ t evs, exec .home s = .next t ∧ t.trace = s.trace ++ evs ∧
          ∀ e ∈ evs, e.time + 5100000 ≤ t.now)

/-- R231's idempotence: two clears in a row latch the same words and leave the handle as it was. -/
def Obligations.ClearTwiceLatchesTheSame : Prop :=
  ∀ s h, IsReady s h → CleanBus s h →
    ∃ t u, exec .clear s = .next t ∧ exec .clear t = .next u ∧ u.handle = s.handle ∧
      latchedBetween h s t = [nibbleLatch false 0x00, nibbleLatch false 0x01] ∧
      latchedBetween h t u = latchedBetween h s t

/-- R240: `set_cursor` clamps the row, and then sends the address of the row in the table or, with the clamped row above
3, raises RowOffsetOutOfRange before any transfer. -/
def Obligations.SetCursorSendsTheAddress : Prop :=
  ∀ col row s, PhaseChecked (.setCursor col row) .setCursor s ∧
    ∀ h n, s.phase = .ready → s.handle = some h → h.lineCount = some n →
      let r := if n.toNat ≤ row.toNat then n - 1 else row
      let sends := fun (offset : Nat) => Performs (.setCursor col row) s
        (transferWrites h (0x80 ||| BitVec.ofNat 8 ((col.toNat + offset) % 128)) false) 204000 (some h)
      (r = 0 → sends 0x00) ∧ (r = 1 → sends 0x40) ∧ (r = 2 → sends 0x14) ∧ (r = 3 → sends 0x54) ∧
        (3 < r.toNat → exec (.setCursor col row) s = .next (raise (.rowOffsetOutOfRange r) s))

/-- R240, R241: in a Ready state that meets the invariant `set_cursor` raises RowOffsetOutOfRange exactly when the line
count is 0, or is 5 or more and the row 4 or more. -/
def Obligations.SetCursorFaultsExactlyOutsideTheTable : Prop :=
  ∀ col row s h n, s.Inv → s.phase = .ready → s.handle = some h → h.lineCount = some n →
    ((∃ t r, exec (.setCursor col row) s = .next t ∧ t.fault = some (.rowOffsetOutOfRange r)) ↔
      (n.toNat = 0 ∨ (5 ≤ n.toNat ∧ 4 ≤ row.toNat)))

/-- R242: `write` sends its character unchanged as a data byte. -/
def Obligations.WriteSendsTheCharacter : Prop :=
  ∀ c s, PhaseChecked (.write c) .write s ∧
    ∀ h, s.phase = .ready → s.handle = some h → Performs (.write c) s (transferWrites h c true) 204000 (some h)

/-- R244: `print` sends each byte before the first 0x00 as a data byte, in order, and ignores the rest. -/
def Obligations.PrintSendsUpToTheTerminator : Prop :=
  ∀ shown rest s, (0x00 : Byte) ∉ shown →
    PhaseChecked (.print (shown ++ 0x00 :: rest)) .print s ∧
    ∀ h, s.phase = .ready → s.handle = some h →
      Performs (.print (shown ++ 0x00 :: rest)) s (shown.flatMap fun c => transferWrites h c true)
        (204000 * shown.length) (some h)

/-- R252: `createChar` sends the CGRAM address of the slot masked to three bits, then the eight rows unmasked. -/
def Obligations.CreateCharSendsNineBytes : Prop :=
  ∀ slot rows s, rows.length = 8 →
    PhaseChecked (.createChar slot rows) .createChar s ∧
    ∀ h, s.phase = .ready → s.handle = some h →
      Performs (.createChar slot rows) s
        (transferWrites h (0x40 ||| BitVec.ofNat 8 (slot.toNat % 8 * 8)) false ++
          rows.flatMap fun v => transferWrites h v true) 1836000 (some h)

/-- R245 to R251: each display-control operation sets or clears its bit of `H.control_flags` and sends
`0x08 | H.control_flags`. -/
def Obligations.DisplayControlUpdatesAndSends : Prop :=
  ∀ i op update, (i, op, update) ∈ ([
      (.display, .display, fun f => f ||| 0x04), (.noDisplay, .noDisplay, fun f => f &&& 0xFB),
      (.cursor, .cursor, fun f => f ||| 0x02), (.noCursor, .noCursor, fun f => f &&& 0xFD),
      (.blink, .blink, fun f => f ||| 0x01), (.noBlink, .noBlink, fun f => f &&& 0xFE)] :
        List (Instr × OpName × (Byte → Byte))) →
    ∀ s, PhaseChecked i op s ∧
      ∀ h f, s.phase = .ready → s.handle = some h → h.controlFlags = some f →
        Performs i s (transferWrites h (0x08 ||| update f) false) 204000
          (some { h with controlFlags := some (update f) })

/-- R253: `cursor` then `noCursor` sends two bytes that differ in bit 1 only, and restores the flags exactly when the
cursor bit was clear. -/
def Obligations.CursorThenNoCursor : Prop :=
  ∀ s h f, IsReady s h → h.controlFlags = some f →
    ∃ t u, exec .cursor s = .next t ∧ exec .noCursor t = .next u ∧
      SendsOnly s t (transferWrites h (0x08 ||| f ||| 0x02) false) 204000 ∧
      SendsOnly t u (transferWrites h (0x08 ||| (f &&& 0xFD)) false) 204000 ∧
      (0x08 ||| f ||| 0x02) ^^^ (0x08 ||| (f &&& 0xFD)) = 0x02 ∧
      u.handle = some { h with controlFlags := some (f &&& 0xFD) } ∧
      (u.handle = s.handle ↔ bitOf f 1 = false)

/-- R255, R256: the two scroll operations send 0x18 and 0x1C. -/
def Obligations.ScrollSendsTheShift : Prop :=
  ∀ s, PhaseChecked .scrollDisplayLeft .scrollDisplayLeft s ∧ PhaseChecked .scrollDisplayRight .scrollDisplayRight s ∧
    ∀ h, s.phase = .ready → s.handle = some h →
      Performs .scrollDisplayLeft s (transferWrites h 0x18 false) 204000 (some h) ∧
        Performs .scrollDisplayRight s (transferWrites h 0x1C false) 204000 (some h)

/-- R258, R259: the two autoscroll operations set and clear bit 0 of `H.entry_flags` and send `0x04 | H.entry_flags`. -/
def Obligations.AutoscrollUpdatesAndSends : Prop :=
  ∀ s, PhaseChecked .autoscroll .autoscroll s ∧ PhaseChecked .noAutoscroll .noAutoscroll s ∧
    ∀ h f, s.phase = .ready → s.handle = some h → h.entryFlags = some f →
      Performs .autoscroll s (transferWrites h (0x04 ||| (f ||| 0x01)) false) 204000
          (some { h with entryFlags := some (f ||| 0x01) }) ∧
        Performs .noAutoscroll s (transferWrites h (0x04 ||| (f &&& 0xFE)) false) 204000
          (some { h with entryFlags := some (f &&& 0xFE) })

/-- R12, R303: a command that reads a byte of the handle that is still `unset` raises UnsetRead, before any access. In a
run no handle of a Ready state has such a byte (R303). -/
def Obligations.UnsetBytesRaiseUnsetRead : Prop :=
  ∀ s h, s.phase = .ready → s.handle = some h →
    (h.lineCount = none → ∀ col row,
      exec (.setCursor col row) s = .next (raise (.unsetRead .lineCount) s)) ∧
    (h.controlFlags = none → ∀ i ∈ [Instr.display, .noDisplay, .cursor, .noCursor, .blink, .noBlink],
      exec i s = .next (raise (.unsetRead .controlFlags) s)) ∧
    (h.entryFlags = none → ∀ i ∈ [Instr.autoscroll, .noAutoscroll],
      exec i s = .next (raise (.unsetRead .entryFlags) s))

/-! ### Encodings -/

/-- Every well-formed instruction is read back from the bytes that deliver it (the form is the model's, log 2). -/
def Obligations.DecodeInvertsEncode : Prop :=
  ∀ i : Instr, i.wellFormed = true → decode (encode i) = .ok i

/-- R102: a 9-bit word is the word of at most one bus-word row, and the decoder finds that row with its fields. -/
def Obligations.BusWordsHaveOneMeaning : Prop :=
  ∀ w i, decodeBusWord w = some i ↔ i.busWord = some w

/-- R102, R103, R105: words written out from the spec's encodings decode to the rows they stand for. -/
def Obligations.SpecWordsDecode : Prop :=
  decodeTableWord 9 0b000000001 = some .clear ∧ decodeTableWord 9 0b000011100 = some .scrollDisplayRight ∧
    decodeTableWord 5 0b00011 = some (.begin 0 0) ∧
    decodeTableWord 9 0b000001111 = some (.b4DisplayControl true true true) ∧
    decodeTableWord 9 0b000101000 = some (.b6FunctionSet false true false) ∧
    decodeTableWord 9 0b001010000 = some (.b7SetCgramAddress 0b010000) ∧
    decodeTableWord 9 0b011000011 = some (.b8SetDdramAddress 0b1000011) ∧
    decodeTableWord 9 0b101000001 = some (.b9WriteData 0x41) ∧ decodeTableWord 9 0b000000000 = none

/-- R119: the text of a host operation is read back as that operation, with every number in decimal or in hexadecimal. -/
def Obligations.TextIsReadBack : Prop :=
  ∀ form i text, i.wellFormed = true → renderCall form i = some text → parseCall text = .ok i

/-- R177, R120, R117, R102, R103: on a clean bus a command latches exactly its words, and each is of a listed pattern with
the block's field values. -/
def Obligations.CommandsEmitOnlyListedWords : Prop :=
  ∀ i s t h, isCommand i = true → IsReady s h → CleanBus s h → h.configured = true → exec i s = .next t →
    t.phase = .ready →
    pairWords (latchedBetween h s t) = some (commandWords i h) ∧ (commandWords i h).all emittedWord = true

/-! ### Frames -/

/-- R43, R44, R70: no instruction and no step takes time back or edits an event; new events are in order and lie
within the time taken. -/
def Obligations.TimeAndTraceOnlyGrow : Prop :=
  (∀ i s t, exec i s = .next t →
    s.now ≤ t.now ∧ ∃ evs, t.trace = s.trace ++ evs ∧ (evs.map Event.time).Pairwise (· ≤ ·) ∧
      ∀ e ∈ evs, s.now ≤ e.time ∧ e.time ≤ t.now) ∧
    (∀ s t, step s = .next t →
      s.now ≤ t.now ∧ ∃ evs, t.trace = s.trace ++ evs ∧ (evs.map Event.time).Pairwise (· ≤ ·) ∧
        ∀ e ∈ evs, s.now ≤ e.time ∧ e.time ≤ t.now)

/-- R38, R39, R63, R145, R146: an instruction changes no bit of PORT or DDR but those of the Pins it drives or directs,
and no other address reads otherwise. -/
def Obligations.OnlyOwnPinsChange : Prop :=
  ∀ i s t, exec i s = .next t →
    (∀ pin, pin ∉ mayDrive i s → bitOf (t.port pin.port) pin.bit = bitOf (s.port pin.port) pin.bit) ∧
    (∀ pin, pin ∉ mayDirect i s → isOutput t pin = isOutput s pin) ∧
    (∀ a, a ∉ registerAddrs → Memory.read t.mem a = Memory.read s.mem a)

/-- R44, R72(a), R195: an instruction records block writes of the Pins it may drive or direct and reads of those it may
sample, and no other event; a host operation samples none, so none polls. -/
def Obligations.EventsAreOfOwnPins : Prop :=
  (∀ i s t, exec i s = .next t →
    ∃ evs, t.trace = s.trace ++ evs ∧ (evs.map Event.kind).all (ownEvent i s) = true) ∧
    ∀ i s, i.kind = .hostOperation → maySample i s = []

/-- R31, R37, R301: an instruction changes no part of the handle but the bytes R31 lets it write, no phase but as R37
says, and no fault without moving to Faulted; it leaves the inputs alone, and what was given back unless it gives
back. -/
def Obligations.HandlePhaseAndFaultFrame : Prop :=
  ∀ i s t, exec i s = .next t →
    (i.opName ≠ .create → t.handle.map (untouchedPart i) = s.handle.map (untouchedPart i)) ∧
    (i.opName ≠ .create → i.opName ≠ .begin → t.phase = s.phase ∨ t.phase = .faulted) ∧
    (i.opName = .create → t.phase = .constructed ∨ t.phase = .faulted) ∧
    (i.opName = .begin → t.phase = .ready ∨ t.phase = .faulted) ∧
    (t.phase ≠ .faulted → t.fault = s.fault) ∧ t.pending = s.pending ∧
    (givesBack i = false → t.returned = s.returned)

/-! ### The machine -/

/-- The invariant of the machine is kept by every step: the memory's canonical form, the order of the trace, the fault with
its phase, the handle with its phase and legal flag bytes (R33 to R37, R43, R44, R62, R235, R301). -/
def Obligations.EveryStepKeepsTheInvariant : Prop :=
  ∀ s t, s.Inv → step s = .next t → t.Inv

/-- R302, R303: while the host issues only host operations, the handle's Pins stay outputs, and no step raises
PinNotOutput or UnsetRead. -/
def Obligations.HostPlayKeepsPinsDriven : Prop :=
  ∀ s t, s.Inv → s.pinsDriven = true → s.hostPlays = true → step s = .next t →
    t.pinsDriven = true ∧ (∀ pin, t.fault ≠ some (.pinNotOutput pin)) ∧ (∀ f, t.fault ≠ some (.unsetRead f))

/-- R44: the registers are at every step what the events recorded since launch make them. -/
def Obligations.RegistersFollowTheTrace : Prop :=
  ∀ launch s t, s.mem = replay launch s.trace → step s = .next t → t.mem = replay launch t.trace

/-- R32 after `begin`: on a clean bus on which nothing was latched before, `begin` ends with the flag bytes in sync with
the bytes sent. -/
def Obligations.BeginPutsFlagsInSync : Prop :=
  ∀ launch columns rows s h, s.phase = .constructed → s.handle = some h → driven s h = true → CleanBus s h →
    s.mem = replay launch s.trace → latched h launch (eventsFrom 0 s) = [] →
    ∃ t h', exec (.begin columns rows) s = .next t ∧ InSync launch t h'

/-- R32: in Ready, whatever the host plays, the flag bytes stay in sync with the last bytes sent, unless a fault ends the
run. -/
def Obligations.FlagsStayInSyncWithTheBus : Prop :=
  ∀ launch s h t, InSync launch s h → s.hostPlays = true → step s = .next t →
    t.phase = .faulted ∨ ∃ h', InSync launch t h'

/-- R110, R111, R115: what the host issues, by bytes or by text, is run only if it is a host operation; its call of a
primitive or a bus word is refused, and its call of any host operation is not. (The byte form is the model's, log 2.) -/
def Obligations.HostIssuesOnlyHostOperations : Prop :=
  (∀ e i, (∀ bytes, e ≠ .bench bytes) → delivered e = some (.ok i) → i.kind = .hostOperation) ∧
    (∀ bytes i s rest, decode bytes = .ok i → i.kind ≠ .hostOperation → s.phase ≠ .faulted →
      s.pending = .call bytes :: rest → step s = .refused (.undecodable .notHostOperation)) ∧
    (∀ i s rest, i.kind = .hostOperation → i.wellFormed = true → s.phase ≠ .faulted →
      s.pending = .call (encode i) :: rest → step s = exec i (takeInput rest s))
end

