-- ==== Sys2Proof/Laws/Memory.lean ====
section
/-! SUPPORT. Memory laws: a read after a write, and that every memory operation keeps the canonical form and the map. -/

namespace Sys2Proof.Machine

@[simp] theorem Memory.read_nil (a : Nat) : Memory.read [] a = Memory.unlisted a := rfl

@[simp] theorem Memory.read_cons (k : Nat) (v : Byte) (rest : Memory) (a : Nat) :
    Memory.read ((k, v) :: rest) a = if a = k then v else Memory.read rest a := rfl

theorem Memory.read_erase_same (m : Memory) (a : Nat) :
    Memory.read (Memory.erase m a) a = Memory.unlisted a := by
  induction m with
  | nil => rfl
  | cons c rest ih =>
    obtain ⟨k, v⟩ := c
    by_cases h : a = k <;> simp_all [Memory.erase]

theorem Memory.read_erase_ne (m : Memory) {a b : Nat} (hne : b ≠ a) :
    Memory.read (Memory.erase m a) b = Memory.read m b := by
  induction m with
  | nil => rfl
  | cons c rest ih =>
    obtain ⟨k, v⟩ := c
    by_cases h : a = k
    · subst h; simp [Memory.erase, ih, hne]
    · simp [Memory.erase, h, ih]

/-- An insertion never hides another address, and shows the one inserted when the list has no entry for it. -/
theorem Memory.read_insert_ne (m : Memory) {a b : Nat} (v : Byte) (hne : b ≠ a) :
    Memory.read (Memory.insert m a v) b = Memory.read m b := by
  induction m with
  | nil => simp [Memory.insert, hne]
  | cons c rest ih =>
    obtain ⟨k, w⟩ := c
    simp only [Memory.insert]
    split <;> simp [hne, ih]

theorem Memory.read_insert_erase (m : Memory) (a : Nat) (v : Byte) :
    Memory.read (Memory.insert (Memory.erase m a) a v) a = v := by
  induction m with
  | nil => simp [Memory.erase, Memory.insert]
  | cons c rest ih =>
    obtain ⟨k, w⟩ := c
    by_cases h : a = k
    · simpa [Memory.erase, h] using h ▸ ih
    · simp only [Memory.erase, h, if_false, Memory.insert]
      split <;> simp [h, ih]

/-- A read gives what was last written to its address. -/
@[simp] theorem Memory.read_write_same (m : Memory) (a : Nat) (v : Byte) :
    Memory.read (Memory.write m a v) a = v := by
  unfold Memory.write
  split
  · next h => rw [Memory.read_erase_same, h]
  · exact Memory.read_insert_erase m a v

/-- A write leaves every other address alone. -/
theorem Memory.read_write_ne (m : Memory) {a b : Nat} (v : Byte) (hne : b ≠ a) :
    Memory.read (Memory.write m a v) b = Memory.read m b := by
  unfold Memory.write
  split
  · exact Memory.read_erase_ne m hne
  · rw [Memory.read_insert_ne _ v hne, Memory.read_erase_ne m hne]

theorem Memory.above_mono {m : Memory} {a b : Nat} (hab : b ≤ a) (h : Memory.above m a = true) :
    Memory.above m b = true := by
  simp only [Memory.above, List.all_eq_true, decide_eq_true_eq] at *
  intro c hc
  have := h c hc
  omega

theorem Memory.above_erase {m : Memory} {a b : Nat} (h : Memory.above m b = true) :
    Memory.above (Memory.erase m a) b = true := by
  induction m with
  | nil => rfl
  | cons c rest ih =>
    obtain ⟨k, v⟩ := c
    simp only [Memory.above, List.all_cons, Bool.and_eq_true] at h
    simp only [Memory.erase]
    split
    · exact ih h.2
    · simp only [Memory.above, List.all_cons, Bool.and_eq_true]
      exact ⟨h.1, ih h.2⟩

theorem Memory.above_insert {m : Memory} {a b : Nat} {v : Byte} (hb : b < a) (h : Memory.above m b = true) :
    Memory.above (Memory.insert m a v) b = true := by
  induction m with
  | nil => simp [Memory.above, Memory.insert, hb]
  | cons c rest ih =>
    obtain ⟨k, w⟩ := c
    simp only [Memory.above, List.all_cons, Bool.and_eq_true, decide_eq_true_eq] at h
    simp only [Memory.insert]
    split <;> simp only [Memory.above, List.all_cons, Bool.and_eq_true, decide_eq_true_eq]
    · exact ⟨hb, h.1, h.2⟩
    · exact ⟨h.1, ih h.2⟩

theorem Memory.wf_erase {m : Memory} (a : Nat) (h : Memory.wf m = true) : Memory.wf (Memory.erase m a) = true := by
  induction m with
  | nil => rfl
  | cons c rest ih =>
    obtain ⟨k, v⟩ := c
    simp only [Memory.wf, Bool.and_eq_true] at h
    simp only [Memory.erase]
    split
    · exact ih h.2
    · simp only [Memory.wf, Bool.and_eq_true]
      exact ⟨⟨h.1.1, Memory.above_erase h.1.2⟩, ih h.2⟩

theorem Memory.ne_of_mem_erase {m : Memory} {a : Nat} {c : Host.Cell} (h : c ∈ Memory.erase m a) : c.1 ≠ a := by
  induction m with
  | nil => cases h
  | cons d rest ih =>
    obtain ⟨k, v⟩ := d
    simp only [Memory.erase] at h
    split at h
    · exact ih h
    · next hk =>
      cases h with
      | head => exact fun e => hk e.symm
      | tail _ h => exact ih h

theorem Memory.wf_insert {m : Memory} {a : Nat} {v : Byte} (hv : v ≠ Memory.unlisted a)
    (hm : ∀ c ∈ m, c.1 ≠ a) (h : Memory.wf m = true) : Memory.wf (Memory.insert m a v) = true := by
  induction m with
  | nil => simp [Memory.insert, Memory.wf, Memory.above, hv]
  | cons c rest ih =>
    obtain ⟨k, w⟩ := c
    have hka : k ≠ a := hm (k, w) (by simp)
    have hw := h
    simp only [Memory.wf, Bool.and_eq_true] at h
    simp only [Memory.insert]
    split
    · next hlt =>
      simp only [Memory.wf, Bool.and_eq_true, decide_eq_true_eq]
      refine ⟨⟨hv, ?_⟩, by simpa [Memory.wf] using hw⟩
      have := Memory.above_mono (Nat.le_of_lt hlt) h.1.2
      simp only [Memory.above, List.all_cons, Bool.and_eq_true, decide_eq_true_eq] at *
      exact ⟨hlt, this⟩
    · next hlt =>
      simp only [Memory.wf, Bool.and_eq_true]
      exact ⟨⟨h.1.1, Memory.above_insert (by omega) h.1.2⟩, ih (fun c hc => hm c (by simp [hc])) h.2⟩

/-- A write keeps the canonical form. -/
theorem Memory.wf_write {m : Memory} (a : Nat) (v : Byte) (h : Memory.wf m = true) :
    Memory.wf (Memory.write m a v) = true := by
  unfold Memory.write
  split
  · exact Memory.wf_erase a h
  · next hv => exact Memory.wf_insert hv (fun c hc => Memory.ne_of_mem_erase hc) (Memory.wf_erase a h)

theorem Memory.mem_of_mem_erase {m : Memory} {a : Nat} {c : Host.Cell} (h : c ∈ Memory.erase m a) : c ∈ m := by
  induction m with
  | nil => exact h
  | cons d rest ih =>
    obtain ⟨k, v⟩ := d
    simp only [Memory.erase] at h
    split at h
    · exact List.mem_cons_of_mem _ (ih h)
    · cases h with
      | head => simp
      | tail _ h => exact List.mem_cons_of_mem _ (ih h)

theorem Memory.mem_insert {m : Memory} {a : Nat} {v : Byte} {c : Host.Cell} (h : c ∈ Memory.insert m a v) :
    c = (a, v) ∨ c ∈ m := by
  induction m with
  | nil => simpa [Memory.insert] using h
  | cons d rest ih =>
    obtain ⟨k, w⟩ := d
    simp only [Memory.insert] at h
    split at h
    · simpa using h
    · cases h with
      | head => simp
      | tail _ h => rcases ih h with h | h <;> simp [h]

/-- A write to a register that holds state keeps the memory to such registers. -/
theorem Memory.mapped_write {m : Memory} {a : Nat} (v : Byte) (ha : registerAddrs.contains a = true)
    (h : Memory.mapped m = true) : Memory.mapped (Memory.write m a v) = true := by
  simp only [Memory.mapped, List.all_eq_true] at *
  intro c hc
  unfold Memory.write at hc
  split at hc
  · exact h c (Memory.mem_of_mem_erase hc)
  · rcases Memory.mem_insert hc with rfl | hc
    · exact ha
    · exact h c (Memory.mem_of_mem_erase hc)

theorem regAddr_mem (reg : RegKind) (p : Port) : registerAddrs.contains (regAddr reg p) = true := by
  cases reg <;> cases p <;> decide

theorem reset_memory_wf : Memory.wf State.reset.mem = true ∧ Memory.mapped State.reset.mem = true := by decide

/-- Two registers at one address are the same register. -/
theorem regAddr_inj {r r' : RegKind} {p p' : Port} : regAddr r p = regAddr r' p' ↔ r = r' ∧ p = p' := by
  revert r r' p p'; intro r r' p p'
  cases r <;> cases r' <;> cases p <;> cases p' <;> decide

end Sys2Proof.Machine
end

