-- ==== Sys2Proof/Laws/State.lean ====
section
/-! SUPPORT. What each update of State does to each field, one lemma a field, so that no later proof unfolds a record
update. -/

namespace Sys2Proof.Machine

section
variable (n : Nat) (k : EventKind) (a : Nat) (v : Byte) (r : FaultRecord) (g : Returned) (rest : List HostEvent)
  (s : State)

@[simp] theorem advance_mem : (advance n s).mem = s.mem := rfl
@[simp] theorem advance_handle : (advance n s).handle = s.handle := rfl
@[simp] theorem advance_phase : (advance n s).phase = s.phase := rfl
@[simp] theorem advance_now : (advance n s).now = s.now + (n + Config.drawTime s.draws) := rfl
@[simp] theorem advance_trace : (advance n s).trace = s.trace := rfl
@[simp] theorem advance_fault : (advance n s).fault = s.fault := rfl
@[simp] theorem advance_pending : (advance n s).pending = s.pending := rfl
@[simp] theorem advance_draws : (advance n s).draws = s.draws + 1 := rfl
@[simp] theorem advance_returned : (advance n s).returned = s.returned := rfl

@[simp] theorem emit_mem : (emit k s).mem = s.mem := rfl
@[simp] theorem emit_handle : (emit k s).handle = s.handle := rfl
@[simp] theorem emit_phase : (emit k s).phase = s.phase := rfl
@[simp] theorem emit_now : (emit k s).now = s.now := rfl
@[simp] theorem emit_trace : (emit k s).trace = s.trace ++ [⟨s.now, k⟩] := rfl
@[simp] theorem emit_fault : (emit k s).fault = s.fault := rfl
@[simp] theorem emit_pending : (emit k s).pending = s.pending := rfl
@[simp] theorem emit_draws : (emit k s).draws = s.draws := rfl
@[simp] theorem emit_returned : (emit k s).returned = s.returned := rfl

@[simp] theorem memRead_fst : (memRead a s).1 = Memory.read s.mem a := rfl
@[simp] theorem memRead_snd : (memRead a s).2 = advance 0 s := rfl

@[simp] theorem memWrite_mem : (memWrite a v s).mem = Memory.write s.mem a v := rfl
@[simp] theorem memWrite_handle : (memWrite a v s).handle = s.handle := rfl
@[simp] theorem memWrite_phase : (memWrite a v s).phase = s.phase := rfl
@[simp] theorem memWrite_now : (memWrite a v s).now = s.now + (0 + Config.drawTime s.draws) := rfl
@[simp] theorem memWrite_trace : (memWrite a v s).trace = s.trace := rfl
@[simp] theorem memWrite_fault : (memWrite a v s).fault = s.fault := rfl
@[simp] theorem memWrite_pending : (memWrite a v s).pending = s.pending := rfl
@[simp] theorem memWrite_draws : (memWrite a v s).draws = s.draws + 1 := rfl
@[simp] theorem memWrite_returned : (memWrite a v s).returned = s.returned := rfl

@[simp] theorem raise_mem : (raise r s).mem = s.mem := rfl
@[simp] theorem raise_handle : (raise r s).handle = s.handle := rfl
@[simp] theorem raise_phase : (raise r s).phase = .faulted := rfl
@[simp] theorem raise_now : (raise r s).now = s.now := rfl
@[simp] theorem raise_trace : (raise r s).trace = s.trace := rfl
@[simp] theorem raise_fault : (raise r s).fault = some r := rfl
@[simp] theorem raise_pending : (raise r s).pending = s.pending := rfl
@[simp] theorem raise_draws : (raise r s).draws = s.draws := rfl
@[simp] theorem raise_returned : (raise r s).returned = s.returned := rfl

@[simp] theorem giveBack_mem : (giveBack g s).mem = s.mem := rfl
@[simp] theorem giveBack_handle : (giveBack g s).handle = s.handle := rfl
@[simp] theorem giveBack_phase : (giveBack g s).phase = s.phase := rfl
@[simp] theorem giveBack_now : (giveBack g s).now = s.now := rfl
@[simp] theorem giveBack_trace : (giveBack g s).trace = s.trace := rfl
@[simp] theorem giveBack_fault : (giveBack g s).fault = s.fault := rfl
@[simp] theorem giveBack_pending : (giveBack g s).pending = s.pending := rfl
@[simp] theorem giveBack_draws : (giveBack g s).draws = s.draws := rfl
@[simp] theorem giveBack_returned : (giveBack g s).returned = some g := rfl

@[simp] theorem takeInput_mem : (takeInput rest s).mem = s.mem := rfl
@[simp] theorem takeInput_handle : (takeInput rest s).handle = s.handle := rfl
@[simp] theorem takeInput_phase : (takeInput rest s).phase = s.phase := rfl
@[simp] theorem takeInput_now : (takeInput rest s).now = s.now + (0 + Config.drawTime s.draws) := rfl
@[simp] theorem takeInput_trace : (takeInput rest s).trace = s.trace := rfl
@[simp] theorem takeInput_fault : (takeInput rest s).fault = s.fault := rfl
@[simp] theorem takeInput_pending : (takeInput rest s).pending = rest := rfl
@[simp] theorem takeInput_returned : (takeInput rest s).returned = s.returned := rfl

end

@[simp] theorem Flow.state_go (s : State) : (Flow.go s).state = s := rfl
@[simp] theorem Flow.state_halted (s : State) : (Flow.halted s).state = s := rfl
@[simp] theorem Flow.go_andThen (s : State) (k : State → Flow) : (Flow.go s).andThen k = k s := rfl
@[simp] theorem Flow.halted_andThen (s : State) (k : State → Flow) : (Flow.halted s).andThen k = .halted s := rfl
@[simp] theorem runSteps_nil (s : State) : runSteps [] s = .go s := rfl
@[simp] theorem runSteps_cons (k : State → Flow) (rest : List (State → Flow)) (s : State) :
    runSteps (k :: rest) s = (k s).andThen (runSteps rest) := rfl

theorem runSteps_append (ks rest : List (State → Flow)) (s : State) :
    runSteps (ks ++ rest) s = (runSteps ks s).andThen (runSteps rest) := by
  induction ks generalizing s with
  | nil => rfl
  | cons k ks ih =>
    rw [List.cons_append, runSteps_cons, runSteps_cons]
    cases k s with
    | go t => exact ih t
    | halted t => rfl

end Sys2Proof.Machine
end

