-- ==== Sys2Proof/Laws/Ops.lean ====
section
/-! SUPPORT. What the shared operations can do, said once: a statement of a pseudocode that drives Pins makes a list of
register writes, or stops at the first Pin that is an input. Such statements compose. -/

namespace Sys2Proof.Machine

/-! ### Bits -/

theorem bitOf_withBit (v : Byte) (b c : BitIdx) (l : Bool) :
    bitOf (withBit v b l) c = if c = b then l else bitOf v c := by
  have hb : b.val < 8 := b.isLt
  have hc : c.val < 8 := c.isLt
  have hm : (bitMask b).getLsbD c.val = decide (c = b) := by
    revert b c; decide
  cases l <;> by_cases h : c = b <;> simp_all [bitOf, withBit]

/-! ### The addresses of the two register files never meet -/

theorem portAddr_ne_ddrAddr (p q : Port) : Config.portAddr p ≠ Config.ddrAddr q := by
  cases p <;> cases q <;> decide

theorem isOutput_of_ddr {s t : State} (h : ∀ p, t.ddr p = s.ddr p) (pin : Pin) : isOutput t pin = isOutput s pin := by
  simp [isOutput, h]

theorem ddr_write_port (m : Memory) (p q : Port) (v : Byte) :
    Memory.read (Memory.write m (Config.portAddr p) v) (Config.ddrAddr q) = Memory.read m (Config.ddrAddr q) :=
  Memory.read_write_ne m v (portAddr_ne_ddrAddr p q).symm

theorem port_write_ddr (m : Memory) (p q : Port) (v : Byte) :
    Memory.read (Memory.write m (Config.ddrAddr p) v) (Config.portAddr q) = Memory.read m (Config.portAddr q) :=
  Memory.read_write_ne m v (portAddr_ne_ddrAddr q p)

/-! ### Lists of register writes -/

@[simp] theorem writesMem_nil (m : Memory) : writesMem m [] = m := rfl
@[simp] theorem writesMem_cons (m : Memory) (w : RegWrite) (ws : List RegWrite) :
    writesMem m (w :: ws) = writesMem (writeMem m w) ws := rfl
@[simp] theorem writesMem_append (m : Memory) (ws vs : List RegWrite) :
    writesMem m (ws ++ vs) = writesMem (writesMem m ws) vs := by simp [writesMem]
@[simp] theorem writesEvents_nil (m : Memory) : writesEvents m [] = [] := rfl
@[simp] theorem writesEvents_cons (m : Memory) (w : RegWrite) (ws : List RegWrite) :
    writesEvents m (w :: ws) = writeEvent m w :: writesEvents (writeMem m w) ws := rfl
@[simp] theorem writesEvents_append (m : Memory) (ws vs : List RegWrite) :
    writesEvents m (ws ++ vs) = writesEvents m ws ++ writesEvents (writesMem m ws) vs := by
  induction ws generalizing m with
  | nil => rfl
  | cons w ws ih => simp [ih]

@[simp] theorem writesEvents_length (m : Memory) (ws : List RegWrite) : (writesEvents m ws).length = ws.length := by
  induction ws generalizing m with
  | nil => rfl
  | cons w ws ih => simp [ih]

/-- Every write of a list is a level in PORT. -/
def levelsOnly (ws : List RegWrite) : Bool := ws.all fun w => w.kind == .data

theorem ddr_writesMem {m : Memory} {ws : List RegWrite} (h : levelsOnly ws = true) (q : Port) :
    Memory.read (writesMem m ws) (Config.ddrAddr q) = Memory.read m (Config.ddrAddr q) := by
  induction ws generalizing m with
  | nil => rfl
  | cons w ws ih =>
    simp only [levelsOnly, List.all_cons, Bool.and_eq_true, beq_iff_eq] at h
    rw [writesMem_cons, ih (by simpa [levelsOnly] using h.2)]
    simp only [writeMem, writeAddr, h.1, regAddr]
    exact ddr_write_port ..

@[simp] theorem levelsOnly_append (ws vs : List RegWrite) :
    levelsOnly (ws ++ vs) = (levelsOnly ws && levelsOnly vs) := by simp [levelsOnly]

@[simp] theorem allOutputs_nil (s : State) : allOutputs s [] = true := rfl
@[simp] theorem allOutputs_cons (s : State) (w : RegWrite) (ws : List RegWrite) :
    allOutputs s (w :: ws) = (isOutput s w.pin && allOutputs s ws) := rfl
@[simp] theorem allOutputs_append (s : State) (ws vs : List RegWrite) :
    allOutputs s (ws ++ vs) = (allOutputs s ws && allOutputs s vs) := by simp [allOutputs]

theorem allOutputs_of_mem {s t : State} {ws vs : List RegWrite} (h : levelsOnly ws = true)
    (hm : t.mem = writesMem s.mem ws) : allOutputs t vs = allOutputs s vs := by
  have : ∀ pin, isOutput t pin = isOutput s pin := isOutput_of_ddr fun p => by
    simp only [State.ddr, hm]; exact ddr_writesMem h p
  simp [allOutputs, this]

/-! ### Statements that drive Pins -/

/-- The state after the writes of a statement, which leaves the phase and the handle as they were. -/
def Sent (s t : State) (ws : List RegWrite) (ns : Nat) : Prop :=
  SendsOnly s t ws ns ∧ t.phase = s.phase ∧ t.handle = s.handle

/-- The state after a statement that stopped at a Pin that is an input. -/
def Stopped (s t : State) (ws : List RegWrite) : Prop :=
  ∃ before w after, ws = before ++ w :: after ∧ allOutputs s before = true ∧ isOutput s w.pin = false ∧
    t.fault = some (.pinNotOutput w.pin) ∧ t.phase = .faulted ∧ t.handle = s.handle ∧
    t.mem = writesMem s.mem before ∧
    (∃ evs, t.trace = s.trace ++ evs ∧ evs.map Event.kind = writesEvents s.mem before) ∧ s.now ≤ t.now ∧
    t.pending = s.pending ∧ t.returned = s.returned

/-- A statement makes these level writes over at least this time, or stops at the first Pin that is an input. -/
def Sends (k : State → Flow) (ws : List RegWrite) (ns : Nat) : Prop :=
  levelsOnly ws = true ∧ ∀ s,
    (allOutputs s ws = true → ∃ t, k s = .go t ∧ Sent s t ws ns) ∧
    (allOutputs s ws = false → ∃ t, k s = .halted t ∧ Stopped s t ws)

/-- `set` on an output pin. -/
theorem setPin_output {pin : Pin} {s : State} (level : Bool) (h : isOutput s pin = true) :
    setPin pin level s = .go (emit (.pinWrite pin.port (some (pin.bit, level))
        (withBit (Memory.read s.mem (Config.portAddr pin.port)) pin.bit level) .block)
      (memWrite (Config.portAddr pin.port) (withBit (Memory.read s.mem (Config.portAddr pin.port)) pin.bit level)
        (advance 0 s))) := by
  simp [setPin, h]

/-- `set` on an input pin. -/
theorem setPin_input {pin : Pin} {s : State} (level : Bool) (h : isOutput s pin = false) :
    setPin pin level s = .halted (raise (.pinNotOutput pin) s) := by
  simp [setPin, h]

theorem sends_setPin (pin : Pin) (level : Bool) : Sends (setPin pin level) [drive pin level] 0 := by
  refine ⟨rfl, fun s => ⟨fun h => ?_, fun h => ?_⟩⟩
  · have h : isOutput s pin = true := by simpa [drive] using h
    refine ⟨_, setPin_output level h, ⟨⟨?_, rfl, ?_, rfl, rfl, rfl⟩, rfl, rfl⟩⟩
    · exact ⟨_, rfl, rfl⟩
    · simp; omega
  · have h : isOutput s pin = false := by simpa [drive] using h
    exact ⟨_, setPin_input level h, [], drive pin level, [], rfl, rfl, h, rfl, rfl, rfl, rfl, ⟨[], by simp⟩,
      Nat.le_refl _, rfl, rfl⟩

theorem sends_advance {k : State → Flow} (n : Nat) (hk : ∀ s, k s = .go (advance n s)) : Sends k [] n := by
  refine ⟨rfl, fun s => ⟨fun _ => ⟨_, hk s, ⟨⟨[], by simp⟩, rfl, ?_, rfl, rfl, rfl⟩, rfl, rfl⟩, fun h => ?_⟩⟩
  · simp
  · simp at h

theorem sends_delayUs (n : Nat) : Sends (delayUsStep n) [] (n * 1000) := sends_advance _ fun _ => rfl

theorem sends_delayMs (n : Nat) : Sends (delayMsStep n) [] (n * 1000000) := sends_advance _ fun _ => rfl

theorem sends_nil : Sends (runSteps []) [] 0 := by
  refine ⟨rfl, fun s => ⟨fun _ => ⟨s, rfl, ⟨⟨[], by simp⟩, rfl, by simp, rfl, rfl, rfl⟩, rfl, rfl⟩, fun h => ?_⟩⟩
  simp at h

theorem Sent.trans {s t u : State} {ws vs : List RegWrite} {m n : Nat} (h : Sent s t ws m) (h' : Sent t u vs n) :
    Sent s u (ws ++ vs) (m + n) := by
  obtain ⟨⟨⟨e1, he1, hk1⟩, hm1, hn1, hf1, hp1, hr1⟩, hph1, hh1⟩ := h
  obtain ⟨⟨⟨e2, he2, hk2⟩, hm2, hn2, hf2, hp2, hr2⟩, hph2, hh2⟩ := h'
  refine ⟨⟨⟨e1 ++ e2, by rw [he2, he1, List.append_assoc], ?_⟩, ?_, by omega, hf2.trans hf1, hp2.trans hp1,
    hr2.trans hr1⟩, hph2.trans hph1, hh2.trans hh1⟩
  · rw [List.map_append, hk1, hk2, hm1, writesEvents_append]
  · rw [hm2, hm1, writesMem_append]

theorem Sent.stopped {s t u : State} {ws vs : List RegWrite} {m : Nat} (hl : levelsOnly ws = true)
    (ho : allOutputs s ws = true) (h : Sent s t ws m) (h' : Stopped t u vs) : Stopped s u (ws ++ vs) := by
  obtain ⟨⟨⟨e1, he1, hk1⟩, hm1, hn1, hf1, hp1, hr1⟩, hph1, hh1⟩ := h
  obtain ⟨b, w, a, hvs, hb, hw, hf, hph, hh, hm, ⟨e2, he2, hk2⟩, hn, hp, hr⟩ := h'
  refine ⟨ws ++ b, w, a, by rw [hvs, List.append_assoc], ?_, ?_, hf, hph, hh.trans hh1, ?_,
    ⟨e1 ++ e2, by rw [he2, he1, List.append_assoc], ?_⟩, by omega, hp.trans hp1, hr.trans hr1⟩
  · rw [allOutputs_append, ho, Bool.true_and, ← allOutputs_of_mem hl hm1, hb]
  · rw [← hw]
    exact (isOutput_of_ddr (fun p => by simp only [State.ddr, hm1]; exact ddr_writesMem hl p) _).symm
  · rw [hm, hm1, writesMem_append]
  · rw [List.map_append, hk1, hk2, hm1, writesEvents_append]

theorem Stopped.append {s t : State} {ws : List RegWrite} (h : Stopped s t ws) (vs : List RegWrite) :
    Stopped s t (ws ++ vs) := by
  obtain ⟨b, w, a, hws, h⟩ := h
  exact ⟨b, w, a ++ vs, by rw [hws]; simp, h⟩

/-- Two statements in order make the writes of both. -/
theorem Sends.andThen {k k' : State → Flow} {ws vs : List RegWrite} {m n : Nat} (h : Sends k ws m)
    (h' : Sends k' vs n) : Sends (fun s => (k s).andThen k') (ws ++ vs) (m + n) := by
  refine ⟨by simp [h.1, h'.1], fun s => ⟨fun ho => ?_, fun ho => ?_⟩⟩
  · rw [allOutputs_append, Bool.and_eq_true] at ho
    obtain ⟨t, ht, hs⟩ := (h.2 s).1 ho.1
    obtain ⟨u, hu, hs'⟩ := (h'.2 t).1 (by rw [allOutputs_of_mem h.1 hs.1.2.1]; exact ho.2)
    exact ⟨u, by simp [ht, hu], hs.trans hs'⟩
  · cases hw : allOutputs s ws with
    | false =>
      obtain ⟨t, ht, hs⟩ := (h.2 s).2 hw
      exact ⟨t, by simp [ht], hs.append vs⟩
    | true =>
      obtain ⟨t, ht, hs⟩ := (h.2 s).1 hw
      rw [allOutputs_append, hw, Bool.true_and] at ho
      obtain ⟨u, hu, hs'⟩ := (h'.2 t).2 (by rw [allOutputs_of_mem h.1 hs.1.2.1]; exact ho)
      exact ⟨u, by simp [ht, hu], hs.stopped h.1 hw hs'⟩

theorem Sends.cons {k : State → Flow} {ks : List (State → Flow)} {ws vs : List RegWrite} {m n : Nat}
    (h : Sends k ws m) (h' : Sends (runSteps ks) vs n) : Sends (runSteps (k :: ks)) (ws ++ vs) (m + n) :=
  h.andThen h'

/-- `pulse_enable` (R170). -/
theorem sends_pulseEnable (h : Handle) : Sends (pulseEnable h) (pulseWrites h) 102000 :=
  (sends_setPin h.en false).cons <| (sends_delayUs 1).cons <| (sends_setPin h.en true).cons <|
    (sends_delayUs 1).cons <| (sends_setPin h.en false).cons <| (sends_delayUs 100).cons sends_nil

/-- `write_nibble` (R171). -/
theorem sends_writeNibble (h : Handle) (v : Byte) : Sends (writeNibble h v) (nibbleWrites h v) 102000 :=
  (sends_setPin h.d4 _).cons <| (sends_setPin h.d5 _).cons <| (sends_setPin h.d6 _).cons <|
    (sends_setPin h.d7 _).cons <| (sends_pulseEnable h).cons sends_nil

/-- `transfer_byte` (R172). -/
theorem sends_transferByte (h : Handle) (v : Byte) (rs : Bool) :
    Sends (transferByte h v rs) (transferWrites h v rs) 204000 := by
  have := (sends_setPin h.rs rs).cons <| (sends_writeNibble h (v >>> 4)).cons <|
    (sends_writeNibble h v).cons sends_nil
  simpa [transferWrites, transferByte] using this

/-- A list of data bytes (R244, R252). -/
theorem sends_dataBytes (h : Handle) (vs : List Byte) :
    Sends (runSteps (vs.map (data h))) (vs.flatMap fun v => transferWrites h v true) (204000 * vs.length) := by
  induction vs with
  | nil => exact sends_nil
  | cons v vs ih =>
    have := (sends_transferByte h v true).cons ih
    simpa [data, Nat.mul_add, Nat.add_comm] using this

/-- A statement that updates the handle first and then drives Pins. -/
theorem Sends.afterUpdate {k : State → Flow} {ws : List RegWrite} {n : Nat} (h : Sends k ws n)
    (f : Handle → Handle) (s : State) :
    (allOutputs s ws = true → ∃ t, runSteps [updateHandle f, k] s = .go t ∧
      Sent { s with handle := s.handle.map f } t ws n) ∧
    (allOutputs s ws = false → ∃ t, runSteps [updateHandle f, k] s = .halted t ∧
      Stopped { s with handle := s.handle.map f } t ws) := by
  have ho : allOutputs { s with handle := s.handle.map f } ws = allOutputs s ws := rfl
  refine ⟨fun h1 => ?_, fun h1 => ?_⟩
  · obtain ⟨t, ht, hs⟩ := (h.2 _).1 (ho.trans h1)
    exact ⟨t, by simp [updateHandle, ht], hs⟩
  · obtain ⟨t, ht, hs⟩ := (h.2 _).2 (ho.trans h1)
    exact ⟨t, by simp [updateHandle, ht], hs⟩

/-! ### The shells of the meanings -/

/-- A meaning that answers the state in which such a statement leaves the machine performs its writes. -/
theorem Sends.performs {k : State → Flow} {ws : List RegWrite} {n : Nat} (h : Sends k ws n) {i : Instr} {s : State}
    {h' : Option Handle} (hh : s.handle = h') (he : exec i s = .next (k s).state) : Performs i s ws n h' := by
  refine ⟨fun ho => ?_, fun ho => ?_⟩
  · obtain ⟨t, ht, hs, hph, hhd⟩ := (h.2 s).1 ho
    exact ⟨t, by rw [he, ht]; rfl, hs, hph, hhd.trans hh⟩
  · obtain ⟨t, ht, b, w, a, hws, hb, hw, hf, hph, hhd, rest⟩ := (h.2 s).2 ho
    exact ⟨t, b, w, a, hws, hb, hw, by rw [he, ht]; rfl, hf, hph, hhd.trans hh, rest⟩

theorem unlessFaulted_of_ne {s : State} (h : s.phase ≠ .faulted) (k : Host.Outcome State Fault Refusal) :
    unlessFaulted s k = k := by simp [unlessFaulted, h]

theorem unlessFaulted_faulted {s : State} (h : s.phase = .faulted) (k : Host.Outcome State Fault Refusal) :
    unlessFaulted s k = .fault .faultedHasNoStep := by simp [unlessFaulted, h]

theorem runWithHandle_some {s : State} {h : Handle} (op : OpName) (hp : s.phase ≠ .faulted) (hh : s.handle = some h)
    (body : Handle → State → Flow) : runWithHandle op s body = .next (body h s).state := by
  simp [runWithHandle, unlessFaulted, hp, hh, complete]

theorem runReady_ready {s : State} {h : Handle} (op : OpName) (hp : s.phase = .ready) (hh : s.handle = some h)
    (body : Handle → State → Flow) : runReady op s body = .next (body h s).state := by
  simp [runReady, hp, hh, complete]

theorem runReady_noHandle {s : State} (op : OpName) (hp : s.phase = .noHandle) (body : Handle → State → Flow) :
    runReady op s body = .next (raise (.noHandle op) s) := by
  simp [runReady, hp, complete, raiseStep]

theorem runReady_constructed {s : State} (op : OpName) (hp : s.phase = .constructed) (body : Handle → State → Flow) :
    runReady op s body = .next (raise (.notReady op) s) := by
  simp [runReady, hp, complete, raiseStep]

end Sys2Proof.Machine
end

