-- ==== Sys2Proof/Laws/Sequences.lean ====
section
/-! SUPPORT. Statements that may also move the phase, update the handle or give directions, and how they compose: what
`begin`, `create` and `read_busy` are made of. -/

namespace Sys2Proof.Machine

/-! ### Register writes in a row -/

theorem SendsOnly.trans {s t u : State} {ws vs : List RegWrite} {m n : Nat} (h : SendsOnly s t ws m)
    (h' : SendsOnly t u vs n) : SendsOnly s u (ws ++ vs) (m + n) := by
  obtain ⟨⟨e1, he1, hk1⟩, hm1, hn1, hf1, hp1, hr1⟩ := h
  obtain ⟨⟨e2, he2, hk2⟩, hm2, hn2, hf2, hp2, hr2⟩ := h'
  refine ⟨⟨e1 ++ e2, by rw [he2, he1, List.append_assoc], ?_⟩, ?_, by omega, hf2.trans hf1, hp2.trans hp1,
    hr2.trans hr1⟩
  · rw [List.map_append, hk1, hk2, hm1, writesEvents_append]
  · rw [hm2, hm1, writesMem_append]

theorem SendsOnly.refl (s : State) : SendsOnly s s [] 0 := ⟨⟨[], by simp⟩, rfl, by simp, rfl, rfl, rfl⟩

/-- The state after statements that stopped at a Pin that is an input, whatever became of the handle. -/
def StoppedAt (s t : State) (ws : List RegWrite) : Prop :=
  ∃ before w after, ws = before ++ w :: after ∧ allOutputs s before = true ∧ isOutput s w.pin = false ∧
    t.fault = some (.pinNotOutput w.pin) ∧ t.phase = .faulted ∧ t.mem = writesMem s.mem before ∧
    (∃ evs, t.trace = s.trace ++ evs ∧ evs.map Event.kind = writesEvents s.mem before) ∧ s.now ≤ t.now ∧
    t.pending = s.pending ∧ t.returned = s.returned

/-- A statement that, with its Pins outputs, makes level writes over at least this time, moves the phase by `g` and the
handle by `f`; and that otherwise stops at the first Pin that is an input. -/
def Does (k : State → Flow) (ws : List RegWrite) (ns : Nat) (g : Phase → Phase) (f : Handle → Handle) : Prop :=
  levelsOnly ws = true ∧ ∀ s,
    (allOutputs s ws = true →
      ∃ t, k s = .go t ∧ SendsOnly s t ws ns ∧ t.phase = g s.phase ∧ t.handle = s.handle.map f) ∧
    (allOutputs s ws = false → ∃ t, k s = .halted t ∧ StoppedAt s t ws)

theorem Sends.does {k : State → Flow} {ws : List RegWrite} {n : Nat} (h : Sends k ws n) : Does k ws n id id := by
  refine ⟨h.1, fun s => ⟨fun ho => ?_, fun ho => ?_⟩⟩
  · obtain ⟨t, ht, hs⟩ := (h.2 s).1 ho
    exact ⟨t, ht, hs.1, hs.2.1, by simpa using hs.2.2⟩
  · obtain ⟨t, ht, b, w, a, hws, hb, hw, hf, hp, -, rest⟩ := (h.2 s).2 ho
    exact ⟨t, ht, b, w, a, hws, hb, hw, hf, hp, rest⟩

theorem does_setPhase (p : Phase) : Does (setPhase p) [] 0 (fun _ => p) id :=
  ⟨rfl, fun s => ⟨fun _ => ⟨_, rfl, SendsOnly.refl s, rfl, by simp⟩, fun h => by simp at h⟩⟩

theorem does_updateHandle (f : Handle → Handle) : Does (updateHandle f) [] 0 id f :=
  ⟨rfl, fun s => ⟨fun _ => ⟨_, rfl, SendsOnly.refl s, rfl, rfl⟩, fun h => by simp at h⟩⟩

theorem does_nil : Does (runSteps []) [] 0 id id :=
  ⟨rfl, fun s => ⟨fun _ => ⟨_, rfl, SendsOnly.refl s, rfl, by simp⟩, fun h => by simp at h⟩⟩

theorem SendsOnly.stoppedAt {s t u : State} {ws vs : List RegWrite} {m : Nat} (hl : levelsOnly ws = true)
    (ho : allOutputs s ws = true) (h : SendsOnly s t ws m) (h' : StoppedAt t u vs) : StoppedAt s u (ws ++ vs) := by
  obtain ⟨⟨e1, he1, hk1⟩, hm1, hn1, hf1, hp1, hr1⟩ := h
  obtain ⟨b, w, a, hvs, hb, hw, hf, hph, hm, ⟨e2, he2, hk2⟩, hn, hp, hr⟩ := h'
  refine ⟨ws ++ b, w, a, by rw [hvs, List.append_assoc], ?_, ?_, hf, hph, ?_,
    ⟨e1 ++ e2, by rw [he2, he1, List.append_assoc], ?_⟩, by omega, hp.trans hp1, hr.trans hr1⟩
  · rw [allOutputs_append, ho, Bool.true_and, ← allOutputs_of_mem hl hm1, hb]
  · rw [← hw]
    exact (isOutput_of_ddr (fun p => by simp only [State.ddr, hm1]; exact ddr_writesMem hl p) _).symm
  · rw [hm, hm1, writesMem_append]
  · rw [List.map_append, hk1, hk2, hm1, writesEvents_append]

theorem StoppedAt.append {s t : State} {ws : List RegWrite} (h : StoppedAt s t ws) (vs : List RegWrite) :
    StoppedAt s t (ws ++ vs) := by
  obtain ⟨b, w, a, hws, h⟩ := h
  exact ⟨b, w, a ++ vs, by rw [hws]; simp, h⟩

theorem Does.cons {k : State → Flow} {ks : List (State → Flow)} {ws vs : List RegWrite} {m n : Nat}
    {g g' : Phase → Phase} {f f' : Handle → Handle} (h : Does k ws m g f) (h' : Does (runSteps ks) vs n g' f') :
    Does (runSteps (k :: ks)) (ws ++ vs) (m + n) (g' ∘ g) (f' ∘ f) := by
  refine ⟨by simp [h.1, h'.1], fun s => ⟨fun ho => ?_, fun ho => ?_⟩⟩
  · rw [allOutputs_append, Bool.and_eq_true] at ho
    obtain ⟨t, ht, hs, hp, hh⟩ := (h.2 s).1 ho.1
    obtain ⟨u, hu, hs', hp', hh'⟩ := (h'.2 t).1 (by rw [allOutputs_of_mem h.1 hs.2.1]; exact ho.2)
    exact ⟨u, by simp [ht, hu], SendsOnly.trans hs hs', by simp [hp', hp], by simp [hh', hh]⟩
  · cases hw : allOutputs s ws with
    | false =>
      obtain ⟨t, ht, hs⟩ := (h.2 s).2 hw
      exact ⟨t, by simp [ht], StoppedAt.append hs vs⟩
    | true =>
      obtain ⟨t, ht, hs, -, -⟩ := (h.2 s).1 hw
      rw [allOutputs_append, hw, Bool.true_and] at ho
      obtain ⟨u, hu, hs'⟩ := (h'.2 t).2 (by rw [allOutputs_of_mem h.1 hs.2.1]; exact ho)
      exact ⟨u, by simp [ht, hu], SendsOnly.stoppedAt h.1 hw hs hs'⟩

/-! ### Directions -/

/-- A statement that writes only direction bits: no Pin can stop it. -/
def Directs (k : State → Flow) (ws : List RegWrite) : Prop := ∀ s, ∃ t, k s = .go t ∧ Sent s t ws 0

/-- `set_direction` (R146). -/
theorem directs_setDirection (pin : Pin) (mode : Mode) : Directs (setDirectionStep pin mode) [direct pin mode] := by
  intro s
  refine ⟨_, rfl, ⟨⟨_, rfl, ?_⟩, rfl, ?_, rfl, rfl, rfl⟩, rfl, rfl⟩
  · cases mode <;> rfl
  · simp; omega

theorem directs_nil : Directs (runSteps []) [] := fun s =>
  ⟨s, rfl, SendsOnly.refl s, rfl, rfl⟩

theorem Directs.cons {k : State → Flow} {ks : List (State → Flow)} {ws vs : List RegWrite} (h : Directs k ws)
    (h' : Directs (runSteps ks) vs) : Directs (runSteps (k :: ks)) (ws ++ vs) := by
  intro s
  obtain ⟨t, ht, hs⟩ := h s
  obtain ⟨u, hu, hs'⟩ := h' t
  exact ⟨u, by simp [ht, hu], by simpa using Sent.trans hs hs'⟩

/-- The direction writes of the poll (R190). -/
theorem directs_dataDirections (h : Handle) (mode : Mode) :
    Directs (dataDirections h mode) (h.dataPins.map (direct · mode)) :=
  Directs.cons (directs_setDirection h.d4 mode) <| Directs.cons (directs_setDirection h.d5 mode) <|
    Directs.cons (directs_setDirection h.d6 mode) <| Directs.cons (directs_setDirection h.d7 mode) directs_nil

/-- A direction write moves its own Pin's direction and no other. -/
theorem isOutput_direct (m : Memory) (pin q : Pin) (mode : Mode) :
    bitOf (Memory.read (writeMem m (direct q mode)) (Config.ddrAddr pin.port)) pin.bit =
      if pin = q then mode.bit else bitOf (Memory.read m (Config.ddrAddr pin.port)) pin.bit := by
  simp only [writeMem, writeByte, writeAddr, direct, regAddr]
  by_cases h : pin.port = q.port
  · rw [h, Memory.read_write_same, bitOf_withBit]
    by_cases hb : pin.bit = q.bit
    · have : pin = q := by cases pin; cases q; simp_all
      simp [this]
    · have : pin ≠ q := by rintro rfl; exact hb rfl
      simp [hb, this]
  · have ha : Config.ddrAddr pin.port ≠ Config.ddrAddr q.port := fun e =>
      h (regAddr_inj (r := .direction) (r' := .direction) |>.1 e).2
    have : pin ≠ q := by rintro rfl; exact h rfl
    rw [Memory.read_write_ne _ _ ha, if_neg this]

/-- A level write moves its own Pin's data bit and no other. -/
theorem portBit_drive (m : Memory) (pin q : Pin) (level : Bool) :
    bitOf (Memory.read (writeMem m (drive q level)) (Config.portAddr pin.port)) pin.bit =
      if pin = q then level else bitOf (Memory.read m (Config.portAddr pin.port)) pin.bit := by
  simp only [writeMem, writeByte, writeAddr, drive, regAddr]
  by_cases h : pin.port = q.port
  · rw [h, Memory.read_write_same, bitOf_withBit]
    by_cases hb : pin.bit = q.bit
    · have : pin = q := by cases pin; cases q; simp_all
      simp [this]
    · have : pin ≠ q := by rintro rfl; exact hb rfl
      simp [hb, this]
  · have ha : Config.portAddr pin.port ≠ Config.portAddr q.port := fun e =>
      h (regAddr_inj (r := .data) (r' := .data) |>.1 e).2
    have : pin ≠ q := by rintro rfl; exact h rfl
    rw [Memory.read_write_ne _ _ ha, if_neg this]

/-- A level write leaves every direction. -/
theorem ddrBit_drive (m : Memory) (q : Pin) (level : Bool) (p : Port) :
    Memory.read (writeMem m (drive q level)) (Config.ddrAddr p) = Memory.read m (Config.ddrAddr p) :=
  ddr_write_port m q.port p _

/-- A direction write leaves every data register. -/
theorem port_direct (m : Memory) (q : Pin) (mode : Mode) (p : Port) :
    Memory.read (writeMem m (direct q mode)) (Config.portAddr p) = Memory.read m (Config.portAddr p) :=
  port_write_ddr m q.port p _

/-! ### Reads -/

/-- The event of one read. -/
def readEvent (pin : Pin) (level : Bool) : EventKind := .sample pin.port pin.bit level

/-- The state after reads that recorded these levels, in order, and gave nothing back. -/
def Read (s t : State) (reads : List (Pin × Bool)) : Prop :=
  (∃ evs, t.trace = s.trace ++ evs ∧ evs.map Event.kind = reads.map fun r => readEvent r.1 r.2) ∧ t.mem = s.mem ∧
    s.now ≤ t.now ∧ t.fault = s.fault ∧ t.pending = s.pending ∧ t.returned = s.returned ∧ t.phase = s.phase ∧
    t.handle = s.handle

theorem Read.trans {s t u : State} {rs rs' : List (Pin × Bool)} (h : Read s t rs) (h' : Read t u rs') :
    Read s u (rs ++ rs') := by
  obtain ⟨⟨e1, he1, hk1⟩, hm1, hn1, hf1, hp1, hr1, hph1, hh1⟩ := h
  obtain ⟨⟨e2, he2, hk2⟩, hm2, hn2, hf2, hp2, hr2, hph2, hh2⟩ := h'
  exact ⟨⟨e1 ++ e2, by rw [he2, he1, List.append_assoc], by rw [List.map_append, hk1, hk2, List.map_append]⟩,
    hm2.trans hm1, by omega, hf2.trans hf1, hp2.trans hp1, hr2.trans hr1, hph2.trans hph1, hh2.trans hh1⟩

/-- `sample` (R147). -/
theorem read_samplePin (pin : Pin) (s : State) : Read s (samplePin pin s).2 [(pin, (samplePin pin s).1)] := by
  refine ⟨⟨_, rfl, rfl⟩, rfl, ?_, rfl, rfl, rfl, rfl, rfl⟩
  simp [samplePin, drawLevel]

/-- One read of the poll (R190): D7, D6, D5, D4. -/
theorem read_sampleNibble (h : Handle) (s : State) : ∃ l7 l6 l5 l4,
    (sampleNibble h s).1 = nibbleOfLevels l7 l6 l5 l4 ∧
      Read s (sampleNibble h s).2 [(h.d7, l7), (h.d6, l6), (h.d5, l5), (h.d4, l4)] :=
  ⟨_, _, _, _, rfl, Read.trans (read_samplePin h.d7 s) <| Read.trans (read_samplePin h.d6 _) <|
    Read.trans (read_samplePin h.d5 _) (read_samplePin h.d4 _)⟩

end Sys2Proof.Machine
end

