-- ==== Sys2Proof/Laws/Exec.lean ====
section
/-! SUPPORT. What every instruction keeps: a relation between states that is reflexive and transitive and holds across each
elementary statement that the instruction may contain holds across the instruction. -/

namespace Sys2Proof.Machine

/-- A relation between states that is kept by every elementary statement that drives a Pin of `A`, directs a Pin of `D`,
samples a Pin of `S`, or does none of these. -/
structure Steady (A D S : List Pin) (R : State → State → Prop) : Prop where
  refl : ∀ s, R s s
  trans : ∀ {s t u}, R s t → R t u → R s u
  advance : ∀ n s, R s (advance n s)
  setPin : ∀ pin ∈ A, ∀ l s, R s (setPin pin l s).state
  setDirection : ∀ pin ∈ D, ∀ m s, R s (setDirectionStep pin m s).state
  sample : ∀ pin ∈ S, ∀ s, R s (samplePin pin s).2
  raise : ∀ r s, R s (raise r s)
  giveBack : ∀ g s, R s (giveBack g s)
  phase : ∀ p s, R s { s with phase := p }
  handle : ∀ h s, R s { s with handle := h }

/-- A statement across which a relation holds. -/
def Keeps (R : State → State → Prop) (k : State → Flow) : Prop := ∀ s, R s (k s).state

theorem Keeps.andThen {A D S : List Pin} {R : State → State → Prop} (hR : Steady A D S R) {f : Flow} {s : State} {k : State → Flow}
    (h : R s f.state) (h' : Keeps R k) : R s (f.andThen k).state := by
  cases f with
  | go t => exact hR.trans h (h' t)
  | halted t => exact h

theorem keeps_runSteps {A D S : List Pin} {R : State → State → Prop} (hR : Steady A D S R) {ks : List (State → Flow)}
    (h : ∀ k ∈ ks, Keeps R k) : Keeps R (runSteps ks) := by
  induction ks with
  | nil => exact fun s => hR.refl s
  | cons k ks ih =>
    intro s
    exact Keeps.andThen hR (h k (by simp) s) (ih fun k' hk' => h k' (by simp [hk']))

section
variable {A D S : List Pin} {R : State → State → Prop} (hR : Steady A D S R)
include hR

theorem keeps_delayUs (n : Nat) : Keeps R (delayUsStep n) := fun s => hR.advance _ s
theorem keeps_delayMs (n : Nat) : Keeps R (delayMsStep n) := fun s => hR.advance _ s
theorem keeps_setPhase (p : Phase) : Keeps R (setPhase p) := fun s => hR.phase p s
theorem keeps_updateHandle (f : Handle → Handle) : Keeps R (updateHandle f) := fun s => hR.handle _ s
theorem keeps_raiseStep (r : FaultRecord) : Keeps R (raiseStep r) := fun s => hR.raise r s
theorem keeps_setPin {pin : Pin} (hp : pin ∈ A) (l : Bool) : Keeps R (setPin pin l) := fun s => hR.setPin pin hp l s
theorem keeps_setDirection {pin : Pin} (hp : pin ∈ D) (m : Mode) : Keeps R (setDirectionStep pin m) :=
  fun s => hR.setDirection pin hp m s

theorem keeps_pulseEnable {h : Handle} (ha : ∀ pin ∈ h.pins, pin ∈ A) : Keeps R (pulseEnable h) := by
  refine keeps_runSteps hR ?_
  simp only [List.forall_mem_cons, List.not_mem_nil, false_imp_iff, implies_true, and_true]
  exact ⟨keeps_setPin hR (ha _ (by simp [Handle.pins])) _, keeps_delayUs hR _, keeps_setPin hR (ha _ (by simp [Handle.pins])) _, keeps_delayUs hR _, keeps_setPin hR (ha _ (by simp [Handle.pins])) _,
    keeps_delayUs hR _⟩

theorem keeps_writeNibble {h : Handle} (ha : ∀ pin ∈ h.pins, pin ∈ A) (v : Byte) : Keeps R (writeNibble h v) := by
  refine keeps_runSteps hR ?_
  simp only [List.forall_mem_cons, List.not_mem_nil, false_imp_iff, implies_true, and_true]
  exact ⟨keeps_setPin hR (ha _ (by simp [Handle.pins])) _, keeps_setPin hR (ha _ (by simp [Handle.pins])) _, keeps_setPin hR (ha _ (by simp [Handle.pins])) _, keeps_setPin hR (ha _ (by simp [Handle.pins])) _, keeps_pulseEnable hR ha⟩

theorem keeps_transferByte {h : Handle} (ha : ∀ pin ∈ h.pins, pin ∈ A) (v : Byte) (rs : Bool) : Keeps R (transferByte h v rs) := by
  refine keeps_runSteps hR ?_
  simp only [List.forall_mem_cons, List.not_mem_nil, false_imp_iff, implies_true, and_true]
  exact ⟨keeps_setPin hR (ha _ (by simp [Handle.pins])) _, keeps_writeNibble hR ha _, keeps_writeNibble hR ha _⟩

theorem keeps_dataDirections {h : Handle} (hd : ∀ pin ∈ h.dataPins, pin ∈ D) (m : Mode) : Keeps R (dataDirections h m) := by
  refine keeps_runSteps hR ?_
  simp only [List.forall_mem_cons, List.not_mem_nil, false_imp_iff, implies_true, and_true]
  exact ⟨keeps_setDirection hR (hd _ (by simp [Handle.dataPins])) _, keeps_setDirection hR (hd _ (by simp [Handle.dataPins])) _, keeps_setDirection hR (hd _ (by simp [Handle.dataPins])) _, keeps_setDirection hR (hd _ (by simp [Handle.dataPins])) _⟩

theorem keeps_sampleNibble {h : Handle} (hs : ∀ pin ∈ h.dataPins, pin ∈ S) (s : State) : R s (sampleNibble h s).2 :=
  hR.trans (hR.sample _ (hs _ (by simp [Handle.dataPins])) s) <|
    hR.trans (hR.sample _ (hs _ (by simp [Handle.dataPins])) _) <|
    hR.trans (hR.sample _ (hs _ (by simp [Handle.dataPins])) _) (hR.sample _ (hs _ (by simp [Handle.dataPins])) _)

theorem keeps_readBusy {h : Handle} (ha : ∀ pin ∈ h.pins, pin ∈ A)
    (hd : ∀ pin ∈ h.dataPins, pin ∈ D) (hs : ∀ pin ∈ h.dataPins, pin ∈ S) : Keeps R (readBusy h) := by
  intro s
  refine Keeps.andThen hR (keeps_runSteps hR (ks := [dataDirections h .input, setPin h.rs false, setPin h.en true,
    delayUsStep Config.tPollSettle]) ?_ s) fun s => ?_
  · simp only [List.forall_mem_cons, List.not_mem_nil, false_imp_iff, implies_true, and_true]
    exact ⟨keeps_dataDirections hR hd _, keeps_setPin hR (ha _ (by simp [Handle.pins])) _, keeps_setPin hR (ha _ (by simp [Handle.pins])) _, keeps_delayUs hR _⟩
  · refine hR.trans (keeps_sampleNibble hR hs s) ?_
    refine Keeps.andThen hR (keeps_runSteps hR (ks := [setPin h.en false, delayUsStep Config.tPollGap,
      setPin h.en true, delayUsStep Config.tPollSettle]) ?_ _) fun s => ?_
    · simp only [List.forall_mem_cons, List.not_mem_nil, false_imp_iff, implies_true, and_true]
      exact ⟨keeps_setPin hR (ha _ (by simp [Handle.pins])) _, keeps_delayUs hR _, keeps_setPin hR (ha _ (by simp [Handle.pins])) _, keeps_delayUs hR _⟩
    · refine hR.trans (keeps_sampleNibble hR hs s) ?_
      refine Keeps.andThen hR (keeps_runSteps hR (ks := [setPin h.en false, dataDirections h .output]) ?_ _) fun s => ?_
      · simp only [List.forall_mem_cons, List.not_mem_nil, false_imp_iff, implies_true, and_true]
        exact ⟨keeps_setPin hR (ha _ (by simp [Handle.pins])) _, keeps_dataDirections hR hd _⟩
      · exact hR.giveBack _ s

theorem keeps_settledCommand {h : Handle} (ha : ∀ pin ∈ h.pins, pin ∈ A) (v : Byte) : Keeps R (settledCommand h v) := by
  refine keeps_runSteps hR ?_
  simp only [List.forall_mem_cons, List.not_mem_nil, false_imp_iff, implies_true, and_true]
  exact ⟨keeps_transferByte hR ha _ _, keeps_delayMs hR _⟩

theorem keeps_readByte {field : HandleByte} {v : Option Byte} {k : Byte → State → Flow} (h : ∀ b, Keeps R (k b)) :
    Keeps R (readByte field v k) := by
  cases v with
  | none => exact keeps_raiseStep hR _
  | some b => exact h b

theorem keeps_setCursorSteps {h : Handle} (ha : ∀ pin ∈ h.pins, pin ∈ A) (col row : Byte) : Keeps R (setCursorSteps h col row) := by
  refine keeps_readByte hR fun b => ?_
  cases rowOffset (clampRow b row) with
  | none => exact keeps_raiseStep hR _
  | some o => exact keeps_transferByte hR ha _ _

theorem keeps_controlSteps {h : Handle} (ha : ∀ pin ∈ h.pins, pin ∈ A) (f : Byte → Byte) : Keeps R (controlSteps h f) := by
  refine keeps_readByte hR fun b => keeps_runSteps hR ?_
  simp only [List.forall_mem_cons, List.not_mem_nil, false_imp_iff, implies_true, and_true]
  exact ⟨keeps_updateHandle hR _, keeps_transferByte hR ha _ _⟩

theorem keeps_entrySteps {h : Handle} (ha : ∀ pin ∈ h.pins, pin ∈ A) (f : Byte → Byte) : Keeps R (entrySteps h f) := by
  refine keeps_readByte hR fun b => keeps_runSteps hR ?_
  simp only [List.forall_mem_cons, List.not_mem_nil, false_imp_iff, implies_true, and_true]
  exact ⟨keeps_updateHandle hR _, keeps_transferByte hR ha _ _⟩

theorem keeps_dataBytes {h : Handle} (ha : ∀ pin ∈ h.pins, pin ∈ A) (vs : List Byte) : Keeps R (runSteps (vs.map (data h))) := by
  refine keeps_runSteps hR fun k hk => ?_
  obtain ⟨v, -, rfl⟩ := List.mem_map.1 hk
  exact keeps_transferByte hR ha v true

theorem keeps_createSteps {h : Handle} (hd : ∀ pin ∈ h.pins, pin ∈ D) : Keeps R (createSteps h) := by
  refine keeps_runSteps hR ?_
  simp only [List.forall_mem_cons, List.not_mem_nil, false_imp_iff, implies_true, and_true]
  exact ⟨fun s => hR.handle _ s, keeps_setDirection hR (hd _ (by simp [Handle.pins])) _, keeps_setDirection hR (hd _ (by simp [Handle.pins])) _, keeps_setDirection hR (hd _ (by simp [Handle.pins])) _,
    keeps_setDirection hR (hd _ (by simp [Handle.pins])) _, keeps_setDirection hR (hd _ (by simp [Handle.pins])) _, keeps_setDirection hR (hd _ (by simp [Handle.pins])) _, keeps_setPhase hR _⟩

theorem keeps_beginSteps {h : Handle} (ha : ∀ pin ∈ h.pins, pin ∈ A) (rows : Byte) : Keeps R (beginSteps h rows) := by
  refine keeps_runSteps hR ?_
  simp only [List.forall_mem_cons, List.not_mem_nil, false_imp_iff, implies_true, and_true]
  have N := fun v => keeps_writeNibble hR ha v
  have T := fun v => keeps_transferByte hR ha v false
  exact ⟨keeps_updateHandle hR _, keeps_setPhase hR _, keeps_delayMs hR _, keeps_setPin hR (ha _ (by simp [Handle.pins])) _, keeps_setPin hR (ha _ (by simp [Handle.pins])) _,
    keeps_setPhase hR _, N _, keeps_delayMs hR _, keeps_setPhase hR _, N _, keeps_delayMs hR _,
    keeps_setPhase hR _, N _, keeps_delayMs hR _, keeps_setPhase hR _, N _, keeps_setPhase hR _,
    keeps_updateHandle hR _, T _, keeps_delayMs hR _, keeps_setPhase hR _, keeps_updateHandle hR _, T _,
    keeps_delayMs hR _, keeps_setPhase hR _, T _, keeps_delayMs hR _, keeps_setPhase hR _, keeps_updateHandle hR _,
    T _, keeps_delayMs hR _, keeps_setPhase hR _⟩

omit hR in
theorem next_unlessFaulted {s t : State} {k : Host.Outcome State Fault Refusal} (h : unlessFaulted s k = .next t) :
    s.phase ≠ .faulted ∧ k = .next t := by
  unfold unlessFaulted at h
  split at h
  · cases h
  · exact ⟨‹_›, h⟩

omit hR in
theorem keeps_runPrimitive {s t : State} {body : State → Flow} (hb : Keeps R body) (h : runPrimitive s body = .next t) :
    R s t := by
  obtain ⟨-, h⟩ := next_unlessFaulted h
  cases h
  exact hb s

theorem keeps_runWithHandle {op : OpName} {s t : State} {body : Handle → State → Flow}
    (hb : ∀ h, s.handle = some h → Keeps R (body h)) (h : runWithHandle op s body = .next t) : R s t := by
  obtain ⟨-, h⟩ := next_unlessFaulted h
  cases h
  cases hs : s.handle with
  | none => exact hR.raise _ s
  | some hd => exact hb hd hs s

theorem keeps_runReady {op : OpName} {s t : State} {body : Handle → State → Flow}
    (hb : ∀ h, s.handle = some h → Keeps R (body h)) (h : runReady op s body = .next t) : R s t := by
  unfold runReady at h
  split at h
  case h_3 =>
    cases h
    cases hs : s.handle with
    | none => exact hR.raise _ s
    | some hd => exact hb hd hs s
  all_goals cases h <;> exact hR.raise _ s

end

/-- Across every instruction that answers a next state a relation holds that is steady for the Pins it may drive and
direct. -/
theorem keeps_exec {i : Instr} {s t : State} {R : State → State → Prop} (hR : Steady (mayDrive i s) (mayDirect i s) (maySample i s) R)
    (h : exec i s = .next t) : R s t := by
  cases i with
  | create rs en d4 d5 d6 d7 =>
    obtain ⟨-, h⟩ := next_unlessFaulted h
    split at h <;> cases h
    · exact keeps_createSteps hR (h := newHandle rs en d4 d5 d6 d7) (fun _ hp => hp) s
    · exact hR.raise _ s
  | begin c r =>
    obtain ⟨-, h⟩ := next_unlessFaulted h
    split at h
    · cases h; exact hR.raise _ s
    split at h
    · split at h <;> cases h
      · rename_i hd hs
        exact keeps_beginSteps hR (by simp [mayDrive, hs]) r s
      · exact hR.raise _ s
    · cases h; exact hR.raise _ s
  | resolve n =>
    obtain ⟨-, h⟩ := next_unlessFaulted h
    cases h
    exact hR.giveBack _ s
  | set pin l => exact keeps_runPrimitive (keeps_setPin hR (by simp [mayDrive]) l) h
  | setDirection pin m => exact keeps_runPrimitive (keeps_setDirection hR (by simp [mayDirect]) m) h
  | sample pin =>
    obtain ⟨-, h⟩ := next_unlessFaulted h
    cases h
    exact hR.trans (hR.sample pin (by simp [maySample]) s) (hR.giveBack _ _)
  | delayUs n => exact keeps_runPrimitive (keeps_delayUs hR n) h
  | delayMs n => exact keeps_runPrimitive (keeps_delayMs hR n) h
  | clear => exact keeps_runReady hR (fun hd hs => keeps_settledCommand hR (by simp [mayDrive, hs]) _) h
  | home => exact keeps_runReady hR (fun hd hs => keeps_settledCommand hR (by simp [mayDrive, hs]) _) h
  | setCursor col row => exact keeps_runReady hR (fun hd hs => keeps_setCursorSteps hR (by simp [mayDrive, hs]) _ _) h
  | write c => exact keeps_runReady hR (fun hd hs => keeps_transferByte hR (by simp [mayDrive, hs]) _ _) h
  | print text =>
    simp only [exec, execPrint, refuseIllFormed] at h
    split at h
    · cases h
    · exact keeps_runReady hR (fun hd hs => keeps_dataBytes hR (by simp [mayDrive, hs]) _) h
  | createChar slot rows =>
    simp only [exec, execCreateChar, refuseIllFormed] at h
    split at h
    · cases h
    · refine keeps_runReady hR (fun hd hs s' => ?_) h
      exact Keeps.andThen hR (keeps_transferByte hR (by simp [mayDrive, hs]) (cgramByte slot) false s')
        (keeps_dataBytes hR (by simp [mayDrive, hs]) rows)
  | display => exact keeps_runReady hR (fun hd hs => keeps_controlSteps hR (by simp [mayDrive, hs]) _) h
  | noDisplay => exact keeps_runReady hR (fun hd hs => keeps_controlSteps hR (by simp [mayDrive, hs]) _) h
  | cursor => exact keeps_runReady hR (fun hd hs => keeps_controlSteps hR (by simp [mayDrive, hs]) _) h
  | noCursor => exact keeps_runReady hR (fun hd hs => keeps_controlSteps hR (by simp [mayDrive, hs]) _) h
  | blink => exact keeps_runReady hR (fun hd hs => keeps_controlSteps hR (by simp [mayDrive, hs]) _) h
  | noBlink => exact keeps_runReady hR (fun hd hs => keeps_controlSteps hR (by simp [mayDrive, hs]) _) h
  | scrollDisplayLeft => exact keeps_runReady hR (fun hd hs => keeps_transferByte hR (by simp [mayDrive, hs]) _ _) h
  | scrollDisplayRight => exact keeps_runReady hR (fun hd hs => keeps_transferByte hR (by simp [mayDrive, hs]) _ _) h
  | autoscroll => exact keeps_runReady hR (fun hd hs => keeps_entrySteps hR (by simp [mayDrive, hs]) _) h
  | noAutoscroll => exact keeps_runReady hR (fun hd hs => keeps_entrySteps hR (by simp [mayDrive, hs]) _) h
  | readBusy =>
    exact keeps_runWithHandle hR
      (fun hd hs => keeps_readBusy hR (by simp [mayDrive, hs]) (by simp [mayDirect, hs]) (by simp [maySample, hs])) h
  | pulseEnable => exact keeps_runWithHandle hR (fun hd hs => keeps_pulseEnable hR (by simp [mayDrive, hs])) h
  | writeNibble v => exact keeps_runWithHandle hR (fun hd hs => keeps_writeNibble hR (by simp [mayDrive, hs]) v) h
  | transferByte v rs =>
    exact keeps_runWithHandle hR (fun hd hs => keeps_transferByte hR (by simp [mayDrive, hs]) v rs) h
  | command v => exact keeps_runWithHandle hR (fun hd hs => keeps_transferByte hR (by simp [mayDrive, hs]) v _) h
  | data v => exact keeps_runWithHandle hR (fun hd hs => keeps_transferByte hR (by simp [mayDrive, hs]) v _) h
  | b1ClearDisplay | b2ReturnHome | b3EntryModeSet _ _ | b4DisplayControl _ _ _ | b5CursorDisplayShift _ _
  | b6FunctionSet _ _ _ | b7SetCgramAddress _ | b8SetDdramAddress _ | b9WriteData _ =>
    exact keeps_runWithHandle hR (fun hd hs => keeps_transferByte hR (by simp [mayDrive, hs]) _ _) h

@[simp] theorem runDelivered_ok (i : Instr) (s : State) : runDelivered (.ok i) s = exec i s := rfl
@[simp] theorem runDelivered_error (why : DecodeError) (s : State) :
    runDelivered (.error why) s = .refused (.undecodable why) := rfl

/-- What was delivered ran only if it is an instruction. -/
theorem next_runDelivered {r : Except DecodeError Instr} {s t : State} (h : runDelivered r s = .next t) :
    ∃ i, r = .ok i ∧ exec i s = .next t := by
  cases r with
  | ok i => exact ⟨i, rfl, h⟩
  | error why => cases h

/-- The host's call delivers a host operation or is refused (R111, R115). -/
theorem decodeHostCall_ok {bytes : List Byte} {i : Instr} :
    decodeHostCall bytes = .ok i ↔ decode bytes = .ok i ∧ i.kind = .hostOperation := by
  unfold decodeHostCall
  split
  · rename_i j hj
    by_cases h : j.kind = .hostOperation
    · simp only [if_pos h, hj, Except.ok.injEq]
      exact ⟨fun e => ⟨e, e ▸ h⟩, fun e => e.1⟩
    · simp only [if_neg h, hj, Except.ok.injEq, reduceCtorEq, false_iff, not_and]
      exact fun e => e ▸ h
  · rename_i hj
    simp [hj]

/-- Across every step a relation holds that is steady for all Pins and holds across the taking of an input and across
an environment write. -/
theorem keeps_step {R : State → State → Prop} (hR : ∀ A D S, Steady A D S R)
    (hp : ∀ rest s, R s { s with pending := rest })
    (he : ∀ reg p mask value s t, envWrite reg p mask value s = .next t → R s t) {s t : State}
    (h : step s = .next t) : R s t := by
  have hi : ∀ rest s, R s (takeInput rest s) := fun rest s => (hR [] [] []).trans (hp rest s) ((hR [] [] []).advance 0 _)
  unfold step at h
  split at h
  · cases h
  split at h
  · cases h; exact (hR [] [] []).advance 0 s
  · exact (hR [] [] []).trans (hi _ s) (he _ _ _ _ _ _ h)
  all_goals
    obtain ⟨i, -, h⟩ := next_runDelivered h
    exact (hR [] [] []).trans (hi _ s) (keeps_exec (hR _ _ _) h)

end Sys2Proof.Machine
end

