-- ==== Sys2Proof/Laws/PerInstr.lean ====
section
/-! SUPPORT. Statements about every instruction as syntax, one lemma per constructor. Family `HeaderForm`: the bytes that
deliver an instruction begin with a header that the decoder knows, and a header that says "bus word" is a bus word's. -/

namespace Sys2Proof.Laws

/-- The header of the bytes that deliver an instruction: the way is 0, 1 or 2, and 2 exactly for a bus word (log 2). -/
def HeaderForm.Statement (i : Instr) : Prop :=
  ∃ low high rest, encode i = low :: high :: rest ∧ headerWay high ≤ 2 ∧ (headerWay high = 2 ↔ i.kind = .busWord)

theorem headerForm_header {i : Instr} {way : Nat} {key : BitVec 9} {rest : List Byte} (he : encode i = header way key ++ rest)
    (hw : way ≤ 2) (hk : way = 2 ↔ i.kind = .busWord) : HeaderForm.Statement i := by
  have hkey : key.toNat / 256 < 2 := by have := key.isLt; omega
  have hway : headerWay (BitVec.ofNat 8 (2 * way + key.toNat / 256)) = way := by
    simp only [headerWay, BitVec.toNat_ofNat]; omega
  exact ⟨_, _, rest, he, by rw [hway]; exact hw, by rw [hway]; exact hk⟩

theorem HeaderForm.create (rs en d4 d5 d6 d7 : Byte) : HeaderForm.Statement (.create rs en d4 d5 d6 d7) :=
  headerForm_header rfl (by decide) (by simp [Instr.kind])
theorem HeaderForm.begin (columns rows : Byte) : HeaderForm.Statement (.begin columns rows) :=
  headerForm_header rfl (by decide) (by simp [Instr.kind])
theorem HeaderForm.clear : HeaderForm.Statement .clear :=
  headerForm_header (rest := []) rfl (by decide) (by simp [Instr.kind])
theorem HeaderForm.home : HeaderForm.Statement .home :=
  headerForm_header (rest := []) rfl (by decide) (by simp [Instr.kind])
theorem HeaderForm.setCursor (col row : Byte) : HeaderForm.Statement (.setCursor col row) :=
  headerForm_header rfl (by decide) (by simp [Instr.kind])
theorem HeaderForm.write (c : Byte) : HeaderForm.Statement (.write c) :=
  headerForm_header rfl (by decide) (by simp [Instr.kind])
theorem HeaderForm.print (s : List Byte) : HeaderForm.Statement (.print s) :=
  headerForm_header (rest := s) rfl (by decide) (by simp [Instr.kind])
theorem HeaderForm.display : HeaderForm.Statement .display :=
  headerForm_header (rest := []) rfl (by decide) (by simp [Instr.kind])
theorem HeaderForm.noDisplay : HeaderForm.Statement .noDisplay :=
  headerForm_header (rest := []) rfl (by decide) (by simp [Instr.kind])
theorem HeaderForm.cursor : HeaderForm.Statement .cursor :=
  headerForm_header (rest := []) rfl (by decide) (by simp [Instr.kind])
theorem HeaderForm.noCursor : HeaderForm.Statement .noCursor :=
  headerForm_header (rest := []) rfl (by decide) (by simp [Instr.kind])
theorem HeaderForm.blink : HeaderForm.Statement .blink :=
  headerForm_header (rest := []) rfl (by decide) (by simp [Instr.kind])
theorem HeaderForm.noBlink : HeaderForm.Statement .noBlink :=
  headerForm_header (rest := []) rfl (by decide) (by simp [Instr.kind])
theorem HeaderForm.scrollDisplayLeft : HeaderForm.Statement .scrollDisplayLeft :=
  headerForm_header (rest := []) rfl (by decide) (by simp [Instr.kind])
theorem HeaderForm.scrollDisplayRight : HeaderForm.Statement .scrollDisplayRight :=
  headerForm_header (rest := []) rfl (by decide) (by simp [Instr.kind])
theorem HeaderForm.autoscroll : HeaderForm.Statement .autoscroll :=
  headerForm_header (rest := []) rfl (by decide) (by simp [Instr.kind])
theorem HeaderForm.noAutoscroll : HeaderForm.Statement .noAutoscroll :=
  headerForm_header (rest := []) rfl (by decide) (by simp [Instr.kind])
theorem HeaderForm.createChar (slot : Byte) (rows : List Byte) : HeaderForm.Statement (.createChar slot rows) :=
  headerForm_header rfl (by decide) (by simp [Instr.kind])
theorem HeaderForm.resolve (n : Byte) : HeaderForm.Statement (.resolve n) :=
  headerForm_header rfl (by decide) (by simp [Instr.kind])
theorem HeaderForm.set (pin : Pin) (level : Bool) : HeaderForm.Statement (.set pin level) :=
  headerForm_header rfl (by decide) (by simp [Instr.kind])
theorem HeaderForm.setDirection (pin : Pin) (mode : Mode) : HeaderForm.Statement (.setDirection pin mode) :=
  headerForm_header rfl (by decide) (by simp [Instr.kind])
theorem HeaderForm.sample (pin : Pin) : HeaderForm.Statement (.sample pin) :=
  headerForm_header rfl (by decide) (by simp [Instr.kind])
theorem HeaderForm.delayUs (n : Nat) : HeaderForm.Statement (.delayUs n) :=
  headerForm_header rfl (by decide) (by simp [Instr.kind])
theorem HeaderForm.delayMs (n : Nat) : HeaderForm.Statement (.delayMs n) :=
  headerForm_header rfl (by decide) (by simp [Instr.kind])
theorem HeaderForm.pulseEnable : HeaderForm.Statement .pulseEnable :=
  headerForm_header (rest := []) rfl (by decide) (by simp [Instr.kind])
theorem HeaderForm.writeNibble (v : Byte) : HeaderForm.Statement (.writeNibble v) :=
  headerForm_header rfl (by decide) (by simp [Instr.kind])
theorem HeaderForm.transferByte (v : Byte) (rs : Bool) : HeaderForm.Statement (.transferByte v rs) :=
  headerForm_header rfl (by decide) (by simp [Instr.kind])
theorem HeaderForm.command (v : Byte) : HeaderForm.Statement (.command v) :=
  headerForm_header rfl (by decide) (by simp [Instr.kind])
theorem HeaderForm.data (v : Byte) : HeaderForm.Statement (.data v) :=
  headerForm_header rfl (by decide) (by simp [Instr.kind])
theorem HeaderForm.readBusy : HeaderForm.Statement .readBusy :=
  headerForm_header (rest := []) rfl (by decide) (by simp [Instr.kind])
theorem HeaderForm.b1ClearDisplay : HeaderForm.Statement .b1ClearDisplay :=
  headerForm_header (rest := []) rfl (by decide) (by simp [Instr.kind])
theorem HeaderForm.b2ReturnHome : HeaderForm.Statement .b2ReturnHome :=
  headerForm_header (rest := []) rfl (by decide) (by simp [Instr.kind])
theorem HeaderForm.b3EntryModeSet (i s : Bool) : HeaderForm.Statement (.b3EntryModeSet i s) :=
  headerForm_header (rest := []) rfl (by decide) (by simp [Instr.kind])
theorem HeaderForm.b4DisplayControl (d c b : Bool) : HeaderForm.Statement (.b4DisplayControl d c b) :=
  headerForm_header (rest := []) rfl (by decide) (by simp [Instr.kind])
theorem HeaderForm.b5CursorDisplayShift (s r : Bool) : HeaderForm.Statement (.b5CursorDisplayShift s r) :=
  headerForm_header (rest := []) rfl (by decide) (by simp [Instr.kind])
theorem HeaderForm.b6FunctionSet (l n f : Bool) : HeaderForm.Statement (.b6FunctionSet l n f) :=
  headerForm_header (rest := []) rfl (by decide) (by simp [Instr.kind])
theorem HeaderForm.b7SetCgramAddress (a : BitVec 6) : HeaderForm.Statement (.b7SetCgramAddress a) :=
  headerForm_header (rest := []) rfl (by decide) (by simp [Instr.kind])
theorem HeaderForm.b8SetDdramAddress (a : BitVec 7) : HeaderForm.Statement (.b8SetDdramAddress a) :=
  headerForm_header (rest := []) rfl (by decide) (by simp [Instr.kind])
theorem HeaderForm.b9WriteData (d : Byte) : HeaderForm.Statement (.b9WriteData d) :=
  headerForm_header (rest := []) rfl (by decide) (by simp [Instr.kind])

end Sys2Proof.Laws
end

