-- ==== Sys2Proof/Tests/Slice0.lean ====
section
/-! SUPPORT. The model's own tests: ill-formed terms, words written out from the spec's encodings, one step of each
instruction against the vectors of spec/95_test_vectors.md (named V, F and P there), and a witness for the hypotheses
of each statement. -/

namespace Sys2Proof.Tests

open Sys2Proof.Machine

/-! ### Ill-formed terms (R115) -/

theorem test_ill_formed_print : (Instr.print [0x48, 0x69]).wellFormed = false := by decide
theorem test_ill_formed_print_empty_list : (Instr.print []).defect = some .stringNotTerminated := by decide
theorem test_ill_formed_createChar_seven :
    (Instr.createChar 2 [0, 1, 2, 3, 4, 5, 6]).defect = some .glyphRowsNotEight := by decide
theorem test_ill_formed_createChar_nine :
    (Instr.createChar 2 [0, 1, 2, 3, 4, 5, 6, 7, 8]).wellFormed = false := by decide
theorem test_well_formed_print : (Instr.print [0x48, 0x69, 0x00]).wellFormed = true := by decide

/-! ### Small states -/

/-- The handle `create(12, 11, 5, 4, 3, 2)` makes: wiring W1 of spec/95 section 0. -/
def madeW1 : Handle where
  rs := ⟨.b, 4⟩
  en := ⟨.b, 3⟩
  d4 := ⟨.d, 5⟩
  d5 := ⟨.d, 4⟩
  d6 := ⟨.d, 3⟩
  d7 := ⟨.d, 2⟩
  functionFlags := none
  controlFlags := none
  entryFlags := none
  lineCount := none
  currentLine := none

/-- W1 after `begin(16, n)` with the flag bytes given (V9, V10). -/
def w1 (n c e : Byte) : Handle :=
  { madeW1 with functionFlags := some (if 2 ≤ n.toNat then 0x08 else 0x00), controlFlags := some c,
                entryFlags := some e, lineCount := some n, currentLine := some 0 }

/-- W1 after `begin(16, 2)`. -/
def w2 : Handle := w1 2 0x04 0x02

/-- After `create(12, 11, 5, 4, 3, 2)` from S0, without its trace (V11). -/
def constructed : State :=
  { State.reset with mem := [(0x24, 0x18), (0x2A, 0x3C)], handle := some madeW1, phase := .constructed }

/-- Ready with a handle and the registers after `begin(16, 2)`, without a trace (V9). -/
def readyWith (h : Handle) : State :=
  { State.reset with mem := [(0x24, 0x18), (0x2A, 0x3C), (0x2B, 0x18)], handle := some h, phase := .ready }

/-- The state after `begin(16, 2)`. -/
def ready : State := readyWith w2

/-- The same with RS made an input. -/
def readyRsInput : State := { ready with mem := [(0x24, 0x08), (0x2A, 0x3C), (0x2B, 0x18)] }

/-- The same with Enable made an input. -/
def readyEnInput : State := { ready with mem := [(0x24, 0x10), (0x2A, 0x3C), (0x2B, 0x18)] }

/-- Wiring of V18: Enable is on D4's bit. -/
def enOnD4 : State := readyWith { w2 with en := ⟨.d, 5⟩ }

/-- A wiring with RS on D4's bit. -/
def rsOnD4 : State := readyWith { w2 with rs := ⟨.d, 5⟩ }

/-- A state that has raised a fault. -/
def faulted : State := raise (.noHandle .begin) State.reset

/-- The next state, if the outcome is one. -/
def after : Host.Outcome State Fault Refusal → Option State
  | .next t => some t
  | _ => none

/-- The bytes a command puts on the bus from a Ready state. -/
def sentFrom (s : State) (i : Instr) : Option (List (BitVec 9)) :=
  match exec i s with
  | .next t => pairWords (latchedBetween madeW1 s t)
  | _ => none

/-- The two flag bytes a command leaves. -/
def flagsFrom (s : State) (i : Instr) : Option (Option Byte × Option Byte) :=
  (after (exec i s)).bind fun t => t.handle.map fun h => (h.controlFlags, h.entryFlags)

/-- The events of one instruction, from a state without a trace. -/
def eventsOf (s : State) (i : Instr) : Option (List EventKind) := (after (exec i s)).map fun t => t.trace.map Event.kind

/-- The fault an outcome leaves. -/
def faultOf (o : Host.Outcome State Fault Refusal) : Option FaultRecord := (after o).bind fun t => t.fault

/-- A level written on a pin, with the new byte, by the block. -/
def pinWrite (p : Port) (b : BitIdx) (l : Bool) (v : Byte) : EventKind := .pinWrite p (some (b, l)) v .block

/-- A direction written on a pin, with the new byte, by the block. -/
def dirWrite (p : Port) (b : BitIdx) (m : Mode) (v : Byte) : EventKind := .dirWrite p (some (b, m)) v .block

/-! ### Encodings: words written out bit by bit from R102, R103 and R105 -/

theorem test_word_b1 : decodeBusWord 0b000000001#9 = some .b1ClearDisplay := by decide
theorem test_word_b2 : decodeBusWord 0b000000010#9 = some .b2ReturnHome := by decide
theorem test_word_b3 : decodeBusWord 0b000000110#9 = some (.b3EntryModeSet true false) := by decide
theorem test_word_b4 : decodeBusWord 0b000001110#9 = some (.b4DisplayControl true true false) := by decide
theorem test_word_b5 : decodeBusWord 0b000011100#9 = some (.b5CursorDisplayShift true true) := by decide
theorem test_word_b6 : decodeBusWord 0b000101000#9 = some (.b6FunctionSet false true false) := by decide
theorem test_word_b7 : decodeBusWord 0b001010000#9 = some (.b7SetCgramAddress 0b010000#6) := by decide
theorem test_word_b8 : decodeBusWord 0b011000011#9 = some (.b8SetDdramAddress 0b1000011#7) := by decide
theorem test_word_b9 : decodeBusWord 0b101001000#9 = some (.b9WriteData 0x48) := by decide
theorem test_word_of_no_row : decodeBusWord 0b000000000#9 = none ∧ decodeBusWord 0b000010001#9 = none := by decide
theorem test_emitted_words :
    emittedWord 0x006#9 = true ∧ emittedWord 0x005#9 = false ∧ emittedWord 0x010#9 = false ∧
      emittedWord 0x038#9 = false ∧ emittedWord 0x041#9 = false ∧ emittedWord 0x048#9 = true := by decide

/-! The delivered form (log 2): the header's low byte, its high byte, the operands. -/

theorem test_decode_create :
    decode [0x00, 0x02, 12, 11, 5, 4, 3, 2] = .ok (.create 12 11 5 4 3 2) := by decide
theorem test_decode_begin : decode [0x03, 0x00, 16, 2] = .ok (.begin 16 2) := by decide
theorem test_decode_clear : decode [0x01, 0x00] = .ok .clear := by decide
theorem test_decode_home : decode [0x02, 0x00] = .ok .home := by decide
theorem test_decode_setCursor : decode [0x80, 0x00, 3, 1] = .ok (.setCursor 3 1) := by decide
theorem test_decode_write : decode [0x00, 0x01, 0x41] = .ok (.write 0x41) := by decide
theorem test_decode_print : decode [0x06, 0x02, 0x48, 0x69, 0x00] = .ok (.print [0x48, 0x69, 0x00]) := by decide
theorem test_decode_display : decode [0x0C, 0x00] = .ok .display := by decide
theorem test_decode_noDisplay : decode [0x08, 0x00] = .ok .noDisplay := by decide
theorem test_decode_cursor : decode [0x0A, 0x00] = .ok .cursor := by decide
theorem test_decode_noCursor : decode [0x0A, 0x02] = .ok .noCursor := by decide
theorem test_decode_blink : decode [0x09, 0x00] = .ok .blink := by decide
theorem test_decode_noBlink : decode [0x0C, 0x02] = .ok .noBlink := by decide
theorem test_decode_scrollDisplayLeft : decode [0x18, 0x00] = .ok .scrollDisplayLeft := by decide
theorem test_decode_scrollDisplayRight : decode [0x1C, 0x00] = .ok .scrollDisplayRight := by decide
theorem test_decode_autoscroll : decode [0x07, 0x00] = .ok .autoscroll := by decide
theorem test_decode_noAutoscroll : decode [0x06, 0x00] = .ok .noAutoscroll := by decide
theorem test_decode_createChar :
    decode [0x40, 0x00, 2, 0x00, 0x0A, 0x1F, 0x1F, 0x0E, 0x04, 0x00, 0x00] =
      .ok (.createChar 2 [0x00, 0x0A, 0x1F, 0x1F, 0x0E, 0x04, 0x00, 0x00]) := by decide
theorem test_decode_resolve : decode [18, 0x02, 10] = .ok (.resolve 10) := by decide
theorem test_decode_set : decode [19, 0x02, 0x15, 1] = .ok (.set ⟨.d, 5⟩ true) := by decide
theorem test_decode_setDirection : decode [20, 0x02, 0x09, 0] = .ok (.setDirection ⟨.c, 1⟩ .input) := by decide
theorem test_decode_sample : decode [21, 0x02, 0x07] = .ok (.sample ⟨.b, 7⟩) := by decide
theorem test_decode_delayUs : decode [22, 0x02, 0x2C, 0x01] = .ok (.delayUs 300) := by decide
theorem test_decode_delayMs : decode [23, 0x02, 50] = .ok (.delayMs 50) := by decide
theorem test_decode_pulseEnable : decode [24, 0x02] = .ok .pulseEnable := by decide
theorem test_decode_writeNibble : decode [25, 0x02, 0x0A] = .ok (.writeNibble 0x0A) := by decide
theorem test_decode_transferByte : decode [26, 0x02, 0xAB, 0] = .ok (.transferByte 0xAB false) := by decide
theorem test_decode_command : decode [27, 0x02, 0x01] = .ok (.command 0x01) := by decide
theorem test_decode_data : decode [28, 0x02, 0x41] = .ok (.data 0x41) := by decide
theorem test_decode_readBusy : decode [29, 0x02] = .ok .readBusy := by decide
theorem test_decode_b1 : decode [0x01, 0x04] = .ok .b1ClearDisplay := by decide
theorem test_decode_b2 : decode [0x02, 0x04] = .ok .b2ReturnHome := by decide
theorem test_decode_b3 : decode [0x07, 0x04] = .ok (.b3EntryModeSet true true) := by decide
theorem test_decode_b4 : decode [0x0D, 0x04] = .ok (.b4DisplayControl true false true) := by decide
theorem test_decode_b5 : decode [0x18, 0x04] = .ok (.b5CursorDisplayShift true false) := by decide
theorem test_decode_b6 : decode [0x34, 0x04] = .ok (.b6FunctionSet true false true) := by decide
theorem test_decode_b7 : decode [0x78, 0x04] = .ok (.b7SetCgramAddress 0x38#6) := by decide
theorem test_decode_b8 : decode [0xD4, 0x04] = .ok (.b8SetDdramAddress 0x54#7) := by decide
theorem test_decode_b9 : decode [0xFF, 0x05] = .ok (.b9WriteData 0xFF) := by decide
theorem test_decode_refusals :
    decode [] = .error .tooShort ∧ decode [0x00, 0x00] = .error .unknownWord ∧
      decode [30, 0x02] = .error .unknownRow ∧ decode [0x01, 0x06] = .error .unknownHeader ∧
      decode [19, 0x02, 24, 1] = .error .badPin ∧ decode [19, 0x02, 0, 2] = .error .badBit := by decide

/-! The rows of the opcode table, by their own words. -/

theorem test_table_clear : decodeTableWord 9 0x001 = some .clear := by decide
theorem test_table_begin : decodeTableWord 5 0x03 = some (.begin 0 0) := by decide
theorem test_table_set_cursor : decodeTableWord 9 0x080 = some (.setCursor 0 0) := by decide
theorem test_table_b8 : decodeTableWord 9 0x0C3 = some (.b8SetDdramAddress 0x43#7) := by decide

/-- A word delivered is what the next step runs: from reset `clear` faults NoHandle (R230). -/
theorem test_step_runs_word :
    faultOf (step (State.reset.withFetchWord 9 0x001)) = some (.noHandle .clear) := by decide

/-- The host can issue no primitive and no bus word (R111, R115); a bench runs them (log 1). -/
theorem test_host_issues_host_operations_only :
    step { State.reset with pending := [.call [27, 0x02, 0x00]] } = .refused (.undecodable .notHostOperation) ∧
      step { State.reset with pending := [.call [0x04, 0x00]] } = .refused (.undecodable .notHostOperation) ∧
      faultOf (step { State.reset with pending := [.bench [27, 0x02, 0x00]] }) = some (.noHandle .command) :=
  ⟨rfl, rfl, by decide⟩
/-- A word of a bus-word row only is delivered by a bench, and runs. -/
theorem test_step_runs_bus_word :
    faultOf (step (State.reset.withFetchWord 9 0x0C3)) = some (.noHandle .b8SetDdramAddress) := by decide

/-! The written form (R119), as spec/95 writes its programs. -/

theorem test_text_set_cursor : parseCall (ascii "set_cursor(3, 1)") = .ok (.setCursor 3 1) := by decide
theorem test_text_create :
    parseCall (ascii "create(12, 11, 5, 4, 3, 2)") = .ok (.create 12 11 5 4 3 2) := by decide
theorem test_text_print : parseCall (ascii "print(\"Hi\")") = .ok (.print [0x48, 0x69, 0x00]) := by decide
theorem test_text_createChar :
    parseCall (ascii "createChar(2, [0x00, 0x0A, 0x1F, 0x1F, 0x0E, 0x04, 0x00, 0x00])") =
      .ok (.createChar 2 [0x00, 0x0A, 0x1F, 0x1F, 0x0E, 0x04, 0x00, 0x00]) := by decide
theorem test_text_home : parseCall (ascii "home()") = .ok .home := by decide
theorem test_text_refused :
    parseCall (ascii "write(256)") = .error .badText ∧ parseCall (ascii "fly()") = .error .badText ∧
      parseCall (ascii "write(0x)") = .error .badText := by decide

/-! ### One step of each instruction -/

/-- V11. -/
theorem test_create :
    eventsOf State.reset (.create 12 11 5 4 3 2) = some [
      dirWrite .b 4 .output 0x10, dirWrite .b 3 .output 0x18, dirWrite .d 5 .output 0x20, dirWrite .d 4 .output 0x30,
      dirWrite .d 3 .output 0x38, dirWrite .d 2 .output 0x3C] := by decide
/-- V11. -/
theorem test_create_handle :
    ((after (exec (.create 12 11 5 4 3 2) State.reset)).map fun t => (t.phase, t.handle, t.mem)) =
      some (.constructed, some madeW1, [(0x24, 0x18), (0x2A, 0x3C)]) := by decide
set_option maxRecDepth 20000 in
/-- V9: the twelve latched words. -/
theorem test_begin :
    ((after (exec (.begin 16 2) constructed)).map fun t => latchedBetween madeW1 constructed t) =
      some ([0x3, 0x3, 0x3, 0x2, 0x2, 0x8, 0x0, 0xC, 0x0, 0x1, 0x0, 0x6].map (nibbleLatch false)) := by decide
set_option maxRecDepth 20000 in
/-- V9: the end state. -/
theorem test_begin_end :
    ((after (exec (.begin 16 2) constructed)).map fun t => (t.phase, t.handle, t.mem, t.trace.length)) =
      some (.ready, some w2, [(0x24, 0x18), (0x2A, 0x3C), (0x2B, 0x18)], 90) := by decide
/-- V13. -/
theorem test_clear : sentFrom ready .clear = some [0x001#9] ∧ flagsFrom ready .clear = some (some 0x04, some 0x02) := by
  decide
/-- F5. -/
theorem test_clear_not_ready : faultOf (exec .clear constructed) = some (.notReady .clear) := by decide
/-- V13. -/
theorem test_home : sentFrom ready .home = some [0x002#9] := by decide
/-- V12: (19, 3) with four lines, (0, 1) with one, (0x70, 1) with two. -/
theorem test_setCursor :
    sentFrom (readyWith (w1 4 0x04 0x02)) (.setCursor 19 3) = some [0x0E7#9] ∧
      sentFrom (readyWith (w1 1 0x04 0x02)) (.setCursor 0 1) = some [0x080#9] ∧
      sentFrom ready (.setCursor 0x70 1) = some [0x0B0#9] := by decide
/-- F3 and F4. -/
theorem test_setCursor_out_of_range :
    faultOf (exec (.setCursor 0 0) (readyWith (w1 0 0x04 0x02))) = some (.rowOffsetOutOfRange 255) ∧
      faultOf (exec (.setCursor 2 4) (readyWith (w1 5 0x04 0x02))) = some (.rowOffsetOutOfRange 4) := by decide
/-- V13. -/
theorem test_write : sentFrom ready (.write 0x41) = some [0x141#9] ∧ sentFrom ready (.write 0xFF) = some [0x1FF#9] := by
  decide
/-- V16. -/
theorem test_print : sentFrom ready (.print [0x41, 0x00, 0x42, 0x00]) = some [0x141#9] := by decide
/-- V16: the empty string. -/
theorem test_print_empty : eventsOf ready (.print [0x00]) = some [] := by decide
/-- V13 and P3. -/
theorem test_display :
    sentFrom (readyWith (w1 1 0x03 0x02)) .display = some [0x00F#9] ∧
      flagsFrom (readyWith (w1 1 0x03 0x02)) .display = some (some 0x07, some 0x02) := by decide
/-- V14. -/
theorem test_noDisplay :
    sentFrom (readyWith (w1 2 0x07 0x02)) .noDisplay = some [0x00B#9] ∧
      flagsFrom (readyWith (w1 2 0x07 0x02)) .noDisplay = some (some 0x03, some 0x02) := by decide
/-- V14: from 0x06 the cursor bit stays set. -/
theorem test_cursor :
    sentFrom (readyWith (w1 2 0x06 0x02)) .cursor = some [0x00E#9] ∧
      flagsFrom (readyWith (w1 2 0x06 0x02)) .cursor = some (some 0x06, some 0x02) := by decide
/-- V14. -/
theorem test_noCursor :
    sentFrom (readyWith (w1 2 0x07 0x02)) .noCursor = some [0x00D#9] ∧
      flagsFrom (readyWith (w1 2 0x07 0x02)) .noCursor = some (some 0x05, some 0x02) := by decide
/-- V13. -/
theorem test_blink : sentFrom ready .blink = some [0x00D#9] ∧ flagsFrom ready .blink = some (some 0x05, some 0x02) := by
  decide
/-- V14. -/
theorem test_noBlink :
    sentFrom (readyWith (w1 2 0x07 0x02)) .noBlink = some [0x00E#9] ∧
      flagsFrom (readyWith (w1 2 0x07 0x02)) .noBlink = some (some 0x06, some 0x02) := by decide
/-- V13. -/
theorem test_scrollDisplayLeft : sentFrom ready .scrollDisplayLeft = some [0x018#9] := by decide
/-- V13. -/
theorem test_scrollDisplayRight : sentFrom ready .scrollDisplayRight = some [0x01C#9] := by decide
/-- V13. -/
theorem test_autoscroll :
    sentFrom ready .autoscroll = some [0x007#9] ∧ flagsFrom ready .autoscroll = some (some 0x04, some 0x03) := by decide
/-- P3. -/
theorem test_noAutoscroll :
    sentFrom (readyWith (w1 1 0x05 0x03)) .noAutoscroll = some [0x006#9] ∧
      flagsFrom (readyWith (w1 1 0x05 0x03)) .noAutoscroll = some (some 0x05, some 0x02) := by decide
set_option maxRecDepth 20000 in
/-- V15. -/
theorem test_createChar :
    sentFrom ready (.createChar 2 [0x00, 0x0A, 0x1F, 0x1F, 0x0E, 0x04, 0x00, 0x00]) =
      some [0x050#9, 0x100#9, 0x10A#9, 0x11F#9, 0x11F#9, 0x10E#9, 0x104#9, 0x100#9, 0x100#9] := by decide
set_option maxRecDepth 20000 in
/-- V15: slot 9, and a row byte of 0xFF. -/
theorem test_createChar_slot :
    (sentFrom ready (.createChar 9 [0xFF, 0, 0, 0, 0, 0, 0, 0])).map (List.take 2) = some [0x048#9, 0x1FF#9] := by decide
/-- V1. -/
theorem test_resolve :
    [0, 7, 8, 10, 13, 14, 19, 20, 100, 255].map resolvePin =
      [⟨.d, 0⟩, ⟨.d, 7⟩, ⟨.b, 0⟩, ⟨.b, 2⟩, ⟨.b, 5⟩, ⟨.c, 0⟩, ⟨.c, 5⟩, ⟨.d, 0⟩, ⟨.d, 0⟩, ⟨.d, 0⟩] := by decide
theorem test_resolve_gives_back :
    ((after (exec (.resolve 10) State.reset)).map fun t => t.returned) = some (some (.pin ⟨.b, 2⟩)) := by decide
/-- V2: `PORT(D)` = 0x18, D2 driven high. -/
theorem test_set : eventsOf ready (.set ⟨.d, 2⟩ true) = some [pinWrite .d 2 true 0x1C] := by decide
/-- V2: an input pin. -/
theorem test_set_input : faultOf (exec (.set ⟨.d, 5⟩ true) State.reset) = some (.pinNotOutput ⟨.d, 5⟩) := by decide
/-- V3. -/
theorem test_setDirection : eventsOf State.reset (.setDirection ⟨.b, 1⟩ .output) = some [dirWrite .b 1 .output 0x02] := by
  decide
/-- V3: `DDR(D)` = 0x3C, D5 made an input. -/
theorem test_setDirection_input : eventsOf ready (.setDirection ⟨.d, 5⟩ .input) = some [dirWrite .d 5 .input 0x1C] := by
  decide
/-- V4: one event, and PORT and DDR untouched. -/
theorem test_sample :
    ((after (exec (.sample ⟨.d, 7⟩) ready)).map fun t => (t.trace.length, t.mem)) = some (1, ready.mem) := by decide
/-- V5: no event. -/
theorem test_delayUs : eventsOf ready (.delayUs 100) = some [] := by decide
/-- V5: no event. -/
theorem test_delayMs : eventsOf ready (.delayMs 50) = some [] := by decide
/-- V7: with RS high `PORT(B)` = 0x10, 0x18, 0x10. -/
theorem test_pulseEnable :
    eventsOf { ready with mem := [(0x24, 0x18), (0x25, 0x10), (0x2A, 0x3C)] } .pulseEnable =
      some [pinWrite .b 3 false 0x10, pinWrite .b 3 true 0x18, pinWrite .b 3 false 0x10] := by decide
/-- V7: bits 7:4 are ignored. -/
theorem test_writeNibble :
    eventsOf ready (.writeNibble 0xFA) = some [
      pinWrite .d 5 false 0x18, pinWrite .d 4 true 0x18, pinWrite .d 3 false 0x10, pinWrite .d 2 true 0x14,
      pinWrite .b 3 false 0x00, pinWrite .b 3 true 0x08, pinWrite .b 3 false 0x00] := by decide
/-- V6. -/
theorem test_transferByte :
    eventsOf ready (.transferByte 0xAB false) = some [
      pinWrite .b 4 false 0x00,
      pinWrite .d 5 false 0x18, pinWrite .d 4 true 0x18, pinWrite .d 3 false 0x10, pinWrite .d 2 true 0x14,
      pinWrite .b 3 false 0x00, pinWrite .b 3 true 0x08, pinWrite .b 3 false 0x00,
      pinWrite .d 5 true 0x34, pinWrite .d 4 true 0x34, pinWrite .d 3 false 0x34, pinWrite .d 2 true 0x34,
      pinWrite .b 3 false 0x00, pinWrite .b 3 true 0x08, pinWrite .b 3 false 0x00] := by decide
/-- L1.2: the two latched words, RS low. -/
theorem test_transferByte_latches :
    ((after (exec (.transferByte 0xAB false) ready)).map fun t => latchedBetween w2 ready t) =
      some [⟨some false, some true, some false, some true, some false⟩,
        ⟨some false, some true, some false, some true, some true⟩] := by decide
/-- R173. -/
theorem test_command : sentFrom ready (.command 0xC3) = some [0x0C3#9] := by decide
/-- R173. -/
theorem test_data : sentFrom ready (.data 0xC3) = some [0x1C3#9] := by decide
/-- V17: the writes around the two reads, and the end registers. -/
theorem test_readBusy :
    ((eventsOf ready .readBusy).map fun es => (es.length, es.take 6, es.drop 16)) = some (21,
      [dirWrite .d 5 .input 0x1C, dirWrite .d 4 .input 0x0C, dirWrite .d 3 .input 0x04, dirWrite .d 2 .input 0x00,
        pinWrite .b 4 false 0x00, pinWrite .b 3 true 0x08],
      [pinWrite .b 3 false 0x00, dirWrite .d 5 .output 0x20, dirWrite .d 4 .output 0x30, dirWrite .d 3 .output 0x38,
        dirWrite .d 2 .output 0x3C]) := by decide
/-- V18 and F7. -/
theorem test_readBusy_aliased :
    faultOf (exec .readBusy enOnD4) = some (.pinNotOutput ⟨.d, 5⟩) ∧
      (eventsOf enOnD4 .readBusy).map List.length = some 5 := by decide
/-- The words of R102 and R103, each on the bus as it is written there. -/
theorem test_b1 : sentFrom ready .b1ClearDisplay = some [0b000000001#9] := by decide
theorem test_b2 : sentFrom ready .b2ReturnHome = some [0b000000010#9] := by decide
theorem test_b3 : sentFrom ready (.b3EntryModeSet true false) = some [0b000000110#9] := by decide
theorem test_b4 : sentFrom ready (.b4DisplayControl true false true) = some [0b000001101#9] := by decide
theorem test_b5 : sentFrom ready (.b5CursorDisplayShift true false) = some [0b000011000#9] := by decide
theorem test_b6 : sentFrom ready (.b6FunctionSet false true false) = some [0b000101000#9] := by decide
theorem test_b7 : sentFrom ready (.b7SetCgramAddress 0b010000#6) = some [0b001010000#9] := by decide
theorem test_b8 : sentFrom ready (.b8SetDdramAddress 0b1000011#7) = some [0b011000011#9] := by decide
theorem test_b9 : sentFrom ready (.b9WriteData 0x69) = some [0b101101001#9] := by decide

/-! Faults out of order: F1, F2, F6. -/

theorem test_begin_no_handle : faultOf (exec (.begin 16 2) State.reset) = some (.noHandle .begin) := by decide
theorem test_create_twice :
    faultOf (exec (.create 12 11 5 4 3 2) constructed) = some (.alreadyCreated .constructed) := by decide
theorem test_begin_twice : faultOf (exec (.begin 16 2) ready) = some (.beginTwice .ready) := by decide

/-- P5: the environment write sets bit 0 of `PORT(D)` and is recorded with origin env. -/
theorem test_env_write :
    ((after (step { ready with pending := [.envWrite .data .d 0x01 0x01] })).map fun t =>
      (t.port .d, t.trace.map Event.kind)) = some (0x19, [.pinWrite .d none 0x19 .env]) := by decide

/-! ### Witnesses: a concrete state and operands that meet the hypotheses of each statement, for each clause -/

/-- A state whose next input is this one. -/
def withInput (e : HostEvent) (s : State) : State := { s with pending := [e] }

/-- Constructed with D7's direction bit made 0. -/
def constructedD7Input : State := { constructed with mem := [(0x24, 0x18), (0x2A, 0x38)] }

/-- The state after `begin(16, 2)`, with its trace. -/
def begun : State := (after (exec (.begin 16 2) constructed)).getD State.reset

theorem witness_RaisedFaultEndsTheRun : faulted.phase = .faulted ∧ Instr.clear.wellFormed = true := by decide
theorem witness_StepRunsDeliveredInstruction :
    ready.phase ≠ .faulted ∧ (withInput (.call [0x01, 0x00]) ready).pending = .call [0x01, 0x00] :: [] ∧
      delivered (.call [0x01, 0x00]) = some (.ok .clear) ∧
      delivered (.text (ascii "home()")) = some (.ok .home) ∧ delivered (.call []) = some (.error .tooShort) := by decide
theorem witness_IdleStepOnlyPassesTime : State.reset.phase ≠ .faulted ∧ State.reset.pending = [] := by decide
theorem witness_EnvironmentWritesOnlyForeignBits :
    (withInput (.envWrite .data .d 0x01 0x01) ready).phase ≠ .faulted ∧ touchesHandle ready .d 0x01 = false ∧
      touchesHandle ready .d 0x20 = true ∧ touchesHandle ready .c 0xFF = false ∧ touchesHandle ready .b 0x08 = true ∧
      touchesHandle State.reset .d 0xFF = false := by decide
theorem witness_IllFormedOperationsAreRefused :
    (0x00 : Byte) ∉ [(0x48 : Byte), 0x69] ∧ (0x00 : Byte) ∉ ([] : List Byte) ∧ ([] : List Byte).length ≠ 8 ∧
      ([0, 1, 2, 3, 4, 5, 6] : List Byte).length ≠ 8 := by decide
theorem witness_ResolveMapsPinNumbers :
    State.reset.phase ≠ .faulted ∧ (7 : Byte).toNat ≤ 7 ∧ 8 ≤ (8 : Byte).toNat ∧ (13 : Byte).toNat ≤ 13 ∧
      14 ≤ (14 : Byte).toNat ∧ (19 : Byte).toNat ≤ 19 ∧ 20 ≤ (20 : Byte).toNat := by decide
theorem witness_ResolveReachesExactlyTheNamedBits :
    resolvePin 13 = ⟨.b, 5⟩ ∧ reachablePin ⟨.b, 5⟩ = true ∧ reachablePin ⟨.b, 6⟩ = false ∧
      reachablePin ⟨.c, 7⟩ = false ∧ reachablePin ⟨.d, 7⟩ = true := by decide
theorem witness_SetDrivesOneLatchBit :
    ready.phase ≠ .faulted ∧ isOutput ready ⟨.d, 2⟩ = true ∧ isOutput ready ⟨.d, 0⟩ = false := by decide
theorem witness_SetDirectionDrivesOneDirectionBit : ready.phase ≠ .faulted := by decide
theorem witness_SampleRecordsADrawnLevel : ready.phase ≠ .faulted := by decide
theorem witness_DelaysLastAtLeastTheirFigure : ready.phase ≠ .faulted := by decide
theorem witness_PulseEnableStrobesOnce :
    ready.phase ≠ .faulted ∧ ready.handle = some w2 ∧ allOutputs ready (pulseWrites w2) = true ∧
      readyEnInput.phase ≠ .faulted ∧ readyEnInput.handle = some w2 ∧
      allOutputs readyEnInput (pulseWrites w2) = false := by decide
theorem witness_WriteNibblePresentsBitsThenStrobes :
    ready.phase ≠ .faulted ∧ ready.handle = some w2 ∧ allOutputs ready (nibbleWrites w2 0xA) = true ∧
      readyEnInput.handle = some w2 ∧ allOutputs readyEnInput (nibbleWrites w2 0xA) = false := by decide
theorem witness_TransferByteSendsHighNibbleFirst :
    ready.phase ≠ .faulted ∧ ready.handle = some w2 ∧ allOutputs ready (transferWrites w2 0xAB false) = true ∧
      readyRsInput.handle = some w2 ∧ allOutputs readyRsInput (transferWrites w2 0xAB false) = false := by decide
theorem witness_CommandAndDataAreTransfers :
    constructed.phase ≠ .faulted ∧ constructed.handle = some madeW1 ∧
      allOutputs constructed (transferWrites madeW1 0x01 true) = true := by decide
theorem witness_TransfersKeepTheWaits : ready.phase ≠ .faulted ∧ ready.handle = some w2 ∧ driven ready w2 = true := by
  decide
theorem witness_ReadBusyPollsTwoNibbles :
    ready.phase ≠ .faulted ∧ ready.handle = some w2 ∧ isOutput ready w2.rs = true ∧ isOutput ready w2.en = true ∧
      w2.rs ∉ w2.dataPins ∧ w2.en ∉ w2.dataPins := by decide
/-- RS on a data Pin, RS an input, Enable on a data Pin, Enable an input. -/
theorem witness_ReadBusyStopsAtAnInput :
    (rsOnD4.handle = some { w2 with rs := ⟨.d, 5⟩ } ∧ (⟨.d, 5⟩ : Pin) ∈ ({ w2 with rs := ⟨.d, 5⟩ } : Handle).dataPins) ∧
      (readyRsInput.handle = some w2 ∧ isOutput readyRsInput w2.rs = false) ∧
      (enOnD4.handle = some { w2 with en := ⟨.d, 5⟩ } ∧ (⟨.d, 5⟩ : Pin) ∈ ({ w2 with en := ⟨.d, 5⟩ } : Handle).dataPins ∧
        isOutput enOnD4 w2.rs = true ∧ w2.rs ∉ ({ w2 with en := ⟨.d, 5⟩ } : Handle).dataPins) ∧
      (readyEnInput.handle = some w2 ∧ isOutput readyEnInput w2.rs = true ∧ w2.rs ∉ w2.dataPins ∧
        isOutput readyEnInput w2.en = false) := by decide
theorem ready_clean : CleanBus ready w2 := ⟨by decide, by decide⟩
theorem constructed_clean : CleanBus constructed madeW1 := ⟨by decide, by decide⟩
theorem ready_isReady : IsReady ready w2 := ⟨by decide, by decide, by decide⟩
theorem witness_PollLatchesUndrivenData :
    ready.phase ≠ .faulted ∧ ready.handle = some w2 ∧ driven ready w2 = true ∧ CleanBus ready w2 :=
  ⟨by decide, by decide, by decide, ready_clean⟩
theorem witness_PinsNeedAHandle :
    State.reset.phase ≠ .faulted ∧ State.reset.handle = none ∧ Instr.pulseEnable.kind ≠ .hostOperation ∧
      Instr.readBusy.kind ≠ .hostOperation ∧ Instr.b1ClearDisplay.kind ≠ .hostOperation := by decide
theorem witness_BusWordsAreTransfers :
    Instr.b1ClearDisplay.busWord = some 0x001#9 ∧ (Instr.b9WriteData 0xFF).busWord = some 0x1FF#9 ∧
      ready.phase ≠ .faulted ∧ ready.handle = some w2 := by decide
theorem witness_TransferLatchesItsTwoNibbles :
    ready.phase ≠ .faulted ∧ ready.handle = some w2 ∧ driven ready w2 = true ∧ CleanBus ready w2 :=
  ⟨by decide, by decide, by decide, ready_clean⟩
theorem witness_CreateBuildsTheHandle :
    State.reset.phase = .noHandle ∧ constructed.phase ≠ .noHandle ∧ constructed.phase ≠ .faulted := by decide
theorem witness_BeginReachesReady :
    constructed.phase = .constructed ∧ constructed.handle = some madeW1 ∧ driven constructed madeW1 = true := by decide
theorem witness_BeginKeepsTheWaits :
    constructed.phase = .constructed ∧ constructed.handle = some madeW1 ∧ driven constructed madeW1 = true := by decide
theorem witness_BeginStopsAtAnInput :
    constructedD7Input.phase = .constructed ∧ constructedD7Input.handle = some madeW1 ∧
      driven constructedD7Input madeW1 = false := by decide
theorem witness_BeginOutOfOrderFaults :
    State.reset.phase = .noHandle ∧ ready.phase ≠ .noHandle ∧ ready.phase ≠ .constructed ∧ ready.phase ≠ .faulted := by
  decide
theorem witness_BeginLeavesTheLinesAsSpecified :
    constructed.phase = .constructed ∧ constructed.handle = some madeW1 ∧ driven constructed madeW1 = true ∧
      madeW1.pins.Nodup := by decide
theorem witness_BeginLatchesTheInitSequence :
    constructed.phase = .constructed ∧ constructed.handle = some madeW1 ∧ driven constructed madeW1 = true ∧
      CleanBus constructed madeW1 := ⟨by decide, by decide, by decide, constructed_clean⟩
theorem witness_CommandsCheckThePhase :
    isCommand .home = true ∧ (Instr.print [0x00]).wellFormed = true ∧ isCommand (.print [0x00]) = true ∧
      State.reset.phase = .noHandle ∧ constructed.phase = .constructed ∧ ready.phase = .ready ∧
      (after (exec .home ready)).isSome = true := by decide
theorem witness_ClearSendsAndSettles :
    ready.phase = .ready ∧ ready.handle = some w2 ∧ driven ready w2 = true ∧
      allOutputs ready (transferWrites w2 0x01 false) = true ∧
      allOutputs readyRsInput (transferWrites w2 0x01 false) = false := by decide
theorem witness_HomeSendsAndSettles :
    ready.phase = .ready ∧ ready.handle = some w2 ∧ driven ready w2 = true ∧
      allOutputs ready (transferWrites w2 0x02 false) = true ∧
      allOutputs readyRsInput (transferWrites w2 0x02 false) = false := by decide
theorem witness_ClearTwiceLatchesTheSame : IsReady ready w2 ∧ CleanBus ready w2 := ⟨ready_isReady, ready_clean⟩
/-- The clamped row is 0, 1, 2, 3 and above 3; at the edges of the clamp and of the table. -/
theorem witness_SetCursorSendsTheAddress :
    (w1 4 0x04 0x02).lineCount = some 4 ∧ (readyWith (w1 4 0x04 0x02)).handle = some (w1 4 0x04 0x02) ∧
      clampRow 4 0 = 0 ∧ clampRow 4 1 = 1 ∧ clampRow 4 2 = 2 ∧ clampRow 4 3 = 3 ∧ clampRow 4 255 = 3 ∧
      clampRow 1 255 = 0 ∧ 3 < (clampRow 5 4).toNat ∧ 3 < (clampRow 0 0).toNat ∧ (clampRow 5 3) = 3 := by decide
theorem ready_inv (n : Byte) : (readyWith (w1 n 0x04 0x02)).Inv := by
  refine ⟨rfl, rfl, ⟨by simp [readyWith, State.reset], by simp [readyWith, State.reset]⟩,
    by simp [readyWith, State.reset], ?_⟩
  revert n; decide
theorem witness_SetCursorFaultsExactlyOutsideTheTable :
    (readyWith (w1 5 0x04 0x02)).Inv ∧ (readyWith (w1 5 0x04 0x02)).phase = .ready ∧
      (readyWith (w1 5 0x04 0x02)).handle = some (w1 5 0x04 0x02) ∧ (w1 5 0x04 0x02).lineCount = some 5 :=
  ⟨ready_inv 5, by decide, by decide, by decide⟩
theorem witness_WriteSendsTheCharacter :
    ready.phase = .ready ∧ ready.handle = some w2 ∧ allOutputs ready (transferWrites w2 0x41 true) = true ∧
      allOutputs readyRsInput (transferWrites w2 0x41 true) = false := by decide
theorem witness_PrintSendsUpToTheTerminator :
    (0x00 : Byte) ∉ [(0x48 : Byte), 0x69] ∧ (0x00 : Byte) ∉ ([] : List Byte) ∧ ready.phase = .ready ∧
      ready.handle = some w2 ∧
      allOutputs ready ([0x48, 0x69].flatMap fun c => transferWrites w2 c true) = true := by decide
theorem witness_CreateCharSendsNineBytes :
    ([0x00, 0x0A, 0x1F, 0x1F, 0x0E, 0x04, 0x00, 0x00] : List Byte).length = 8 ∧ ready.phase = .ready ∧
      ready.handle = some w2 ∧ allOutputs ready (transferWrites w2 0x50 false) = true := by decide
theorem witness_DisplayControlUpdatesAndSends :
    ready.phase = .ready ∧ ready.handle = some w2 ∧ w2.controlFlags = some 0x04 ∧
      allOutputs ready (transferWrites w2 0x0C false) = true := by decide
theorem witness_CursorThenNoCursor :
    IsReady ready w2 ∧ w2.controlFlags = some 0x04 ∧ (w1 2 0x06 0x02).controlFlags = some 0x06 ∧
      bitOf 0x04 1 = false ∧ bitOf 0x06 1 = true := ⟨ready_isReady, by decide, by decide, by decide, by decide⟩
theorem witness_ScrollSendsTheShift :
    ready.phase = .ready ∧ ready.handle = some w2 ∧ allOutputs ready (transferWrites w2 0x18 false) = true := by decide
theorem witness_AutoscrollUpdatesAndSends :
    ready.phase = .ready ∧ ready.handle = some w2 ∧ w2.entryFlags = some 0x02 ∧
      allOutputs ready (transferWrites w2 0x07 false) = true := by decide
theorem witness_UnsetBytesRaiseUnsetRead :
    (readyWith madeW1).phase = .ready ∧ (readyWith madeW1).handle = some madeW1 ∧ madeW1.lineCount = none ∧
      madeW1.controlFlags = none ∧ madeW1.entryFlags = none := by decide
theorem witness_DecodeInvertsEncode :
    (Instr.print [0x00]).wellFormed = true ∧ (Instr.createChar 255 [0, 1, 2, 3, 4, 5, 6, 7]).wellFormed = true ∧
      (Instr.delayUs 65536).wellFormed = true := by decide
theorem witness_BusWordsHaveOneMeaning :
    decodeBusWord 0x0FF#9 = some (.b8SetDdramAddress 0x7F#7) ∧
      (Instr.b8SetDdramAddress 0x7F#7).busWord = some 0x0FF#9 := by decide
theorem witness_TextIsReadBack :
    (Instr.setCursor 3 255).wellFormed = true ∧
      renderCall ⟨[true, true], true⟩ (.setCursor 3 255) = some (ascii "set_cursor(3, 255)") ∧
      renderCall ⟨[false, true], false⟩ (.setCursor 3 10) = some (ascii "set_cursor(0x03,10)") ∧
      (renderCall ⟨[], false⟩ (.print [0x48, 0x69, 0x00])).isSome = true := by decide
theorem witness_CommandsEmitOnlyListedWords :
    isCommand .home = true ∧ IsReady ready w2 ∧ CleanBus ready w2 ∧ w2.configured = true ∧
      ((after (exec .home ready)).map fun t => t.phase) = some .ready ∧
      commandWords .noCursor w2 = [0x00C#9] ∧ commandWords (.setCursor 3 1) w2 = [0x0C3#9] ∧
      commandWords (.createChar 10 [1, 2, 3, 4, 5, 6, 7, 8]) w2 =
        [0x050#9, 0x101#9, 0x102#9, 0x103#9, 0x104#9, 0x105#9, 0x106#9, 0x107#9, 0x108#9] :=
  ⟨by decide, ready_isReady, ready_clean, by decide, by decide, by decide, by decide, by decide⟩
theorem witness_TimeAndTraceOnlyGrow :
    (after (exec .home ready)).isSome = true ∧ (after (step State.reset)).isSome = true := by decide
theorem witness_OnlyOwnPinsChange :
    (after (exec .home ready)).isSome = true ∧ (⟨.d, 0⟩ : Pin) ∉ mayDrive .home ready ∧
      w2.rs ∉ mayDirect .readBusy ready ∧ (after (exec .readBusy ready)).isSome = true ∧ 0x26 ∉ registerAddrs := by decide
theorem witness_EventsAreOfOwnPins :
    (after (exec .readBusy ready)).isSome = true ∧ maySample .readBusy ready = w2.dataPins ∧
      Instr.home.kind = .hostOperation ∧ (after (exec .home ready)).isSome = true := by decide
theorem witness_HandlePhaseAndFaultFrame :
    (after (exec .cursor ready)).isSome = true ∧ (after (exec (.begin 16 2) constructed)).isSome = true ∧
      (after (exec (.create 12 11 5 4 3 2) State.reset)).isSome = true ∧ givesBack .cursor = false ∧
      ((after (exec .cursor ready)).map fun t => t.phase) = some .ready := by decide
theorem witness_EveryStepKeepsTheInvariant :
    (readyWith (w1 2 0x04 0x02)).Inv ∧ (after (step (readyWith (w1 2 0x04 0x02)))).isSome = true :=
  ⟨ready_inv 2, by decide⟩
theorem witness_HostPlayKeepsPinsDriven :
    (readyWith (w1 2 0x04 0x02)).Inv ∧ ready.pinsDriven = true ∧ ready.hostPlays = true ∧
      (withInput (.call [0x02, 0x00]) ready).hostPlays = true ∧
      (withInput (.envWrite .data .d 0x01 0x01) ready).hostPlays = true ∧
      (after (step (withInput (.call [0x02, 0x00]) ready))).isSome = true :=
  ⟨ready_inv 2, by decide, by decide, by decide, by decide, by decide⟩
theorem witness_RegistersFollowTheTrace :
    ready.mem = replay ready.mem ready.trace ∧ (after (step (withInput (.call [0x02, 0x00]) ready))).isSome = true := by
  decide
theorem witness_BeginPutsFlagsInSync :
    constructed.phase = .constructed ∧ constructed.handle = some madeW1 ∧ driven constructed madeW1 = true ∧
      CleanBus constructed madeW1 ∧ constructed.mem = replay constructed.mem constructed.trace ∧
      latched madeW1 constructed.mem (eventsFrom 0 constructed) = [] :=
  ⟨by decide, by decide, by decide, constructed_clean, by decide, by decide⟩
set_option maxRecDepth 20000 in
theorem begun_ready : begun.phase = .ready ∧ begun.handle = some w2 ∧ driven begun w2 = true ∧
    lineLevel begun.mem w2.en = some false := by decide
set_option maxRecDepth 20000 in
theorem begun_follows : begun.mem = replay constructed.mem begun.trace := by decide
set_option maxRecDepth 20000 in
theorem begun_words : busBytes w2 constructed.mem begun = some [0x028#9, 0x00C#9, 0x001#9, 0x006#9] := by decide
theorem begun_inSync : InSync constructed.mem begun w2 :=
  ⟨⟨begun_ready.1, begun_ready.2.1, begun_ready.2.2.1⟩, ⟨by decide, begun_ready.2.2.2⟩, begun_follows,
    _, begun_words, by decide, by decide, by decide, by decide⟩
theorem inSync_withInput {launch : Memory} {s : State} {h : Handle} (e : HostEvent) (hs : InSync launch s h) :
    InSync launch (withInput e s) h := hs
theorem hostPlays_withInput (e : HostEvent) (s : State) (h : (withInput e State.reset).hostPlays = true) :
    (withInput e s).hostPlays = true := h
/-- The next inputs are `cursor`, an environment write, and none. -/
theorem witness_FlagsStayInSyncWithTheBus :
    InSync constructed.mem (withInput (.call [0x0A, 0x00]) begun) w2 ∧
      (withInput (.call [0x0A, 0x00]) begun).hostPlays = true ∧
      (withInput (.envWrite .data .d 0x01 0x01) begun).hostPlays = true ∧ InSync constructed.mem begun w2 :=
  ⟨inSync_withInput _ begun_inSync, hostPlays_withInput _ _ (by decide), hostPlays_withInput _ _ (by decide),
    begun_inSync⟩
theorem witness_HostIssuesOnlyHostOperations :
    (∀ bytes, HostEvent.call [0x02, 0x00] ≠ .bench bytes) ∧ delivered (.call [0x02, 0x00]) = some (.ok .home) ∧
      delivered (.text (ascii "home()")) = some (.ok .home) ∧
      decode [27, 0x02, 0x00] = .ok (.command 0x00) ∧ (Instr.command 0x00).kind ≠ .hostOperation ∧
      decode [0x04, 0x00] = .ok (.b3EntryModeSet false false) ∧ ready.phase ≠ .faulted ∧
      (withInput (.call [27, 0x02, 0x00]) ready).pending = .call [27, 0x02, 0x00] :: [] ∧
      Instr.home.kind = .hostOperation ∧ Instr.home.wellFormed = true ∧
      (withInput (.call (encode .home)) ready).pending = .call (encode .home) :: [] :=
  ⟨fun _ => by simp, by decide⟩

end Sys2Proof.Tests
end

section
/-! PROOF. A command that reads an unset byte of the handle (R303): the read is its first statement, so nothing is accessed
before the fault. -/

namespace Sys2Proof.Machine

/-- A read of an unset byte raises UnsetRead, whatever would follow it (R303). -/
@[simp] theorem readByte_none (field : HandleByte) (k : Byte → State → Flow) :
    readByte field none k = raiseStep (.unsetRead field) := rfl

theorem setCursorSteps_unset {h : Handle} (hl : h.lineCount = none) (col row : Byte) :
    setCursorSteps h col row = raiseStep (.unsetRead .lineCount) := by
  rw [setCursorSteps, hl, readByte_none]

theorem controlSteps_unset {h : Handle} (hc : h.controlFlags = none) (update : Byte → Byte) :
    controlSteps h update = raiseStep (.unsetRead .controlFlags) := by
  rw [controlSteps, hc, readByte_none]

theorem entrySteps_unset {h : Handle} (he : h.entryFlags = none) (update : Byte → Byte) :
    entrySteps h update = raiseStep (.unsetRead .entryFlags) := by
  rw [entrySteps, he, readByte_none]

/-- A command in Ready whose statements raise a fault at once ends in the state it began in, faulted (R230, R301). -/
theorem runReady_raises {s : State} {h : Handle} {body : Handle → State → Flow} {r : FaultRecord} (op : OpName)
    (hp : s.phase = .ready) (hh : s.handle = some h) (hb : body h = raiseStep r) :
    runReady op s body = .next (raise r s) := by
  rw [runReady_ready op hp hh, hb]
  rfl

/-- Settles O45: each of the nine commands is the shell of R230 around statements that begin with the read. -/
theorem unsetBytesRaiseUnsetRead : Obligations.UnsetBytesRaiseUnsetRead := by
  intro s h hp hh
  refine ⟨fun hl col row => ?lineCount, fun hc => ?controlFlags, fun he => ?entryFlags⟩
  case lineCount => exact runReady_raises .setCursor hp hh (setCursorSteps_unset hl col row)
  case controlFlags =>
    simp only [List.forall_mem_cons, List.not_mem_nil, false_imp_iff, implies_true, and_true]
    exact ⟨runReady_raises .display hp hh (controlSteps_unset hc _),
      runReady_raises .noDisplay hp hh (controlSteps_unset hc _),
      runReady_raises .cursor hp hh (controlSteps_unset hc _),
      runReady_raises .noCursor hp hh (controlSteps_unset hc _),
      runReady_raises .blink hp hh (controlSteps_unset hc _),
      runReady_raises .noBlink hp hh (controlSteps_unset hc _)⟩
  case entryFlags =>
    simp only [List.forall_mem_cons, List.not_mem_nil, false_imp_iff, implies_true, and_true]
    exact ⟨runReady_raises .autoscroll hp hh (entrySteps_unset he _),
      runReady_raises .noAutoscroll hp hh (entrySteps_unset he _)⟩

end Sys2Proof.Machine
end

section
/-! SUPPORT. What a run records: time goes on, the registers move only with an event that records the new byte, and the
events come in order (R43, R44). One relation holds across every instruction and every step. -/

namespace Sys2Proof.Machine

/-- From `s` to `t` time does not go back, and the events added are in order, lie within the time taken, are all of the
kind `P` and lead from the registers of `s` to those of `t`. -/
structure Logged (P : EventKind → Prop) (s t : State) : Prop where
  now_le : s.now ≤ t.now
  events : ∃ evs, t.trace = s.trace ++ evs ∧ t.mem = (evs.map Event.kind).foldl applyEvent s.mem ∧
    (evs.map Event.time).Pairwise (· ≤ ·) ∧ ∀ e ∈ evs, s.now ≤ e.time ∧ e.time ≤ t.now ∧ P e.kind

/-- The registers after the event of a write are those after the write. -/
@[simp] theorem applyEvent_writeEvent (m : Memory) (w : RegWrite) : applyEvent m (writeEvent m w) = writeMem m w := by
  obtain ⟨kind, pin, bit⟩ := w
  cases kind <;> rfl

/-- The registers after the events of writes are those after the writes. -/
theorem foldl_applyEvent_writesEvents (m : Memory) (ws : List RegWrite) :
    (writesEvents m ws).foldl applyEvent m = writesMem m ws := by
  induction ws generalizing m with
  | nil => rfl
  | cons w ws ih => simp [ih]

section
variable {P : EventKind → Prop} {s t u : State}

/-- Nothing recorded. -/
theorem Logged.silent (hn : s.now ≤ t.now) (hm : t.mem = s.mem) (ht : t.trace = s.trace) : Logged P s t :=
  ⟨hn, [], by simp [ht], by simp [hm], by simp, by simp⟩

/-- One event recorded. -/
theorem Logged.one {k : EventKind} (hk : P k) (hn : s.now ≤ t.now) (hm : t.mem = applyEvent s.mem k)
    (ht : t.trace = s.trace ++ [⟨t.now, k⟩]) : Logged P s t :=
  ⟨hn, [⟨t.now, k⟩], ht, by simp [hm], by simp, by simp [hn, hk]⟩

theorem Logged.trans (h : Logged P s t) (h' : Logged P t u) : Logged P s u := by
  obtain ⟨hn, evs, ht, hm, ho, he⟩ := h
  obtain ⟨hn', evs', ht', hm', ho', he'⟩ := h'
  refine ⟨hn.trans hn', evs ++ evs', by rw [ht', ht, List.append_assoc], by simp [hm', hm], ?_, ?_⟩
  · have hcross : ∀ e ∈ evs, ∀ e' ∈ evs', e.time ≤ e'.time := fun e hin e' hin' =>
      (he e hin).2.1.trans (he' e' hin').1
    simpa [List.pairwise_append, ho, ho'] using hcross
  · intro e hin
    rcases List.mem_append.1 hin with hin | hin
    · exact ⟨(he e hin).1, (he e hin).2.1.trans hn', (he e hin).2.2⟩
    · exact ⟨hn.trans (he' e hin).1, (he' e hin).2⟩

/-- What `Logged` says of the time and the trace alone. -/
theorem Logged.grows (h : Logged P s t) : s.now ≤ t.now ∧ ∃ evs, t.trace = s.trace ++ evs ∧
    (evs.map Event.time).Pairwise (· ≤ ·) ∧ ∀ e ∈ evs, s.now ≤ e.time ∧ e.time ≤ t.now := by
  obtain ⟨hn, evs, ht, -, ho, he⟩ := h
  exact ⟨hn, evs, ht, ho, fun e hin => ⟨(he e hin).1, (he e hin).2.1⟩⟩

/-- A trace in order stays in order. -/
theorem Logged.timely (h : Logged P s t) (hs : s.timely) : t.timely := by
  obtain ⟨hn, evs, ht, ho, he⟩ := h.grows
  obtain ⟨hso, hsn⟩ := hs
  have hcross : ∀ e ∈ s.trace, ∀ e' ∈ evs, e.time ≤ e'.time := fun e hin e' hin' =>
    (hsn e hin).trans (he e' hin').1
  refine ⟨by simpa [ht, List.pairwise_append, hso, ho] using hcross, fun e hin => ?_⟩
  rw [ht] at hin
  rcases List.mem_append.1 hin with hin | hin
  · exact (hsn e hin).trans hn
  · exact (he e hin).2

/-- Registers that the trace leads to stay so. -/
theorem Logged.replay {launch : Memory} (h : Logged P s t) (hs : s.mem = replay launch s.trace) :
    t.mem = Machine.replay launch t.trace := by
  obtain ⟨-, evs, ht, hm, -, -⟩ := h
  rw [hm, ht, hs]
  simp [Machine.replay]

end

/-- An event keeps the canonical form of the memory and its map. -/
theorem applyEvent_wf {m : Memory} (k : EventKind) (h : Memory.wf m = true ∧ Memory.mapped m = true) :
    Memory.wf (applyEvent m k) = true ∧ Memory.mapped (applyEvent m k) = true := by
  cases k with
  | pinWrite p target byte origin => exact ⟨Memory.wf_write _ _ h.1, Memory.mapped_write _ (regAddr_mem .data p) h.2⟩
  | dirWrite p target byte origin =>
    exact ⟨Memory.wf_write _ _ h.1, Memory.mapped_write _ (regAddr_mem .direction p) h.2⟩
  | sample p b l => exact h

theorem foldl_applyEvent_wf {ks : List EventKind} {m : Memory} (h : Memory.wf m = true ∧ Memory.mapped m = true) :
    Memory.wf (ks.foldl applyEvent m) = true ∧ Memory.mapped (ks.foldl applyEvent m) = true := by
  induction ks generalizing m with
  | nil => exact h
  | cons k ks ih => exact ih (applyEvent_wf k h)

theorem Logged.memory {P : EventKind → Prop} {s t : State} (h : Logged P s t)
    (hs : Memory.wf s.mem = true ∧ Memory.mapped s.mem = true) :
    Memory.wf t.mem = true ∧ Memory.mapped t.mem = true := by
  obtain ⟨-, evs, -, hm, -, -⟩ := h
  rw [hm]
  exact foldl_applyEvent_wf hs

/-- `set` makes its write and records it, or raises a fault (R145). -/
theorem setPin_state_cases (pin : Pin) (l : Bool) (s : State) :
    ((setPin pin l s).state.mem = writeMem s.mem (drive pin l) ∧ s.now ≤ (setPin pin l s).state.now ∧
      (setPin pin l s).state.trace =
        s.trace ++ [⟨(setPin pin l s).state.now, writeEvent s.mem (drive pin l)⟩]) ∨
    (setPin pin l s).state = raise (.pinNotOutput pin) s := by
  cases h : isOutput s pin with
  | true =>
    rw [setPin_output l h]
    exact .inl ⟨rfl, by simp; omega, rfl⟩
  | false => rw [setPin_input l h]; exact .inr rfl

/-- `set_direction` makes its write and records it (R146). -/
theorem setDirectionStep_state (pin : Pin) (m : Mode) (s : State) :
    (setDirectionStep pin m s).state.mem = writeMem s.mem (direct pin m) ∧
      s.now ≤ (setDirectionStep pin m s).state.now ∧
      (setDirectionStep pin m s).state.trace =
        s.trace ++ [⟨(setDirectionStep pin m s).state.now, writeEvent s.mem (direct pin m)⟩] := by
  refine ⟨rfl, by simp [setDirectionStep]; omega, ?_⟩
  cases m <;> rfl

/-- `sample` records its level (R147). -/
theorem samplePin_state (pin : Pin) (s : State) :
    (samplePin pin s).2.mem = s.mem ∧ s.now ≤ (samplePin pin s).2.now ∧
      (samplePin pin s).2.trace = s.trace ++ [⟨(samplePin pin s).2.now, readEvent pin (samplePin pin s).1⟩] :=
  ⟨rfl, by simp [samplePin, drawLevel], rfl⟩

/-- What a statement records is of its own Pins. -/
theorem steady_logged {A D S : List Pin} {P : EventKind → Prop}
    (hA : ∀ pin ∈ A, ∀ l v, P (.pinWrite pin.port (some (pin.bit, l)) v .block))
    (hD : ∀ pin ∈ D, ∀ m v, P (.dirWrite pin.port (some (pin.bit, m)) v .block))
    (hS : ∀ pin ∈ S, ∀ l, P (.sample pin.port pin.bit l)) : Steady A D S (Logged P) where
  refl s := .silent (Nat.le_refl _) rfl rfl
  trans := .trans
  advance n s := .silent (by simp) rfl rfl
  setPin pin hp l s := by
    rcases setPin_state_cases pin l s with ⟨hm, hn, ht⟩ | hr
    · exact .one (hA pin hp l _) hn (hm.trans (applyEvent_writeEvent _ _).symm) ht
    · rw [hr]; exact .silent (Nat.le_refl _) rfl rfl
  setDirection pin hp m s := by
    obtain ⟨hm, hn, ht⟩ := setDirectionStep_state pin m s
    exact .one (hD pin hp _ _) hn (hm.trans (applyEvent_writeEvent _ _).symm) ht
  sample pin hp s := by
    obtain ⟨hm, hn, ht⟩ := samplePin_state pin s
    exact .one (hS pin hp _) hn hm ht
  raise r s := .silent (Nat.le_refl _) rfl rfl
  giveBack g s := .silent (Nat.le_refl _) rfl rfl
  phase p s := .silent (Nat.le_refl _) rfl rfl
  handle h s := .silent (Nat.le_refl _) rfl rfl

/-- An instruction records events of its own Pins only. -/
theorem exec_logged {i : Instr} {s t : State} (h : exec i s = .next t) : Logged (fun k => ownEvent i s k = true) s t :=
  keeps_exec (steady_logged (by simp +contextual [ownEvent]) (by simp +contextual [ownEvent])
    (by simp +contextual [ownEvent])) h

/-- The registers after an environment write's event are those after the write. -/
@[simp] theorem applyEvent_envEvent (m : Memory) (reg : RegKind) (p : Port) (byte : Byte) :
    applyEvent m (envEvent reg p byte) = Memory.write m (regAddr reg p) byte := by cases reg <;> rfl

/-- An environment write that has a move touches no handle Pin, and is the masked write with its event (R72(b)). -/
theorem next_envWrite {reg : RegKind} {p : Port} {mask value : Byte} {s t : State}
    (h : envWrite reg p mask value s = .next t) : touchesHandle s p mask = false ∧
      t = emit (envEvent reg p (maskedByte (Memory.read s.mem (regAddr reg p)) mask value))
        { s with mem := Memory.write s.mem (regAddr reg p)
                          (maskedByte (Memory.read s.mem (regAddr reg p)) mask value) } := by
  unfold envWrite at h
  split at h
  · cases h
  · cases h; exact ⟨by simp_all, rfl⟩

theorem step_logged {s t : State} (h : step s = .next t) : Logged (fun _ => True) s t := by
  refine keeps_step (fun A D S => steady_logged (fun _ _ _ _ => trivial) (fun _ _ _ _ => trivial)
    (fun _ _ _ => trivial)) (fun rest s => .silent (Nat.le_refl _) rfl rfl) ?_ h
  intro reg p mask value s t h
  obtain ⟨-, rfl⟩ := next_envWrite h
  exact .one trivial (Nat.le_refl _) (by simp) rfl

/-- Settles O57: every step moves the registers by the events it records. -/
theorem registersFollowTheTrace : Obligations.RegistersFollowTheTrace :=
  fun _ _ _ hs h => (step_logged h).replay hs

/-- Settles O51: both halves forget the registers and the kinds. -/
theorem timeAndTraceOnlyGrow : Obligations.TimeAndTraceOnlyGrow :=
  ⟨fun _ _ _ h => (exec_logged h).grows, fun _ _ h => (step_logged h).grows⟩

/-- Settles O53: the events are those that `exec_logged` allows, and no host operation has a Pin to sample. -/
theorem eventsAreOfOwnPins : Obligations.EventsAreOfOwnPins := by
  refine ⟨fun i s t h => ?_, fun i s hi => ?_⟩
  · obtain ⟨-, evs, ht, -, -, he⟩ := exec_logged h
    refine ⟨evs, ht, ?_⟩
    simp only [List.all_map, List.all_eq_true]
    exact fun e hin => (he e hin).2.2
  · cases i
    case sample | readBusy => cases hi
    all_goals rfl

end Sys2Proof.Machine
end

section
/-! PROOF. The register bits an instruction leaves alone (R38, R39, R63, R145, R146), and the launch state (R48). -/

namespace Sys2Proof.Machine

/-- From `s` to `t` no register bit changes but the data bits of the Pins in `A` and the direction bits of those in
`D`. -/
structure BitsKept (A D : List Pin) (s t : State) : Prop where
  data : ∀ pin, pin ∉ A → bitOf (t.port pin.port) pin.bit = bitOf (s.port pin.port) pin.bit
  direction : ∀ pin, pin ∉ D → isOutput t pin = isOutput s pin
  other : ∀ a, a ∉ registerAddrs → Memory.read t.mem a = Memory.read s.mem a

theorem BitsKept.of_mem_eq {A D : List Pin} {s t : State} (h : t.mem = s.mem) : BitsKept A D s t :=
  ⟨fun _ _ => by simp only [State.port, h], fun _ _ => by simp only [isOutput, State.ddr, h], fun _ _ => by rw [h]⟩

theorem BitsKept.trans {A D : List Pin} {s t u : State} (h : BitsKept A D s t) (h' : BitsKept A D t u) :
    BitsKept A D s u :=
  ⟨fun pin hp => (h'.data pin hp).trans (h.data pin hp), fun pin hp => (h'.direction pin hp).trans (h.direction pin hp),
    fun a ha => (h'.other a ha).trans (h.other a ha)⟩

/-- A register write leaves every address that is no register. -/
theorem read_writeMem_unmapped (m : Memory) (w : RegWrite) {a : Nat} (ha : a ∉ registerAddrs) :
    Memory.read (writeMem m w) a = Memory.read m a :=
  Memory.read_write_ne _ _ fun e => ha (by simpa [e, writeAddr] using regAddr_mem w.kind w.pin.port)

theorem BitsKept.of_drive {A D : List Pin} {s t : State} {q : Pin} {l : Bool} (hq : q ∈ A)
    (h : t.mem = writeMem s.mem (drive q l)) : BitsKept A D s t where
  data pin hp := by
    have hne : pin ≠ q := fun e => hp (e ▸ hq)
    simp only [State.port, h, portBit_drive, if_neg hne]
  direction pin _ := isOutput_of_ddr (fun p => by simp only [State.ddr, h, ddrBit_drive]) pin
  other a ha := by rw [h, read_writeMem_unmapped _ _ ha]

theorem BitsKept.of_direct {A D : List Pin} {s t : State} {q : Pin} {m : Mode} (hq : q ∈ D)
    (h : t.mem = writeMem s.mem (direct q m)) : BitsKept A D s t where
  data pin _ := by simp only [State.port, h, port_direct]
  direction pin hp := by
    have hne : pin ≠ q := fun e => hp (e ▸ hq)
    simp only [isOutput, State.ddr, h, isOutput_direct, if_neg hne]
  other a ha := by rw [h, read_writeMem_unmapped _ _ ha]

theorem steady_bitsKept (A D S : List Pin) : Steady A D S (BitsKept A D) where
  refl _ := .of_mem_eq rfl
  trans := .trans
  advance _ _ := .of_mem_eq rfl
  setPin pin hp l s := by
    rcases setPin_state_cases pin l s with ⟨hm, -, -⟩ | hr
    · exact .of_drive hp hm
    · exact .of_mem_eq (by rw [hr, raise_mem])
  setDirection pin hp m s := .of_direct hp (setDirectionStep_state pin m s).1
  sample pin _ s := .of_mem_eq (samplePin_state pin s).1
  raise _ _ := .of_mem_eq rfl
  giveBack _ _ := .of_mem_eq rfl
  phase _ _ := .of_mem_eq rfl
  handle _ _ := .of_mem_eq rfl

/-- Settles O52. -/
theorem onlyOwnPinsChange : Obligations.OnlyOwnPinsChange := by
  intro i s t h
  obtain ⟨hdata, hdirection, hother⟩ := keeps_exec (steady_bitsKept (mayDrive i s) (mayDirect i s) (maySample i s)) h
  exact ⟨hdata, hdirection, hother⟩

/-- Settles O1: the memory of the launch state lists nothing, so every register reads as `INIT_PORTS`. -/
theorem launchStateIsAsSpecified : Obligations.LaunchStateIsAsSpecified :=
  ⟨fun _ => ⟨rfl, rfl⟩, rfl, rfl, rfl, rfl, rfl⟩

/-- Settles O2. -/
theorem launchStateMeetsInvariant : Obligations.LaunchStateMeetsInvariant := by
  obtain ⟨hwf, hmapped⟩ := reset_memory_wf
  have htimely : State.reset.timely := ⟨List.Pairwise.nil, by simp [State.reset]⟩
  exact ⟨⟨hwf, hmapped, htimely, by decide, by decide⟩, by decide⟩

end Sys2Proof.Machine
end

section
/-! SUPPORT. The words of R102 as transfers (R100), and the register writes that put a list of words on the bus. -/

namespace Sys2Proof.Machine

@[simp] theorem wordRs_transferredWord (rs : Bool) (v : Byte) : wordRs (transferredWord rs v) = rs := by
  revert rs v; decide

@[simp] theorem wordByte_transferredWord (rs : Bool) (v : Byte) : wordByte (transferredWord rs v) = v := by
  revert rs v; decide

theorem transferredWord_wordByte (w : BitVec 9) : transferredWord (wordRs w) (wordByte w) = w := by
  revert w; decide

/-- The register writes of words, each a transfer. -/
def wordsWrites (h : Handle) (ws : List (BitVec 9)) : List RegWrite :=
  ws.flatMap fun w => transferWrites h (wordByte w) (wordRs w)

@[simp] theorem wordsWrites_nil (h : Handle) : wordsWrites h [] = [] := rfl
@[simp] theorem wordsWrites_cons (h : Handle) (w : BitVec 9) (ws : List (BitVec 9)) :
    wordsWrites h (w :: ws) = transferWrites h (wordByte w) (wordRs w) ++ wordsWrites h ws := rfl

theorem wordsWrites_map_b9Word (h : Handle) (vs : List Byte) :
    wordsWrites h (vs.map b9Word) = vs.flatMap fun v => transferWrites h v true := by
  rw [wordsWrites, List.flatMap_map]
  congr 1
  funext v
  have hw : b9Word v = transferredWord true v := rfl
  rw [hw, wordByte_transferredWord, wordRs_transferredWord]

theorem b8Word_eq_transferredWord (a : BitVec 7) : b8Word a = transferredWord false (0x80 ||| a.setWidth 8) := by
  revert a; decide

/-- The set-DDRAM-address byte as a word (R104(a)). -/
theorem b8Word_eq (col offset : Byte) :
    b8Word (BitVec.ofNat 7 (col.toNat + offset.toNat)) = transferredWord false (ddramByte col offset) := by
  have hmod : (BitVec.ofNat 7 (col.toNat + offset.toNat)).setWidth 8 =
      BitVec.ofNat 8 ((col.toNat + offset.toNat) % 128) := by
    apply BitVec.eq_of_toNat_eq
    simp
  rw [b8Word_eq_transferredWord, hmod, ddramByte]

/-- The set-CGRAM-address byte as a word (R104(b)). -/
theorem b7Word_eq (slot : Byte) :
    b7Word (BitVec.ofNat 3 slot.toNat ++ 0b000#3) = transferredWord false (cgramByte slot) := by
  revert slot; decide

/-- The display-control byte as a word, for the six operations (R104(c), R245). -/
theorem b4Word_eq {f : Byte} (hf : controlFlagsLegal f = true) :
    b4Word true (bitOf f 1) (bitOf f 0) = transferredWord false (displayControlByte (setFlag displayBit f)) ∧
    b4Word false (bitOf f 1) (bitOf f 0) = transferredWord false (displayControlByte (clearFlag displayBit f)) ∧
    b4Word (bitOf f 2) true (bitOf f 0) = transferredWord false (displayControlByte (setFlag cursorBit f)) ∧
    b4Word (bitOf f 2) false (bitOf f 0) = transferredWord false (displayControlByte (clearFlag cursorBit f)) ∧
    b4Word (bitOf f 2) (bitOf f 1) true = transferredWord false (displayControlByte (setFlag blinkBit f)) ∧
    b4Word (bitOf f 2) (bitOf f 1) false = transferredWord false (displayControlByte (clearFlag blinkBit f)) := by
  revert f; decide

/-- The entry-mode byte as a word, for the two operations (R104(c), R258). -/
theorem b3Word_eq {f : Byte} (hf : entryFlagsLegal f = true) :
    b3Word (bitOf f 1) true = transferredWord false (entryModeByte (setFlag autoscrollBit f)) ∧
    b3Word (bitOf f 1) false = transferredWord false (entryModeByte (clearFlag autoscrollBit f)) := by
  revert f; decide

end Sys2Proof.Machine
end

section
/-! SUPPORT. How an instruction can end, said once: it has run to its end, and its phase and handle are those its rule
gives, or it has raised a fault (R31, R37, R301). A command that runs to its end has sent its words and nothing else. -/

namespace Sys2Proof.Machine

/-! ### The two ends -/

/-- The handle's bytes after an instruction that ran to its end (R210, R245 to R251, R258, R259). -/
def bytesAfter (i : Instr) (h : Handle) : Handle :=
  match i with
  | .begin _ rows =>
    { h with functionFlags := some (functionFlagsFor rows), controlFlags := some controlFlagsInit,
             entryFlags := some entryFlagsInit, lineCount := some rows, currentLine := some 0 }
  | .display => { h with controlFlags := h.controlFlags.map (setFlag displayBit) }
  | .noDisplay => { h with controlFlags := h.controlFlags.map (clearFlag displayBit) }
  | .cursor => { h with controlFlags := h.controlFlags.map (setFlag cursorBit) }
  | .noCursor => { h with controlFlags := h.controlFlags.map (clearFlag cursorBit) }
  | .blink => { h with controlFlags := h.controlFlags.map (setFlag blinkBit) }
  | .noBlink => { h with controlFlags := h.controlFlags.map (clearFlag blinkBit) }
  | .autoscroll => { h with entryFlags := h.entryFlags.map (setFlag autoscrollBit) }
  | .noAutoscroll => { h with entryFlags := h.entryFlags.map (clearFlag autoscrollBit) }
  | _ => h

/-- The handle after an instruction that ran to its end (R201). -/
def handleAfter (i : Instr) (o : Option Handle) : Option Handle :=
  match i with
  | .create rs en d4 d5 d6 d7 => some (newHandle rs en d4 d5 d6 d7)
  | _ => o.map (bytesAfter i)

/-- The phase after an instruction that ran to its end (R37). -/
def phaseAfter (i : Instr) (p : Phase) : Phase :=
  if i.opName = .create then .constructed else if i.opName = .begin then .ready else p

/-- The phase in which an instruction runs to its end (R201, R210, R230). -/
def runsIn (i : Instr) (p : Phase) : Bool :=
  match i.kind, i.opName with
  | .hostOperation, .create => p == .noHandle
  | .hostOperation, .begin => p == .constructed
  | .hostOperation, _ => p == .ready
  | _, _ => p != .faulted

/-- The instruction has run to its end. -/
structure Finished (i : Instr) (s t : State) : Prop where
  runsIn : Machine.runsIn i s.phase = true
  phase : t.phase = phaseAfter i s.phase
  handle : t.handle = handleAfter i s.handle
  fault : t.fault = s.fault
  pending : t.pending = s.pending
  returned : givesBack i = false → t.returned = s.returned

/-- The instruction has raised a fault. -/
structure Raised (i : Instr) (s t : State) : Prop where
  phase : t.phase = .faulted
  fault : t.fault.isSome = true
  handle : t.handle.map (untouchedPart i) = s.handle.map (untouchedPart i)
  pending : t.pending = s.pending
  returned : givesBack i = false → t.returned = s.returned

theorem raised_raise (i : Instr) (r : FaultRecord) (s : State) : Raised i s (raise r s) :=
  ⟨rfl, rfl, rfl, rfl, fun _ => rfl⟩

/-! ### The shells -/

/-- A command that answers has run its statements in Ready, or has raised a fault at once (R230). -/
theorem next_runReady {op : OpName} {s t : State} {body : Handle → State → Flow} (h : runReady op s body = .next t) :
    (∃ hd, s.phase = .ready ∧ s.handle = some hd ∧ t = (body hd s).state) ∨ ∃ r, t = raise r s := by
  cases hp : s.phase with
  | noHandle => rw [runReady_noHandle op hp] at h; cases h; exact .inr ⟨_, rfl⟩
  | constructed => rw [runReady_constructed op hp] at h; cases h; exact .inr ⟨_, rfl⟩
  | ready =>
    cases hh : s.handle with
    | none =>
      simp only [runReady, hp, hh, complete, raiseStep] at h
      cases h
      exact .inr ⟨_, rfl⟩
    | some hd => rw [runReady_ready op hp hh] at h; cases h; exact .inl ⟨hd, rfl, rfl, rfl⟩
  | faulted | reset | forceNibble1 | forceNibble2 | forceNibble3 | setFourBitMode | functionSet | displayOn | clear
  | entryModeSet => simp [runReady, hp] at h

/-- A primitive or bus word that answers has run its statements, or has raised a fault for want of a handle. -/
theorem next_runWithHandle {op : OpName} {s t : State} {body : Handle → State → Flow}
    (h : runWithHandle op s body = .next t) :
    s.phase ≠ .faulted ∧ ((∃ hd, s.handle = some hd ∧ t = (body hd s).state) ∨ ∃ r, t = raise r s) := by
  obtain ⟨hp, h⟩ := next_unlessFaulted h
  refine ⟨hp, ?_⟩
  cases hh : s.handle with
  | none => rw [hh] at h; cases h; exact .inr ⟨_, rfl⟩
  | some hd => rw [hh] at h; cases h; exact .inl ⟨hd, rfl, rfl⟩

/-- An operation that is refused when ill formed answers only when it is not. -/
theorem next_refuseIllFormed {i : Instr} {k : Host.Outcome State Fault Refusal} {t : State}
    (h : refuseIllFormed i k = .next t) : k = .next t := by
  unfold refuseIllFormed at h
  split at h
  · cases h
  · exact h

/-! ### Commands -/

/-- The five bytes of a configured handle (R33 to R36). -/
theorem configured_iff {h : Handle} : h.configured = true ↔ ∃ c e n,
    h.functionFlags = some (functionFlagsFor n) ∧ h.controlFlags = some c ∧ controlFlagsLegal c = true ∧
      h.entryFlags = some e ∧ entryFlagsLegal e = true ∧ h.lineCount = some n ∧ h.currentLine = some 0 := by
  unfold Handle.configured
  split
  · next f c e n l hf hc he hn hl =>
    simp only [hf, hc, he, hn, hl, Bool.and_eq_true, beq_iff_eq, Option.some.injEq]
    constructor
    · rintro ⟨⟨⟨rfl, hc⟩, he⟩, rfl⟩
      exact ⟨c, e, n, rfl, rfl, hc, rfl, he, rfl, rfl⟩
    · rintro ⟨_, _, _, rfl, rfl, hc, rfl, he, rfl, rfl⟩
      exact ⟨⟨⟨rfl, hc⟩, he⟩, rfl⟩
  · next hnone =>
    refine ⟨fun hfalse => absurd hfalse (by decide), ?_⟩
    rintro ⟨c, e, n, hf, hc, -, he, -, hn, hl⟩
    exact absurd hl (hnone _ c e n 0 hf hc he hn)

/-- A command of a Ready state has run to its end: it has made the register writes of its words, and no others. -/
def SentWords (i : Instr) (h : Handle) (s t : State) : Prop :=
  t.phase = s.phase ∧ t.handle = some (bytesAfter i h) ∧
    ∃ ws n, SendsOnly s t ws n ∧ (h.configured = true → ws = wordsWrites h (commandWords i h))

section
variable {i : Instr} {h : Handle} {s : State} {k : State → Flow} {ws : List RegWrite} {n : Nat}

/-- Statements that drive Pins, after an update of the handle. -/
theorem sentWords_afterUpdate (hh : s.handle = some h) (hk : Sends k ws n) (f : Handle → Handle)
    (ha : bytesAfter i h = f h) (hu : untouchedPart i (f h) = untouchedPart i h)
    (hw : h.configured = true → ws = wordsWrites h (commandWords i h)) :
    SentWords i h s (runSteps [updateHandle f, k] s).state ∨ Raised i s (runSteps [updateHandle f, k] s).state := by
  cases ho : allOutputs s ws with
  | true =>
    obtain ⟨t, ht, hs, hp, hhd⟩ := (hk.afterUpdate f s).1 ho
    rw [ht]
    exact .inl ⟨hp, by simpa [hh, ha] using hhd, ws, n, hs, hw⟩
  | false =>
    obtain ⟨t, ht, _, _, _, -, -, -, hf, hp, hhd, -, -, -, hpe, hr⟩ := (hk.afterUpdate f s).2 ho
    rw [ht]
    exact .inr ⟨hp, by simp [hf], by simp [hhd, hh, hu], hpe, fun _ => hr⟩

/-- Statements that only drive Pins. -/
theorem sentWords_or_raised (hh : s.handle = some h) (hk : Sends k ws n) (ha : bytesAfter i h = h)
    (hw : h.configured = true → ws = wordsWrites h (commandWords i h)) :
    SentWords i h s (k s).state ∨ Raised i s (k s).state := by
  have he : (runSteps [updateHandle id, k] s).state = (k s).state := by
    simp only [runSteps_cons, updateHandle, Option.map_id_fun, id_eq, Flow.go_andThen]
    cases k s <;> rfl
  exact he ▸ sentWords_afterUpdate hh hk id ha rfl hw

/-- The statements of a display-control operation (R245). -/
theorem sentWords_controlSteps (hh : s.handle = some h) (update : Byte → Byte)
    (ha : bytesAfter i h = { h with controlFlags := h.controlFlags.map update })
    (hu : ∀ c, untouchedPart i { h with controlFlags := c } = untouchedPart i h)
    (hw : ∀ f, h.controlFlags = some f → controlFlagsLegal f = true →
      commandWords i h = [transferredWord false (displayControlByte (update f))]) :
    SentWords i h s (controlSteps h update s).state ∨ Raised i s (controlSteps h update s).state := by
  cases hc : h.controlFlags with
  | none => rw [controlSteps_unset hc]; exact .inr (raised_raise i _ s)
  | some f =>
    have hsteps : controlSteps h update = runSteps [updateHandle fun h => { h with controlFlags := some (update f) },
        command h (displayControlByte (update f))] := by rw [controlSteps, hc]; rfl
    rw [hsteps]
    refine sentWords_afterUpdate hh (sends_transferByte h _ false) _ (by rw [ha, hc]; rfl) (hu _) fun hcfg => ?_
    obtain ⟨c, -, -, -, hc', hlegal, -⟩ := configured_iff.1 hcfg
    obtain rfl : f = c := by simpa [hc] using hc'
    simp [hw f hc hlegal]

/-- The statements of an autoscroll operation (R258). -/
theorem sentWords_entrySteps (hh : s.handle = some h) (update : Byte → Byte)
    (ha : bytesAfter i h = { h with entryFlags := h.entryFlags.map update })
    (hu : ∀ c, untouchedPart i { h with entryFlags := c } = untouchedPart i h)
    (hw : ∀ f, h.entryFlags = some f → entryFlagsLegal f = true →
      commandWords i h = [transferredWord false (entryModeByte (update f))]) :
    SentWords i h s (entrySteps h update s).state ∨ Raised i s (entrySteps h update s).state := by
  cases hc : h.entryFlags with
  | none => rw [entrySteps_unset hc]; exact .inr (raised_raise i _ s)
  | some f =>
    have hsteps : entrySteps h update = runSteps [updateHandle fun h => { h with entryFlags := some (update f) },
        command h (entryModeByte (update f))] := by rw [entrySteps, hc]; rfl
    rw [hsteps]
    refine sentWords_afterUpdate hh (sends_transferByte h _ false) _ (by rw [ha, hc]; rfl) (hu _) fun hcfg => ?_
    obtain ⟨-, c, -, -, -, -, hc', hlegal, -⟩ := configured_iff.1 hcfg
    obtain rfl : f = c := by simpa [hc] using hc'
    simp [hw f hc hlegal]

end

/-- The statements of `set_cursor` (R240). -/
theorem sentWords_setCursorSteps {h : Handle} {s : State} (hh : s.handle = some h) (col row : Byte) :
    SentWords (.setCursor col row) h s (setCursorSteps h col row s).state ∨
      Raised (.setCursor col row) s (setCursorSteps h col row s).state := by
  cases hl : h.lineCount with
  | none => rw [setCursorSteps_unset hl]; exact .inr (raised_raise _ _ s)
  | some n =>
    cases ho : rowOffset (clampRow n row) with
    | none =>
      simp only [setCursorSteps, hl, readByte, ho]
      exact .inr (raised_raise _ _ s)
    | some offset =>
      simp only [setCursorSteps, hl, readByte, ho]
      refine sentWords_or_raised hh (sends_transferByte h _ false) rfl fun _ => ?_
      simp [commandWords, hl, ho, b8Word_eq]

/-- A command byte and the settle wait (R232). -/
theorem sends_settledCommand (h : Handle) (v : Byte) :
    Sends (settledCommand h v) (transferWrites h v false) 5204000 := by
  have hsends := (sends_transferByte h v false).cons ((sends_delayMs 5).cons sends_nil)
  rwa [List.append_nil, List.append_nil] at hsends

/-- What a command that answers has done (R230): in Ready it has sent its words, or it has raised a fault. -/
theorem command_next {i : Instr} {s t : State} (hi : isCommand i = true) (h : exec i s = .next t) :
    (∃ hd, s.phase = .ready ∧ s.handle = some hd ∧ SentWords i hd s t) ∨ Raised i s t := by
  have shell {op : OpName} {body : Handle → State → Flow} (hrun : runReady op s body = .next t)
      (hbody : ∀ hd, s.handle = some hd → SentWords i hd s (body hd s).state ∨ Raised i s (body hd s).state) :
      (∃ hd, s.phase = .ready ∧ s.handle = some hd ∧ SentWords i hd s t) ∨ Raised i s t := by
    rcases next_runReady hrun with ⟨hd, hp, hh, rfl⟩ | ⟨r, rfl⟩
    · exact (hbody hd hh).imp_left fun hs => ⟨hd, hp, hh, hs⟩
    · exact .inr (raised_raise i r s)
  have single {w : BitVec 9} {v : Byte} {rs : Bool} (hw : w = transferredWord rs v) (hd : Handle) :
      transferWrites hd v rs = wordsWrites hd [w] := by simp [hw]
  cases i with
  | clear => exact shell h fun hd hh => sentWords_or_raised hh (sends_settledCommand hd _) rfl fun _ => single rfl hd
  | home => exact shell h fun hd hh => sentWords_or_raised hh (sends_settledCommand hd _) rfl fun _ => single rfl hd
  | setCursor col row => exact shell h fun hd hh => sentWords_setCursorSteps hh col row
  | write c =>
    exact shell h fun hd hh => sentWords_or_raised hh (sends_transferByte hd c true) rfl fun _ => single rfl hd
  | print text =>
    refine shell (next_refuseIllFormed h) fun hd hh => sentWords_or_raised hh (sends_dataBytes hd _) rfl fun _ => ?_
    exact (wordsWrites_map_b9Word hd _).symm
  | createChar slot rows =>
    refine shell (next_refuseIllFormed h) fun hd hh =>
      sentWords_or_raised hh ((sends_transferByte hd _ false).cons (sends_dataBytes hd rows)) rfl fun _ => ?_
    simp only [commandWords, b7Word_eq, wordsWrites_cons, wordsWrites_map_b9Word, wordByte_transferredWord,
      wordRs_transferredWord]
  | display | noDisplay | cursor | noCursor | blink | noBlink =>
    exact shell h fun hd hh => sentWords_controlSteps hh _ rfl (fun _ => rfl) fun f hc hf => by
      simp [commandWords, hc, b4Word_eq hf]
  | scrollDisplayLeft =>
    exact shell h fun hd hh => sentWords_or_raised hh (sends_transferByte hd _ false) rfl fun _ => single (by decide) hd
  | scrollDisplayRight =>
    exact shell h fun hd hh => sentWords_or_raised hh (sends_transferByte hd _ false) rfl fun _ => single (by decide) hd
  | autoscroll | noAutoscroll =>
    exact shell h fun hd hh => sentWords_entrySteps hh _ rfl (fun _ => rfl) fun f hc hf => by
      simp [commandWords, hc, b3Word_eq hf]
  | create | begin | resolve | set | setDirection | sample | delayUs | delayMs | pulseEnable | writeNibble
  | transferByte | command | data | readBusy | b1ClearDisplay | b2ReturnHome | b3EntryModeSet | b4DisplayControl
  | b5CursorDisplayShift | b6FunctionSet | b7SetCgramAddress | b8SetDdramAddress | b9WriteData => cases hi

end Sys2Proof.Machine
end

section
/-! SUPPORT. How `create`, `begin`, the primitives and the bus words end, and so every instruction. -/

namespace Sys2Proof.Machine

/-! ### Statements in a row, for a relation that composes -/

section
variable {R : State → State → Prop} (hrefl : ∀ s, R s s) (htrans : ∀ s t u, R s t → R t u → R s u)
include htrans

theorem andThen_of_trans {f : Flow} {s : State} {k : State → Flow} (h : R s f.state) (hk : Keeps R k) :
    R s (f.andThen k).state := by
  cases f with
  | go t => exact htrans _ _ _ h (hk t)
  | halted t => exact h

include hrefl

theorem keeps_runSteps_of_trans {ks : List (State → Flow)} (h : ∀ k ∈ ks, Keeps R k) : Keeps R (runSteps ks) := by
  induction ks with
  | nil => exact fun s => hrefl s
  | cons k ks ih =>
    rw [List.forall_mem_cons] at h
    intro s
    rw [runSteps_cons]
    exact andThen_of_trans htrans (h.1 s) (ih h.2)

end

/-- A statement that drives Pins leaves the handle, wherever it stops. -/
theorem Sends.state_handle {k : State → Flow} {ws : List RegWrite} {n : Nat} (hk : Sends k ws n) (s : State) :
    (k s).state.handle = s.handle := by
  cases ho : allOutputs s ws with
  | true =>
    obtain ⟨t, ht, -, -, hh⟩ := (hk.2 s).1 ho
    rwa [ht]
  | false =>
    obtain ⟨t, ht, _, _, _, -, -, -, -, -, hh, -⟩ := (hk.2 s).2 ho
    rwa [ht]

/-! ### create -/

/-- The statements of `create` make the six direction writes, keep the handle given and end in Constructed (R201). -/
theorem createSteps_go (h : Handle) (s : State) : ∃ t, createSteps h s = .go t ∧ t.phase = .constructed ∧
    t.handle = some h ∧ SendsOnly s t (h.pins.map (direct · .output)) 0 := by
  have hdirs := (directs_setDirection h.rs .output).cons <| (directs_setDirection h.en .output).cons <|
    (directs_setDirection h.d4 .output).cons <| (directs_setDirection h.d5 .output).cons <|
    (directs_setDirection h.d6 .output).cons <| (directs_setDirection h.d7 .output).cons directs_nil
  obtain ⟨t, ht, hs, -, hh⟩ := hdirs { s with handle := some h }
  refine ⟨{ t with phase := .constructed }, ?_, rfl, hh, hs⟩
  have happ := runSteps_append [setDirectionStep h.rs .output, setDirectionStep h.en .output,
    setDirectionStep h.d4 .output, setDirectionStep h.d5 .output, setDirectionStep h.d6 .output,
    setDirectionStep h.d7 .output] [setPhase .constructed] { s with handle := some h }
  rw [ht] at happ
  rw [createSteps, runSteps_cons, Flow.go_andThen]
  exact happ

/-! ### begin -/

theorem Does.congr {k : State → Flow} {ws ws' : List RegWrite} {n n' : Nat} {g g' : Phase → Phase}
    {f f' : Handle → Handle} (h : Does k ws n g f) (hws : ws = ws') (hn : n = n') (hg : ∀ p, g p = g' p)
    (hf : ∀ h, f h = f' h) : Does k ws' n' g' f' := by
  obtain rfl := hws
  obtain rfl := hn
  obtain rfl := funext hg
  obtain rfl := funext hf
  exact h

/-- The statements of `begin` make its register writes, set the five bytes and end in Ready (R210). -/
theorem does_beginSteps (h : Handle) (columns rows : Byte) :
    Does (beginSteps h rows) (beginWrites h rows) 82224000 (fun _ => .ready) (bytesAfter (.begin columns rows)) := by
  have command := fun v => (sends_transferByte h v false).does
  have nibble := fun v => (sends_writeNibble h v).does
  have wait := fun n => (sends_delayMs n).does
  have chain := (does_updateHandle fun h => { h with lineCount := some rows, currentLine := some 0 }).cons <|
    (does_setPhase .reset).cons <| (wait 50).cons <|
    (sends_setPin h.rs false).does.cons <| (sends_setPin h.en false).does.cons <|
    (does_setPhase .forceNibble1).cons <| (nibble 0x03).cons <| (wait 5).cons <|
    (does_setPhase .forceNibble2).cons <| (nibble 0x03).cons <| (wait 5).cons <|
    (does_setPhase .forceNibble3).cons <| (nibble 0x03).cons <| (wait 1).cons <|
    (does_setPhase .setFourBitMode).cons <| (nibble 0x02).cons <|
    (does_setPhase .functionSet).cons <|
    (does_updateHandle fun h => { h with functionFlags := some (functionFlagsFor rows) }).cons <|
    (command (functionSetByte (functionFlagsFor rows))).cons <| (wait 5).cons <|
    (does_setPhase .displayOn).cons <|
    (does_updateHandle fun h => { h with controlFlags := some controlFlagsInit }).cons <|
    (command (displayControlByte controlFlagsInit)).cons <| (wait 5).cons <|
    (does_setPhase .clear).cons <| (command 0x01).cons <| (wait 5).cons <|
    (does_setPhase .entryModeSet).cons <|
    (does_updateHandle fun h => { h with entryFlags := some entryFlagsInit }).cons <|
    (command (entryModeByte entryFlagsInit)).cons <| (wait 5).cons <|
    (does_setPhase .ready).cons does_nil
  refine Does.congr (ws' := beginWrites h rows) (n' := 82224000) (g' := fun _ => .ready)
    (f' := bytesAfter (.begin columns rows)) chain ?_ rfl (fun _ => rfl) (fun _ => rfl)
  have hcontrol : displayControlByte controlFlagsInit = 0x0C := rfl
  have hentry : entryModeByte entryFlagsInit = 0x06 := rfl
  simp only [beginWrites, hcontrol, hentry, List.nil_append, List.append_nil, List.append_assoc, List.cons_append]
  rfl

/-- The part of the handle that an instruction may not write is as it was. -/
def PartKept (i : Instr) (s t : State) : Prop := t.handle.map (untouchedPart i) = s.handle.map (untouchedPart i)

theorem partKept_updateHandle {i : Instr} {f : Handle → Handle} (hf : ∀ h, untouchedPart i (f h) = untouchedPart i h) :
    Keeps (PartKept i) (updateHandle f) := by
  intro s
  show (s.handle.map f).map (untouchedPart i) = s.handle.map (untouchedPart i)
  cases s.handle <;> simp [hf]

theorem Sends.partKept {i : Instr} {k : State → Flow} {ws : List RegWrite} {n : Nat} (hk : Sends k ws n) :
    Keeps (PartKept i) k := fun s => by rw [PartKept, hk.state_handle]

/-- The statements of `begin` leave the handle's Pins, wherever they stop. -/
theorem partKept_beginSteps (h : Handle) (columns rows : Byte) :
    Keeps (PartKept (.begin columns rows)) (beginSteps h rows) := by
  refine keeps_runSteps_of_trans (R := PartKept (.begin columns rows)) (fun _ => rfl)
    (fun _ _ _ hst htu => Eq.trans htu hst) ?_
  simp only [List.forall_mem_cons, List.not_mem_nil, false_imp_iff, implies_true, and_true]
  have update {f : Handle → Handle} := partKept_updateHandle (i := .begin columns rows) (f := f)
  have set := fun pin => (sends_setPin pin false).partKept (i := .begin columns rows)
  have command := fun v => (sends_transferByte h v false).partKept (i := .begin columns rows)
  have nibble := fun v => (sends_writeNibble h v).partKept (i := .begin columns rows)
  exact ⟨update fun _ => rfl, fun _ => rfl, fun _ => rfl, set _, set _,
    fun _ => rfl, nibble _, fun _ => rfl, fun _ => rfl, nibble _, fun _ => rfl, fun _ => rfl, nibble _, fun _ => rfl,
    fun _ => rfl, nibble _, fun _ => rfl, update fun _ => rfl, command _, fun _ => rfl, fun _ => rfl,
    update fun _ => rfl, command _, fun _ => rfl, fun _ => rfl, command _, fun _ => rfl, fun _ => rfl,
    update fun _ => rfl, command _, fun _ => rfl, fun _ => rfl⟩

/-- `begin` in Constructed runs its statements (R210). -/
theorem exec_begin_constructed {s : State} {h : Handle} (hp : s.phase = .constructed) (hh : s.handle = some h)
    (columns rows : Byte) : exec (.begin columns rows) s = .next (beginSteps h rows s).state := by
  simp [exec, execBegin, unlessFaulted, complete, hp, hh]

/-- What `begin` that answers has done (R210). -/
theorem begin_next {columns rows : Byte} {s t : State} (h : exec (.begin columns rows) s = .next t) :
    Finished (.begin columns rows) s t ∨ Raised (.begin columns rows) s t := by
  by_cases hrun : s.phase = .constructed ∧ s.handle.isSome = true
  · obtain ⟨hp, hsome⟩ := hrun
    obtain ⟨hd, hh⟩ := Option.isSome_iff_exists.1 hsome
    rw [exec_begin_constructed hp hh] at h
    cases h
    have hkept := partKept_beginSteps hd columns rows s
    obtain ⟨-, hdoes⟩ := does_beginSteps hd columns rows
    cases ho : allOutputs s (beginWrites hd rows) with
    | true =>
      obtain ⟨t, ht, ⟨-, -, -, hf, hpe, hr⟩, hph, hhd⟩ := (hdoes s).1 ho
      rw [ht]
      exact .inl ⟨by rw [hp]; rfl, hph, hhd, hf, hpe, fun _ => hr⟩
    | false =>
      obtain ⟨t, ht, _, _, _, -, -, -, hf, hph, -, -, -, hpe, hr⟩ := (hdoes s).2 ho
      rw [ht] at hkept ⊢
      exact .inr ⟨hph, by simp [hf], hkept, hpe, fun _ => hr⟩
  · obtain ⟨-, h⟩ := next_unlessFaulted h
    split at h
    · cases h; exact .inr (raised_raise _ _ s)
    split at h
    · split at h
      · simp_all
      · cases h; exact .inr (raised_raise _ _ s)
    · cases h; exact .inr (raised_raise _ _ s)

/-- What `create` that answers has done (R201). -/
theorem create_next {rs en d4 d5 d6 d7 : Byte} {s t : State} (h : exec (.create rs en d4 d5 d6 d7) s = .next t) :
    Finished (.create rs en d4 d5 d6 d7) s t ∨ Raised (.create rs en d4 d5 d6 d7) s t := by
  obtain ⟨-, h⟩ := next_unlessFaulted h
  split at h
  · next hp =>
    cases h
    obtain ⟨t, ht, hph, hh, -, -, -, hf, hpe, hr⟩ := createSteps_go (newHandle rs en d4 d5 d6 d7) s
    rw [ht]
    exact .inl ⟨by rw [hp]; rfl, hph, hh, hf, hpe, fun _ => hr⟩
  · cases h; exact .inr (raised_raise _ _ s)

/-! ### Primitives and bus words -/

/-- The handle and the inputs are as they were, and so are the phase and the fault unless a fault was raised; with `g`
false nothing was given back. -/
structure Quiet (g : Bool) (s t : State) : Prop where
  handle : t.handle = s.handle
  pending : t.pending = s.pending
  returned : g = false → t.returned = s.returned
  outcome : (t.phase = s.phase ∧ t.fault = s.fault) ∨ (t.phase = .faulted ∧ t.fault.isSome = true)

theorem Quiet.refl {g : Bool} (s : State) : Quiet g s s := ⟨rfl, rfl, fun _ => rfl, .inl ⟨rfl, rfl⟩⟩

theorem Quiet.trans {g : Bool} (s t u : State) (h : Quiet g s t) (h' : Quiet g t u) : Quiet g s u := by
  refine ⟨h'.handle.trans h.handle, h'.pending.trans h.pending, fun hg => (h'.returned hg).trans (h.returned hg), ?_⟩
  rcases h'.outcome with ⟨hp, hf⟩ | hraised
  · rw [hp, hf]; exact h.outcome
  · exact .inr hraised

theorem quiet_raise {g : Bool} (r : FaultRecord) (s : State) : Quiet g s (raise r s) :=
  ⟨rfl, rfl, fun _ => rfl, .inr ⟨rfl, rfl⟩⟩

theorem Sends.quiet {g : Bool} {k : State → Flow} {ws : List RegWrite} {n : Nat} (hk : Sends k ws n) :
    Keeps (Quiet g) k := by
  intro s
  cases ho : allOutputs s ws with
  | true =>
    obtain ⟨t, ht, ⟨-, -, -, hf, hpe, hr⟩, hp, hh⟩ := (hk.2 s).1 ho
    rw [ht]
    exact ⟨hh, hpe, fun _ => hr, .inl ⟨hp, hf⟩⟩
  | false =>
    obtain ⟨t, ht, _, _, _, -, -, -, hf, hp, hh, -, -, -, hpe, hr⟩ := (hk.2 s).2 ho
    rw [ht]
    exact ⟨hh, hpe, fun _ => hr, .inr ⟨hp, by simp [hf]⟩⟩

theorem Directs.quiet {g : Bool} {k : State → Flow} {ws : List RegWrite} (hk : Directs k ws) : Keeps (Quiet g) k := by
  intro s
  obtain ⟨t, ht, ⟨-, -, -, hf, hpe, hr⟩, hp, hh⟩ := hk s
  rw [ht]
  exact ⟨hh, hpe, fun _ => hr, .inl ⟨hp, hf⟩⟩

theorem Read.quiet {g : Bool} {s t : State} {reads : List (Pin × Bool)} (h : Read s t reads) : Quiet g s t := by
  obtain ⟨-, -, -, hf, hpe, hr, hp, hh⟩ := h
  exact ⟨hh, hpe, fun _ => hr, .inl ⟨hp, hf⟩⟩

theorem quiet_giveBack (r : Returned) (s : State) : Quiet true s (giveBack r s) :=
  ⟨rfl, rfl, fun hg => absurd hg (by decide), .inl ⟨rfl, rfl⟩⟩

/-- The poll (R190). -/
theorem quiet_readBusy (h : Handle) : Keeps (Quiet true) (readBusy h) := by
  have dirs := fun m => (directs_dataDirections h m).quiet (g := true)
  have set := fun pin l => (sends_setPin pin l).quiet (g := true)
  have wait := fun n => (sends_delayUs n).quiet (g := true)
  have row {ks : List (State → Flow)} := keeps_runSteps_of_trans (R := Quiet true) (ks := ks) Quiet.refl Quiet.trans
  have read := fun s => Exists.elim (read_sampleNibble h s) fun _ ⟨_, _, _, _, hr⟩ => hr.quiet (g := true)
  intro s
  refine andThen_of_trans Quiet.trans (row ?_ s) fun s => ?_
  · simp only [List.forall_mem_cons, List.not_mem_nil, false_imp_iff, implies_true, and_true]
    exact ⟨dirs _, set _ _, set _ _, wait _⟩
  refine Quiet.trans _ _ _ (read s) (andThen_of_trans Quiet.trans (row ?_ _) fun s => ?_)
  · simp only [List.forall_mem_cons, List.not_mem_nil, false_imp_iff, implies_true, and_true]
    exact ⟨set _ _, wait _, set _ _, wait _⟩
  refine Quiet.trans _ _ _ (read s) (andThen_of_trans Quiet.trans (row ?_ _) fun s => quiet_giveBack _ s)
  simp only [List.forall_mem_cons, List.not_mem_nil, false_imp_iff, implies_true, and_true]
  exact ⟨set _ _, dirs _⟩

/-- A primitive or bus word that answers has run quietly (log 1, log 8). -/
theorem primitive_next {i : Instr} {s t : State} (hi : i.kind ≠ .hostOperation) (h : exec i s = .next t) :
    s.phase ≠ .faulted ∧ Quiet (givesBack i) s t := by
  have shell {op : OpName} {body : Handle → State → Flow} (hrun : runWithHandle op s body = .next t)
      (hbody : ∀ hd, Keeps (Quiet (givesBack i)) (body hd)) : s.phase ≠ .faulted ∧ Quiet (givesBack i) s t := by
    obtain ⟨hp, ⟨hd, -, rfl⟩ | ⟨r, rfl⟩⟩ := next_runWithHandle hrun
    · exact ⟨hp, hbody hd s⟩
    · exact ⟨hp, quiet_raise r s⟩
  cases i with
  | resolve n =>
    obtain ⟨hp, h⟩ := next_unlessFaulted h
    cases h
    exact ⟨hp, quiet_giveBack _ s⟩
  | sample pin =>
    obtain ⟨hp, h⟩ := next_unlessFaulted h
    cases h
    exact ⟨hp, Quiet.trans _ _ _ (read_samplePin pin s).quiet (quiet_giveBack _ _)⟩
  | set pin l =>
    obtain ⟨hp, h⟩ := next_unlessFaulted h
    cases h
    exact ⟨hp, (sends_setPin pin l).quiet s⟩
  | setDirection pin m =>
    obtain ⟨hp, h⟩ := next_unlessFaulted h
    cases h
    exact ⟨hp, (directs_setDirection pin m).quiet s⟩
  | delayUs n =>
    obtain ⟨hp, h⟩ := next_unlessFaulted h
    cases h
    exact ⟨hp, (sends_delayUs n).quiet s⟩
  | delayMs n =>
    obtain ⟨hp, h⟩ := next_unlessFaulted h
    cases h
    exact ⟨hp, (sends_delayMs n).quiet s⟩
  | pulseEnable => exact shell h fun hd => (sends_pulseEnable hd).quiet
  | writeNibble v => exact shell h fun hd => (sends_writeNibble hd v).quiet
  | readBusy => exact shell h quiet_readBusy
  | transferByte | command | data | b1ClearDisplay | b2ReturnHome | b3EntryModeSet | b4DisplayControl
  | b5CursorDisplayShift | b6FunctionSet | b7SetCgramAddress | b8SetDdramAddress | b9WriteData =>
    exact shell h fun hd => (sends_transferByte hd _ _).quiet
  | create | begin | clear | home | setCursor | write | print | display | noDisplay | cursor | noCursor | blink
  | noBlink | scrollDisplayLeft | scrollDisplayRight | autoscroll | noAutoscroll | createChar => exact absurd rfl hi

end Sys2Proof.Machine
end

section
/-! PROOF. The frame of handle, phase, fault and inputs (R31, R37, R301), and the invariant of the machine. -/

namespace Sys2Proof.Machine

/-! ### How every instruction ends -/

section
variable {i : Instr} {s t : State}

/-- A command that ran to its end did so in Ready, and left the phase. -/
theorem command_ends (hi : isCommand i = true) (hruns : runsIn i .ready = true) (hphase : ∀ p, phaseAfter i p = p)
    (hhandle : ∀ h, handleAfter i (some h) = some (bytesAfter i h)) (h : exec i s = .next t) :
    Finished i s t ∨ Raised i s t := by
  refine (command_next hi h).imp_left ?_
  rintro ⟨hd, hp, hh, hpt, hht, ws, n, ⟨-, -, -, hf, hpe, hr⟩, -⟩
  exact ⟨by rw [hp, hruns], by rw [hpt, hphase], by rw [hht, hh, hhandle], hf, hpe, fun _ => hr⟩

/-- A primitive or bus word that ran to its end left the phase and the handle. -/
theorem primitive_ends (hi : i.kind ≠ .hostOperation) (hruns : ∀ p, runsIn i p = (p != .faulted))
    (hphase : ∀ p, phaseAfter i p = p) (hhandle : ∀ o, handleAfter i o = o.map id) (h : exec i s = .next t) :
    Finished i s t ∨ Raised i s t := by
  obtain ⟨hp, hh, hpe, hr, ⟨hpt, hf⟩ | ⟨hpt, hf⟩⟩ := primitive_next hi h
  · exact .inl ⟨by rw [hruns]; simpa using hp, by rw [hpt, hphase], by rw [hhandle, hh, Option.map_id, id], hf, hpe, hr⟩
  · exact .inr ⟨hpt, hf, by rw [hh], hpe, hr⟩

/-- Every instruction that answers has run to its end or has raised a fault. -/
theorem exec_next (h : exec i s = .next t) : Finished i s t ∨ Raised i s t := by
  cases i with
  | create => exact create_next h
  | begin => exact begin_next h
  | clear | home | setCursor | write | print | display | noDisplay | cursor | noCursor | blink | noBlink
  | scrollDisplayLeft | scrollDisplayRight | autoscroll | noAutoscroll | createChar =>
    exact command_ends rfl rfl (fun _ => rfl) (fun _ => rfl) h
  | resolve | set | setDirection | sample | delayUs | delayMs | pulseEnable | writeNibble | transferByte | command
  | data | readBusy | b1ClearDisplay | b2ReturnHome | b3EntryModeSet | b4DisplayControl | b5CursorDisplayShift
  | b6FunctionSet | b7SetCgramAddress | b8SetDdramAddress | b9WriteData =>
    exact primitive_ends nofun (fun _ => rfl) (fun _ => rfl) (fun _ => rfl) h

end

/-! ### The handle after an instruction -/

theorem handleAfter_of_ne_create {i : Instr} (hi : i.opName ≠ .create) (o : Option Handle) :
    handleAfter i o = o.map (bytesAfter i) := by
  cases i
  case create => exact absurd rfl hi
  all_goals rfl

/-- An instruction that runs to its end writes only the bytes it may (R31). -/
@[simp] theorem untouchedPart_bytesAfter (i : Instr) (h : Handle) :
    untouchedPart i (bytesAfter i h) = untouchedPart i h := by
  cases i <;> rfl

@[simp] theorem bytesAfter_pins (i : Instr) (h : Handle) : (bytesAfter i h).pins = h.pins := by
  cases i <;> rfl

/-- Settles O54. -/
theorem handlePhaseAndFaultFrame : Obligations.HandlePhaseAndFaultFrame := by
  intro i s t h
  rcases exec_next h with hdone | hraised
  · refine ⟨fun hi => ?_, fun hc hb => .inl ?_, fun hc => .inl ?_, fun hb => .inl ?_, fun _ => hdone.fault,
      hdone.pending, hdone.returned⟩
    · rw [hdone.handle, handleAfter_of_ne_create hi, Option.map_map]
      congr 1
      funext hd
      exact untouchedPart_bytesAfter i hd
    · rw [hdone.phase, phaseAfter, if_neg hc, if_neg hb]
    · rw [hdone.phase, phaseAfter, if_pos hc]
    · rw [hdone.phase, phaseAfter, if_neg (by simp [hb]), if_pos hb]
  · exact ⟨fun _ => hraised.handle, fun _ _ => .inr hraised.phase, fun _ => .inr hraised.phase,
      fun _ => .inr hraised.phase, fun hp => absurd hraised.phase hp, hraised.pending, hraised.returned⟩

/-! ### The handle fits the phase -/

/-- No operation leaves the legal values of `H.control_flags` (R34). -/
theorem controlFlagsLegal_update {f : Byte} (hf : controlFlagsLegal f = true) :
    controlFlagsLegal (setFlag displayBit f) = true ∧ controlFlagsLegal (clearFlag displayBit f) = true ∧
    controlFlagsLegal (setFlag cursorBit f) = true ∧ controlFlagsLegal (clearFlag cursorBit f) = true ∧
    controlFlagsLegal (setFlag blinkBit f) = true ∧ controlFlagsLegal (clearFlag blinkBit f) = true := by
  revert f; decide

/-- No operation leaves the legal values of `H.entry_flags` (R35, R235). -/
theorem entryFlagsLegal_update {f : Byte} (hf : entryFlagsLegal f = true) :
    entryFlagsLegal (setFlag autoscrollBit f) = true ∧ entryFlagsLegal (clearFlag autoscrollBit f) = true := by
  revert f; decide

theorem configured_withControl {h : Handle} {c : Byte} (hc : h.configured = true) (hl : controlFlagsLegal c = true) :
    Handle.configured { h with controlFlags := some c } = true := by
  obtain ⟨_, e, n, hf, -, -, hef, hel, hlc, hcur⟩ := configured_iff.1 hc
  exact configured_iff.2 ⟨c, e, n, hf, rfl, hl, hef, hel, hlc, hcur⟩

theorem configured_withEntry {h : Handle} {e : Byte} (hc : h.configured = true) (hl : entryFlagsLegal e = true) :
    Handle.configured { h with entryFlags := some e } = true := by
  obtain ⟨c, _, n, hf, hcf, hcl, -, -, hlc, hcur⟩ := configured_iff.1 hc
  exact configured_iff.2 ⟨c, e, n, hf, hcf, hcl, rfl, hl, hlc, hcur⟩

theorem configured_updateControl {h : Handle} {update : Byte → Byte} (hc : h.configured = true)
    (hu : ∀ f, controlFlagsLegal f = true → controlFlagsLegal (update f) = true) :
    Handle.configured { h with controlFlags := h.controlFlags.map update } = true := by
  obtain ⟨c, -, -, -, hcf, hcl, -⟩ := configured_iff.1 hc
  rw [hcf]
  exact configured_withControl hc (hu c hcl)

theorem configured_updateEntry {h : Handle} {update : Byte → Byte} (hc : h.configured = true)
    (hu : ∀ f, entryFlagsLegal f = true → entryFlagsLegal (update f) = true) :
    Handle.configured { h with entryFlags := h.entryFlags.map update } = true := by
  obtain ⟨-, e, -, -, -, -, hef, hel, -⟩ := configured_iff.1 hc
  rw [hef]
  exact configured_withEntry hc (hu e hel)

/-- `begin` configures any handle (R215 to R218). -/
theorem configured_begin (columns rows : Byte) (h : Handle) :
    (bytesAfter (.begin columns rows) h).configured = true :=
  configured_iff.2 ⟨_, _, rows, rfl, rfl, rfl, rfl, rfl, rfl, rfl⟩

/-- A configured handle stays configured (R33 to R36). -/
theorem configured_bytesAfter (i : Instr) {h : Handle} (hc : h.configured = true) :
    (bytesAfter i h).configured = true := by
  cases i with
  | begin columns rows => exact configured_begin columns rows h
  | display | noDisplay | cursor | noCursor | blink | noBlink =>
    exact configured_updateControl hc fun f hf => by simp [controlFlagsLegal_update hf]
  | autoscroll | noAutoscroll => exact configured_updateEntry hc fun f hf => by simp [entryFlagsLegal_update hf]
  | _ => exact hc

/-- Every logical pin number resolves to a reachable Pin (R63). -/
theorem reachablePin_resolvePin (n : Byte) : reachablePin (resolvePin n) = true := by
  revert n; decide

/-- Outside Ready only `create` and `begin` write the handle. -/
theorem handleAfter_of_ne_ready {i : Instr} {p : Phase} (hr : runsIn i p = true) (hp : p ≠ .ready)
    (hc : i.opName ≠ .create) (hb : i.opName ≠ .begin) (o : Option Handle) : handleAfter i o = o := by
  cases i
  case create => exact absurd rfl hc
  case begin => exact absurd rfl hb
  case display | noDisplay | cursor | noCursor | blink | noBlink | autoscroll | noAutoscroll =>
    exact absurd (eq_of_beq hr) hp
  all_goals exact congrFun Option.map_id o

theorem phaseFits_ready {s : State} (hp : s.phase = .ready) : s.phaseFits = true ↔
    ∃ h, s.handle = some h ∧ h.configured = true ∧ h.pins.all reachablePin = true := by
  cases hh : s.handle <;> simp [State.phaseFits, hp, hh]

theorem phaseFits_constructed {s : State} (hp : s.phase = .constructed) : s.phaseFits = true ↔
    ∃ h, s.handle = some h ∧ h.unset = true ∧ h.pins.all reachablePin = true := by
  cases hh : s.handle <;> simp [State.phaseFits, hp, hh]

theorem phaseFits_congr {s t : State} (hp : t.phase = s.phase) (hh : t.handle = s.handle) :
    t.phaseFits = s.phaseFits := by
  simp only [State.phaseFits, hp, hh]

/-- An instruction that ran to its end leaves a handle that fits the phase (R37). -/
theorem Finished.phaseFits {i : Instr} {s t : State} (h : Finished i s t) (hs : s.phaseFits = true) :
    t.phaseFits = true := by
  obtain ⟨hruns, hphase, hhandle, -, -, -⟩ := h
  by_cases hc : i.opName = .create
  · cases i
    case create rs en d4 d5 d6 d7 =>
      refine (phaseFits_constructed hphase).2 ⟨_, hhandle, rfl, ?_⟩
      simp [Handle.pins, newHandle, reachablePin_resolvePin]
    all_goals cases hc
  by_cases hb : i.opName = .begin
  · cases i
    case begin columns rows =>
      obtain ⟨hd, hh, -, hpins⟩ := (phaseFits_constructed (eq_of_beq hruns)).1 hs
      exact (phaseFits_ready hphase).2 ⟨_, by rw [hhandle, hh]; rfl, configured_begin columns rows hd, hpins⟩
    all_goals cases hb
  rw [phaseAfter, if_neg hc, if_neg hb] at hphase
  by_cases hp : s.phase = .ready
  · obtain ⟨hd, hh, hcfg, hpins⟩ := (phaseFits_ready hp).1 hs
    refine (phaseFits_ready (hphase.trans hp)).2
      ⟨bytesAfter i hd, ?_, configured_bytesAfter i hcfg, by simpa using hpins⟩
    rw [hhandle, handleAfter_of_ne_create hc, hh, Option.map_some]
  · rw [phaseFits_congr hphase (hhandle.trans (handleAfter_of_ne_ready hruns hp hc hb _)), hs]

/-! ### The step -/

/-- What a step that answers has done: let time pass, taken an environment write, or run what was delivered (R42). -/
theorem step_next {s t : State} (h : step s = .next t) : s.phase ≠ .faulted ∧
    ((s.pending = [] ∧ t = gap s) ∨
      (∃ reg p mask value rest, s.pending = .envWrite reg p mask value :: rest ∧
        envWrite reg p mask value (takeInput rest s) = .next t) ∨
      ∃ e rest i, s.pending = e :: rest ∧ delivered e = some (.ok i) ∧ exec i (takeInput rest s) = .next t) := by
  unfold step at h
  split at h
  · cases h
  next hp =>
  refine ⟨hp, ?_⟩
  split at h
  · next hpe => cases h; exact .inl ⟨hpe, rfl⟩
  · next hpe => exact .inr (.inl ⟨_, _, _, _, _, hpe, h⟩)
  all_goals
    next hpe =>
    obtain ⟨i, hi, h⟩ := next_runDelivered h
    exact .inr (.inr ⟨_, _, i, hpe, congrArg some hi, h⟩)

/-- The handle and the fault go with the phase (R37, R301). -/
def PhaseOk (s : State) : Prop := (s.fault.isSome = true ↔ s.phase = .faulted) ∧ s.phaseFits = true

theorem PhaseOk.congr {s t : State} (hs : PhaseOk s) (hp : t.phase = s.phase) (hh : t.handle = s.handle)
    (hf : t.fault = s.fault) : PhaseOk t := by
  obtain ⟨hfault, hfits⟩ := hs
  exact ⟨by rw [hf, hp, hfault], by rw [phaseFits_congr hp hh, hfits]⟩

theorem runsIn_faulted (i : Instr) : runsIn i .faulted = false := by cases i <;> rfl

theorem phaseAfter_ne_faulted (i : Instr) {p : Phase} (hp : p ≠ .faulted) : phaseAfter i p ≠ .faulted := by
  unfold phaseAfter
  split_ifs
  · decide
  · decide
  · exact hp

theorem exec_phaseOk {i : Instr} {s t : State} (hs : PhaseOk s) (h : exec i s = .next t) : PhaseOk t := by
  obtain ⟨hfault, hfits⟩ := hs
  rcases exec_next h with hdone | hraised
  · have hsp : s.phase ≠ .faulted := fun hp => by simpa [hp, runsIn_faulted] using hdone.runsIn
    have htp : t.phase ≠ .faulted := hdone.phase ▸ phaseAfter_ne_faulted i hsp
    exact ⟨by rw [hdone.fault, hfault, iff_false_intro hsp, iff_false_intro htp], hdone.phaseFits hfits⟩
  · exact ⟨by simp [hraised.phase, hraised.fault], by simp [State.phaseFits, hraised.phase]⟩

theorem step_phaseOk {s t : State} (hs : PhaseOk s) (h : step s = .next t) : PhaseOk t := by
  obtain ⟨-, ⟨-, rfl⟩ | ⟨reg, p, mask, value, rest, -, h⟩ | ⟨e, rest, i, -, -, h⟩⟩ := step_next h
  · exact hs.congr rfl rfl rfl
  · obtain ⟨-, rfl⟩ := next_envWrite h
    exact hs.congr rfl rfl rfl
  · exact exec_phaseOk (hs.congr (t := takeInput rest s) rfl rfl rfl) h

/-- Settles O55. -/
theorem everyStepKeepsTheInvariant : Obligations.EveryStepKeepsTheInvariant := by
  rintro s t ⟨hwf, hmapped, htimely, hphase⟩ h
  have hlog := step_logged h
  obtain ⟨hwf', hmapped'⟩ := hlog.memory ⟨hwf, hmapped⟩
  exact ⟨hwf', hmapped', hlog.timely htimely, step_phaseOk hphase h⟩

end Sys2Proof.Machine
end

section
/-! SUPPORT. The bus (R41, R176, R177): what each register write does to the lines, what the strobes latch, and how
latched words pair. -/

namespace Sys2Proof.Machine

/-! ### Lines -/

/-- The handle's Pins are outputs, with these levels on RS and the data lines and this level on Enable (R41). -/
structure Lines (h : Handle) (m : Memory) (l : Latch) (en : Bool) : Prop where
  outputs : ∀ pin ∈ h.pins, bitOf (Memory.read m (Config.ddrAddr pin.port)) pin.bit = true
  latch : latchOf h m = l
  enable : lineLevel m h.en = some en

/-- Driving a Pin moves its own line and no other. -/
theorem lineLevel_drive {m : Memory} {pin q : Pin} (level : Bool)
    (ho : bitOf (Memory.read m (Config.ddrAddr pin.port)) pin.bit = true) :
    lineLevel (writeMem m (drive q level)) pin = if pin = q then some level else lineLevel m pin := by
  simp only [lineLevel, ddrBit_drive, ho, if_true, portBit_drive]
  split <;> rfl

/-- Driving Enable low when it is high is a falling edge; no other level write is one (R176). -/
theorem fallingEdge_drive (h : Handle) (m : Memory) (q : Pin) (level : Bool) :
    fallingEdge h m (writeEvent m (drive q level)) = (decide (q = h.en ∧ level = false) &&
      decide (lineLevel m h.en = some true)) := by
  have hpin : (q.port = h.en.port ∧ q.bit = h.en.bit) ↔ q = h.en := by
    cases q
    cases h.en
    simp
  cases level <;> simp [writeEvent, drive, fallingEdge, hpin]

/-- From every state of the lines `l`, `en` the writes latch the words `ls` and leave the lines `l'`, `en'`. -/
def Latches (h : Handle) (l : Latch) (en : Bool) (ws : List RegWrite) (ls : List Latch) (l' : Latch)
    (en' : Bool) : Prop :=
  ∀ m, Lines h m l en → latched h m (writesEvents m ws) = ls ∧ Lines h (writesMem m ws) l' en'

theorem latched_append (h : Handle) (m : Memory) (es fs : List EventKind) :
    latched h m (es ++ fs) = latched h m es ++ latched h (es.foldl applyEvent m) fs := by
  induction es generalizing m with
  | nil => rfl
  | cons e es ih =>
    simp only [List.cons_append, latched, List.foldl_cons, ih]
    split <;> rfl

section
variable {h : Handle} {l l' l'' : Latch} {en en' en'' : Bool} {ws vs : List RegWrite} {ls ks : List Latch}

theorem Latches.append (hw : Latches h l en ws ls l' en') (hv : Latches h l' en' vs ks l'' en'') :
    Latches h l en (ws ++ vs) (ls ++ ks) l'' en'' := by
  intro m hm
  obtain ⟨hls, hm'⟩ := hw m hm
  obtain ⟨hks, hm''⟩ := hv _ hm'
  rw [writesEvents_append, latched_append, foldl_applyEvent_writesEvents, writesMem_append, hls, hks]
  exact ⟨rfl, hm''⟩

end

/-- The levels on RS and the data lines after a level is driven on a Pin. -/
def driveLatch (h : Handle) (q : Pin) (level : Bool) (l : Latch) : Latch where
  rs := if h.rs = q then some level else l.rs
  d7 := if h.d7 = q then some level else l.d7
  d6 := if h.d6 = q then some level else l.d6
  d5 := if h.d5 = q then some level else l.d5
  d4 := if h.d4 = q then some level else l.d4

section
variable {h : Handle} (q : Pin) (level : Bool) {l : Latch} {en : Bool}

theorem Lines.drive {m : Memory} (hm : Lines h m l en) :
    Lines h (writeMem m (Machine.drive q level)) (driveLatch h q level l) (if h.en = q then level else en) where
  outputs pin hp := by rw [ddrBit_drive]; exact hm.outputs pin hp
  latch := by
    obtain ⟨houtputs, hlatch, -⟩ := hm
    have line := fun pin hp => lineLevel_drive (q := q) level (houtputs pin hp)
    simp only [Handle.pins, List.forall_mem_cons] at line
    simp [← hlatch, latchOf, driveLatch, line]
  enable := by
    rw [lineLevel_drive level (hm.outputs h.en (by simp [Handle.pins])), hm.enable]
    split <;> rfl

/-- A level write that is no falling edge latches nothing. -/
theorem latches_drive (hq : ¬(q = h.en ∧ level = false ∧ en = true)) :
    Latches h l en [drive q level] [] (driveLatch h q level l) (if h.en = q then level else en) := by
  intro m hm
  have hedge : fallingEdge h m (writeEvent m (drive q level)) = false := by
    rw [fallingEdge_drive, hm.enable]
    simpa [and_assoc] using hq
  exact ⟨by simp [latched, hedge], hm.drive q level⟩

/-- A falling edge of Enable latches the lines (R176). -/
theorem latches_fall (h : Handle) (l : Latch) :
    Latches h l true [drive h.en false] [driveLatch h h.en false l] (driveLatch h h.en false l) false := by
  intro m hm
  have hedge : fallingEdge h m (writeEvent m (drive h.en false)) = true := by
    rw [fallingEdge_drive, hm.enable]
    simp
  have hm' := hm.drive h.en false
  rw [if_pos rfl] at hm'
  exact ⟨by simp [latched, hedge, hm'.latch], hm'⟩

end

/-! ### Six distinct Pins -/

section
variable {h : Handle} (hn : h.pins.Nodup) (level : Bool) (l : Latch) (en : Bool)
include hn

/-- A level on a Pin of six distinct ones is the level of one line. -/
theorem driveLatch_of_nodup : driveLatch h h.rs level l = { l with rs := some level } ∧
    driveLatch h h.en level l = l ∧ driveLatch h h.d4 level l = { l with d4 := some level } ∧
    driveLatch h h.d5 level l = { l with d5 := some level } ∧
    driveLatch h h.d6 level l = { l with d6 := some level } ∧
    driveLatch h h.d7 level l = { l with d7 := some level } := by
  simp only [Handle.pins, List.nodup_cons, List.mem_cons, not_or] at hn
  cases l
  grind [driveLatch]

theorem latches_level {q : Pin} (hq : q ∈ [h.rs, h.d4, h.d5, h.d6, h.d7]) :
    Latches h l en [drive q level] [] (driveLatch h q level l) en := by
  have hne : q ≠ h.en := by
    simp only [Handle.pins, List.nodup_cons, List.mem_cons, not_or] at hn
    grind
  have hlatches := latches_drive q level (l := l) (en := en) fun hfall => hne hfall.1
  rwa [if_neg hne.symm] at hlatches

/-- A strobe latches the lines once and leaves them (R170, R176). -/
theorem latches_pulse : Latches h l false (pulseWrites h) [l] l false := by
  have low := latches_drive (h := h) (l := l) (en := false) h.en false (by simp)
  have high := latches_drive (h := h) (l := l) (en := false) h.en true (by simp)
  have fall := latches_fall h l
  obtain ⟨-, hen, -⟩ := driveLatch_of_nodup hn false l
  obtain ⟨-, hen', -⟩ := driveLatch_of_nodup hn true l
  rw [if_pos rfl, hen] at low
  rw [if_pos rfl, hen'] at high
  rw [hen] at fall
  exact low.append (high.append fall)

/-- A nibble latches its four bits with RS as it stands, and leaves them on the lines (R171, R176). -/
theorem latches_nibble (rs : Bool) (v : Byte) (hrs : l.rs = some rs) :
    Latches h l false (nibbleWrites h v) [nibbleLatch rs v] (nibbleLatch rs v) false := by
  have data := fun q hq b l => latches_level hn b l false (q := q) hq
  have chain := (data h.d4 (by simp) (bitOf v 0) l).append <| (data h.d5 (by simp) (bitOf v 1) _).append <|
    (data h.d6 (by simp) (bitOf v 2) _).append <| (data h.d7 (by simp) (bitOf v 3) _).append (latches_pulse hn _)
  simp only [driveLatch_of_nodup hn, hrs] at chain
  exact chain

/-- A transfer latches its two nibbles, the high one first, whatever was on the lines (R172, R177). -/
theorem latches_transfer (v : Byte) (rs : Bool) : Latches h l false (transferWrites h v rs)
    [nibbleLatch rs (v >>> 4), nibbleLatch rs v] (nibbleLatch rs v) false := by
  have chain := (latches_level hn rs l false (q := h.rs) (by simp)).append <|
    (latches_nibble hn (driveLatch h h.rs rs l) rs (v >>> 4) (by simp [driveLatch])).append
      (latches_nibble hn _ rs v rfl)
  exact chain

end

/-! ### Words -/

/-- The two latched words of each of some bus words (R177). -/
def wordLatches (ws : List (BitVec 9)) : List Latch :=
  ws.flatMap fun w => [nibbleLatch (wordRs w) (wordByte w >>> 4), nibbleLatch (wordRs w) (wordByte w)]

/-- On a clean bus the transfers of words latch their nibbles and leave Enable low. -/
theorem latches_words {h : Handle} (hn : h.pins.Nodup) (ws : List (BitVec 9)) (l : Latch) :
    ∃ l', Latches h l false (wordsWrites h ws) (wordLatches ws) l' false := by
  induction ws generalizing l with
  | nil => exact ⟨l, fun m hm => ⟨rfl, hm⟩⟩
  | cons w ws ih =>
    obtain ⟨l', hl'⟩ := ih (nibbleLatch (wordRs w) (wordByte w))
    exact ⟨l', (latches_transfer hn l (wordByte w) (wordRs w)).append hl'⟩

theorem pairWord_nibbleLatch (rs : Bool) (v : Byte) :
    pairWord (nibbleLatch rs (v >>> 4)) (nibbleLatch rs v) = some (transferredWord rs v) := by
  revert rs v; decide

/-- The nibbles of words pair to the words (R177). -/
theorem pairWords_wordLatches (ws : List (BitVec 9)) : pairWords (wordLatches ws) = some ws := by
  induction ws with
  | nil => rfl
  | cons w ws ih =>
    have hpair := pairWord_nibbleLatch (wordRs w) (wordByte w)
    rw [transferredWord_wordByte] at hpair
    have hcons : wordLatches (w :: ws) = nibbleLatch (wordRs w) (wordByte w >>> 4) ::
      nibbleLatch (wordRs w) (wordByte w) :: wordLatches ws := rfl
    rw [hcons, pairWords, hpair, ih]

theorem pairWords_cons_cons {hi lo : Latch} {rest : List Latch} {ws : List (BitVec 9)} :
    pairWords (hi :: lo :: rest) = some ws ↔
      ∃ w ws', pairWord hi lo = some w ∧ pairWords rest = some ws' ∧ ws = w :: ws' := by
  rw [pairWords]
  cases pairWord hi lo <;> cases pairWords rest <;> simp [eq_comm]

/-- Words that pair, and then words that pair. -/
theorem pairWords_append {ks : List Latch} {vs : List (BitVec 9)} (hks : pairWords ks = some vs) :
    ∀ {ls : List Latch} {ws : List (BitVec 9)}, pairWords ls = some ws → pairWords (ls ++ ks) = some (ws ++ vs)
  | [], _, hls => by cases hls; exact hks
  | [_], _, hls => by cases hls
  | hi :: lo :: rest, _, hls => by
    obtain ⟨w, ws', hw, hrest, rfl⟩ := pairWords_cons_cons.1 hls
    exact pairWords_cons_cons.2 ⟨w, ws' ++ vs, hw, pairWords_append hks hrest, rfl⟩

end Sys2Proof.Machine
end

section
/-! PROOF. The flag invariant (R32): `begin` puts the flag bytes in sync with the bytes sent, and whatever the host
plays keeps them so. -/

namespace Sys2Proof.Machine

/-! ### The last words sent -/

theorem lastWord_append (mask pattern : BitVec 9) (ws vs : List (BitVec 9)) :
    lastWord mask pattern (ws ++ vs) = (lastWord mask pattern vs).or (lastWord mask pattern ws) := by
  simp [lastWord, List.find?_append]

/-- A word that is no function-set, display-control or entry-mode byte. -/
def carriesNoFlags (w : BitVec 9) : Bool :=
  !(w &&& 0x1E3#9 == 0x020#9) && !(w &&& 0x1F8#9 == 0x008#9) && !(w &&& 0x1FC#9 == 0x004#9)

theorem carriesNoFlags_b7Word (a : BitVec 6) : carriesNoFlags (b7Word a) = true := by revert a; decide
theorem carriesNoFlags_b8Word (a : BitVec 7) : carriesNoFlags (b8Word a) = true := by revert a; decide
theorem carriesNoFlags_b9Word (c : Byte) : carriesNoFlags (b9Word c) = true := by revert c; decide

/-- A display-control byte is no function-set and no entry-mode byte (R102). -/
theorem lastWord_displayControlByte {c : Byte} (hc : controlFlagsLegal c = true) :
    lastWord 0x1E3#9 0x020#9 [transferredWord false (displayControlByte c)] = none ∧
      lastWord 0x1F8#9 0x008#9 [transferredWord false (displayControlByte c)] =
        some (transferredWord false (displayControlByte c)) ∧
      lastWord 0x1FC#9 0x004#9 [transferredWord false (displayControlByte c)] = none := by
  revert c; decide

/-- An entry-mode byte is no function-set and no display-control byte (R102). -/
theorem lastWord_entryModeByte {e : Byte} (he : entryFlagsLegal e = true) :
    lastWord 0x1E3#9 0x020#9 [transferredWord false (entryModeByte e)] = none ∧
      lastWord 0x1F8#9 0x008#9 [transferredWord false (entryModeByte e)] = none ∧
      lastWord 0x1FC#9 0x004#9 [transferredWord false (entryModeByte e)] =
        some (transferredWord false (entryModeByte e)) := by
  revert e; decide

section
variable {h : Handle} {ws : List (BitVec 9)}

/-- Words that carry no flags leave the flag bytes in sync. -/
theorem FlagsSent.append_noFlags {vs : List (BitVec 9)} (hs : FlagsSent h ws)
    (hv : ∀ w ∈ vs, carriesNoFlags w = true) : FlagsSent h (ws ++ vs) := by
  obtain ⟨hc, hf, hd, he⟩ := hs
  have hnone {mask pattern : BitVec 9} (hm : ∀ w ∈ vs, (w &&& mask == pattern) = false) :
      lastWord mask pattern (ws ++ vs) = lastWord mask pattern ws := by
    have hlast : lastWord mask pattern vs = none := by simpa [lastWord] using hm
    rw [lastWord_append, hlast, Option.none_or]
  simp only [carriesNoFlags, Bool.and_eq_true, Bool.not_eq_true', imp_and, forall_and] at hv
  obtain ⟨⟨hvf, hvd⟩, hve⟩ := hv
  exact ⟨hc, (hnone hvf).trans hf, (hnone hvd).trans hd, (hnone hve).trans he⟩

/-- A display-control byte and the flags it carries (R104(c), R245). -/
theorem FlagsSent.append_control {c : Byte} (hs : FlagsSent h ws) (hc : controlFlagsLegal c = true) :
    FlagsSent { h with controlFlags := some c } (ws ++ [transferredWord false (displayControlByte c)]) := by
  obtain ⟨hcfg, hf, hd, he⟩ := hs
  obtain ⟨hlf, hld, hle⟩ := lastWord_displayControlByte hc
  exact ⟨configured_withControl hcfg hc, by rw [lastWord_append, hlf, Option.none_or, hf],
    by rw [lastWord_append, hld]; rfl, by rw [lastWord_append, hle, Option.none_or, he]⟩

/-- An entry-mode byte and the flags it carries (R104(c), R258). -/
theorem FlagsSent.append_entry {e : Byte} (hs : FlagsSent h ws) (hl : entryFlagsLegal e = true) :
    FlagsSent { h with entryFlags := some e } (ws ++ [transferredWord false (entryModeByte e)]) := by
  obtain ⟨hcfg, hf, hd, he⟩ := hs
  obtain ⟨hlf, hld, hle⟩ := lastWord_entryModeByte hl
  exact ⟨configured_withEntry hcfg hl, by rw [lastWord_append, hlf, Option.none_or, hf],
    by rw [lastWord_append, hld, Option.none_or, hd],
    by rw [lastWord_append, hle]; rfl⟩

/-- Every command leaves the flag bytes those that its words and the words before carry (R32). -/
theorem FlagsSent.append_command {i : Instr} (hi : isCommand i = true) (hs : FlagsSent h ws) :
    FlagsSent (bytesAfter i h) (ws ++ commandWords i h) := by
  obtain ⟨c, e, n, -, hc, hcl, he, hel, -⟩ := configured_iff.1 hs.1
  have control {update : Byte → Byte} (ha : bytesAfter i h = { h with controlFlags := h.controlFlags.map update })
      (hw : commandWords i h = [transferredWord false (displayControlByte (update c))])
      (hl : controlFlagsLegal (update c) = true) : FlagsSent (bytesAfter i h) (ws ++ commandWords i h) := by
    rw [ha, hw, hc]; exact hs.append_control hl
  have entry {update : Byte → Byte} (ha : bytesAfter i h = { h with entryFlags := h.entryFlags.map update })
      (hw : commandWords i h = [transferredWord false (entryModeByte (update e))])
      (hl : entryFlagsLegal (update e) = true) : FlagsSent (bytesAfter i h) (ws ++ commandWords i h) := by
    rw [ha, hw, he]; exact hs.append_entry hl
  cases i with
  | clear | home | scrollDisplayLeft | scrollDisplayRight =>
    exact hs.append_noFlags (List.forall_mem_singleton.2 rfl)
  | setCursor col row =>
    refine hs.append_noFlags ?_
    simp only [commandWords]
    split <;> simp [carriesNoFlags_b8Word]
  | write c => exact hs.append_noFlags (by simp [commandWords, carriesNoFlags_b9Word])
  | print text => exact hs.append_noFlags (by simp [commandWords, carriesNoFlags_b9Word])
  | createChar slot rows =>
    exact hs.append_noFlags (by simp [commandWords, carriesNoFlags_b7Word, carriesNoFlags_b9Word])
  | display | noDisplay | cursor | noCursor | blink | noBlink =>
    exact control rfl (by simp [commandWords, hc, b4Word_eq hcl]) (by simp [controlFlagsLegal_update hcl])
  | autoscroll | noAutoscroll =>
    exact entry rfl (by simp [commandWords, he, b3Word_eq hel]) (by simp [entryFlagsLegal_update hel])
  | create | begin | resolve | set | setDirection | sample | delayUs | delayMs | pulseEnable | writeNibble
  | transferByte | command | data | readBusy | b1ClearDisplay | b2ReturnHome | b3EntryModeSet | b4DisplayControl
  | b5CursorDisplayShift | b6FunctionSet | b7SetCgramAddress | b8SetDdramAddress | b9WriteData => cases hi

/-- Some word has been sent. -/
theorem FlagsSent.ne_nil (hs : FlagsSent h ws) : ws ≠ [] := by
  rintro rfl
  obtain ⟨hcfg, hf, -⟩ := hs
  obtain ⟨-, -, n, hff, -⟩ := configured_iff.1 hcfg
  rw [hff] at hf
  cases hf

end
end Sys2Proof.Machine
end

section
/-! PROOF. The flag invariant along a run (R32): `begin` establishes it and whatever the host plays keeps it. -/

namespace Sys2Proof.Machine

/-! ### The bus from the trace -/

/-- What is latched depends on the handle's Pins alone. -/
theorem latched_of_pins_eq {h h' : Handle} (hp : h'.pins = h.pins) : latched h' = latched h := by
  simp only [Handle.pins, List.cons.injEq, and_true] at hp
  obtain ⟨hrs, hen, h4, h5, h6, h7⟩ := hp
  have hedge : fallingEdge h' = fallingEdge h := by
    funext m e
    unfold fallingEdge
    rw [hen]
  have hlatch : latchOf h' = latchOf h := by
    funext m
    simp only [latchOf, hrs, h4, h5, h6, h7]
  funext m es
  induction es generalizing m with
  | nil => rfl
  | cons e es ih => simp only [latched, hedge, hlatch, ih]

/-- New events put their words behind those already on the bus (R177). -/
theorem busBytes_append {h h' : Handle} {launch : Memory} {s t : State} {evs : List Event} {ws vs : List (BitVec 9)}
    (hp : h'.pins = h.pins) (hm : s.mem = replay launch s.trace) (ht : t.trace = s.trace ++ evs)
    (hs : busBytes h launch s = some ws) (hne : ws ≠ [])
    (hl : latched h s.mem (evs.map Event.kind) = wordLatches vs) : busBytes h' launch t = some (ws ++ vs) := by
  have hsplit : latched h launch (eventsFrom 0 t) = latched h launch (eventsFrom 0 s) ++ wordLatches vs := by
    have hfold : (eventsFrom 0 s).foldl applyEvent launch = s.mem := hm.symm
    rw [← hl, ← hfold, ← latched_append]
    simp [eventsFrom, ht]
  have hraw : 4 ≤ (latched h launch (eventsFrom 0 s)).length := by
    by_contra hshort
    rw [busBytes, List.drop_of_length_le (by omega)] at hs
    cases hs
    exact hne rfl
  rw [busBytes, latched_of_pins_eq hp, hsplit, List.drop_append_of_le_length hraw]
  exact pairWords_append (pairWords_wordLatches vs) hs

/-- The lines of a state with a clean bus. -/
theorem CleanBus.lines {s : State} {h : Handle} (hc : CleanBus s h) (hd : driven s h = true) :
    Lines h s.mem (latchOf h s.mem) false :=
  ⟨List.all_eq_true.1 hd, rfl, hc.2⟩

/-- The bus is clean where Enable is low and the Pins are driven. -/
theorem Lines.clean {s : State} {h h' : Handle} {l : Latch} (hl : Lines h s.mem l false) (hn : h.pins.Nodup)
    (hp : h'.pins = h.pins) : driven s h' = true ∧ CleanBus s h' := by
  have hen : h'.en = h.en := by
    simp only [Handle.pins, List.cons.injEq] at hp
    obtain ⟨-, hen, -⟩ := hp
    exact hen
  refine ⟨?_, by rw [hp]; exact hn, by rw [hen]; exact hl.enable⟩
  rw [driven, hp]
  exact List.all_eq_true.2 hl.outputs

/-! ### begin -/

theorem allOutputs_beginWrites {s : State} {h : Handle} (hd : driven s h = true) (rows : Byte) :
    allOutputs s (beginWrites h rows) = true := by
  simp only [driven, Handle.pins, List.all_cons, List.all_nil, Bool.and_true, Bool.and_eq_true] at hd
  simp [beginWrites, transferWrites, nibbleWrites, pulseWrites, drive, hd]

/-- The words `begin` sends after its raw nibbles (R221). -/
def beginWords (rows : Byte) : List (BitVec 9) :=
  [functionSetByte (functionFlagsFor rows), displayControlByte controlFlagsInit, 0x01,
    entryModeByte entryFlagsInit].map (transferredWord false)

/-- The writes of `begin`: RS and Enable low, the four raw nibbles, the words (R210). -/
theorem beginWrites_eq (h : Handle) (rows : Byte) : beginWrites h rows = [drive h.rs false] ++ ([drive h.en false] ++
    (nibbleWrites h 0x03 ++ (nibbleWrites h 0x03 ++ (nibbleWrites h 0x03 ++ (nibbleWrites h 0x02 ++
      wordsWrites h (beginWords rows)))))) := by
  simp only [beginWrites, beginWords, List.map_cons, List.map_nil, wordsWrites_cons, wordsWrites_nil,
    wordByte_transferredWord, wordRs_transferredWord, List.append_assoc, List.append_nil, List.cons_append,
    List.nil_append]
  rfl

/-- `begin` latches its four raw nibbles and then its words (R221). -/
theorem latches_beginWrites {h : Handle} (hn : h.pins.Nodup) (rows : Byte) (l : Latch) : ∃ l', Latches h l false
    (beginWrites h rows) ([0x03, 0x03, 0x03, 0x02].map (nibbleLatch false) ++ wordLatches (beginWords rows)) l'
    false := by
  have hrs := latches_level hn false l false (q := h.rs) (by simp)
  have hen := latches_drive (h := h) (l := driveLatch h h.rs false l) (en := false) h.en false (by simp)
  rw [ite_self] at hen
  obtain ⟨-, hkeep, -⟩ := driveLatch_of_nodup hn false (driveLatch h h.rs false l)
  have nibble := fun l hl v => latches_nibble hn l false v hl
  obtain ⟨l', hwords⟩ := latches_words hn (beginWords rows) (nibbleLatch false 0x02)
  have chain := hrs.append <| hen.append <| (nibble _ (by rw [hkeep]; simp [driveLatch]) 0x03).append <|
    (nibble _ rfl 0x03).append <| (nibble _ rfl 0x03).append <| (nibble _ rfl 0x02).append hwords
  exact ⟨l', beginWrites_eq h rows ▸ chain⟩

/-- The last function-set, display-control and entry-mode words of `begin` (R32). -/
theorem lastWord_begin {f : Byte} (hf : functionFlagsLegal f = true) :
    let ws := [functionSetByte f, displayControlByte controlFlagsInit, 0x01,
      entryModeByte entryFlagsInit].map (transferredWord false)
    lastWord 0x1E3#9 0x020#9 ws = some (transferredWord false (functionSetByte f)) ∧
      lastWord 0x1F8#9 0x008#9 ws = some (transferredWord false (displayControlByte controlFlagsInit)) ∧
      lastWord 0x1FC#9 0x004#9 ws = some (transferredWord false (entryModeByte entryFlagsInit)) := by
  revert f; decide

theorem functionFlagsLegal_functionFlagsFor (rows : Byte) : functionFlagsLegal (functionFlagsFor rows) = true := by
  unfold functionFlagsFor
  split <;> rfl

/-- The words of `begin` carry the flag bytes it sets (R32). -/
theorem flagsSent_beginWords (columns rows : Byte) (h : Handle) :
    FlagsSent (bytesAfter (.begin columns rows) h) (beginWords rows) :=
  ⟨configured_begin columns rows h, lastWord_begin (functionFlagsLegal_functionFlagsFor rows)⟩

/-- Settles O58. -/
theorem beginPutsFlagsInSync : Obligations.BeginPutsFlagsInSync := by
  intro launch columns rows s h hp hh hd hclean hm hquiet
  obtain ⟨t, ht, ⟨⟨evs, htrace, hkinds⟩, hmem, -⟩, hphase, hhandle⟩ :=
    ((does_beginSteps h columns rows).2 s).1 (allOutputs_beginWrites hd rows)
  have hexec : exec (.begin columns rows) s = .next t := by
    rw [exec_begin_constructed hp hh, ht, Flow.state_go]
  obtain ⟨l', hlatches⟩ := latches_beginWrites hclean.1 rows (latchOf h s.mem)
  obtain ⟨hlatched, hlines⟩ := hlatches _ (hclean.lines hd)
  rw [← hmem] at hlines
  have hpins := bytesAfter_pins (.begin columns rows) h
  obtain ⟨hd', hclean'⟩ := hlines.clean hclean.1 hpins
  refine ⟨t, bytesAfter (.begin columns rows) h, hexec, ⟨hphase, by rw [hhandle, hh]; rfl, hd'⟩, hclean',
    (exec_logged hexec).replay hm, beginWords rows, ?_, flagsSent_beginWords columns rows h⟩
  have hsplit : eventsFrom 0 t = eventsFrom 0 s ++ writesEvents s.mem (beginWrites h rows) := by
    rw [← hkinds]; simp [eventsFrom, htrace]
  have hfold : (eventsFrom 0 s).foldl applyEvent launch = s.mem := hm.symm
  rw [busBytes, latched_of_pins_eq hpins, hsplit, latched_append, hquiet, hfold, hlatched, List.nil_append]
  exact pairWords_wordLatches (beginWords rows)

/-! ### Environment writes -/

theorem bitOf_maskedByte (old mask value : Byte) (b : BitIdx) :
    bitOf (maskedByte old mask value) b = if bitOf mask b then bitOf value b else bitOf old b := by
  cases hm : mask[b.val] <;> simp [bitOf, maskedByte, hm]

/-- A masked write that touches no handle Pin leaves every bit of one (R72(b)). -/
theorem handleBit_maskedWrite {s : State} {h : Handle} {p : Port} {mask : Byte} (hh : s.handle = some h)
    (ht : touchesHandle s p mask = false) {pin : Pin} (hpin : pin ∈ h.pins) (m : Memory) (reg r : RegKind)
    (value : Byte) :
    bitOf (Memory.read (Memory.write m (regAddr reg p) (maskedByte (Memory.read m (regAddr reg p)) mask value))
        (regAddr r pin.port)) pin.bit = bitOf (Memory.read m (regAddr r pin.port)) pin.bit := by
  by_cases ha : regAddr r pin.port = regAddr reg p
  · obtain ⟨-, rfl⟩ := regAddr_inj.1 ha
    have hbit : bitOf mask pin.bit = false := by
      simp only [touchesHandle, hh, List.any_eq_false] at ht
      simpa using ht pin hpin
    rw [ha, Memory.read_write_same, bitOf_maskedByte, hbit]
    simp
  · rw [Memory.read_write_ne _ _ ha]

/-- An environment write leaves the lines of the handle (R72(b)). -/
theorem Lines.maskedWrite {s : State} {h : Handle} {p : Port} {mask : Byte} {l : Latch} {en : Bool}
    (hl : Lines h s.mem l en) (hh : s.handle = some h) (ht : touchesHandle s p mask = false) (reg : RegKind)
    (value : Byte) :
    Lines h (Memory.write s.mem (regAddr reg p) (maskedByte (Memory.read s.mem (regAddr reg p)) mask value)) l en := by
  obtain ⟨houtputs, hlatch, henable⟩ := hl
  have bit := fun pin (hp : pin ∈ h.pins) => handleBit_maskedWrite hh ht hp s.mem reg (value := value)
  have line : ∀ pin ∈ h.pins, lineLevel (Memory.write s.mem (regAddr reg p)
      (maskedByte (Memory.read s.mem (regAddr reg p)) mask value)) pin = lineLevel s.mem pin := fun pin hp => by
    have hdirection := bit pin hp .direction
    have hdata := bit pin hp .data
    simp only [regAddr] at hdirection hdata
    simp only [lineLevel, regAddr, hdirection, hdata]
  refine ⟨fun pin hp => (bit pin hp .direction).trans (houtputs pin hp), ?_, ?_⟩
  · simp only [Handle.pins, List.forall_mem_cons] at line
    obtain ⟨hrs, -, h4, h5, h6, h7, -⟩ := line
    rw [← hlatch, latchOf, hrs, h4, h5, h6, h7]
    rfl
  · rw [line h.en (by simp [Handle.pins]), henable]

/-! ### In sync along a run -/

section
variable {launch : Memory} {s t : State} {h : Handle}

/-- Time that passes, and an input taken, leave the flag bytes in sync. -/
theorem InSync.takeInput (hs : InSync launch s h) (rest : List HostEvent) : InSync launch (takeInput rest s) h := hs

/-- A run of events that latches words keeps sync when those words carry the new flag bytes. -/
theorem InSync.next {h' : Handle} {l : Latch} {evs : List Event} {vs : List (BitVec 9)} (hs : InSync launch s h)
    (hlog : t.mem = replay launch t.trace) (hphase : t.phase = .ready) (hhandle : t.handle = some h')
    (hpins : h'.pins = h.pins) (hlines : Lines h t.mem l false) (htrace : t.trace = s.trace ++ evs)
    (hlatched : latched h s.mem (evs.map Event.kind) = wordLatches vs)
    (hflags : ∀ ws, FlagsSent h ws → FlagsSent h' (ws ++ vs)) : InSync launch t h' := by
  obtain ⟨-, ⟨hn, -⟩, hm, ws, hws, hsent⟩ := hs
  obtain ⟨hd', hc'⟩ := hlines.clean hn hpins
  exact ⟨⟨hphase, hhandle, hd'⟩, hc', hlog, ws ++ vs, busBytes_append hpins hm htrace hws hsent.ne_nil hlatched,
    hflags ws hsent⟩

theorem InSync.envWrite (hs : InSync launch s h) {reg : RegKind} {p : Port} {mask value : Byte}
    (ht : envWrite reg p mask value s = .next t) (hlog : t.mem = replay launch t.trace) : InSync launch t h := by
  obtain ⟨⟨hphase, hhandle, hd⟩, hclean, -⟩ := id hs
  obtain ⟨htouch, rfl⟩ := next_envWrite ht
  refine hs.next (vs := []) hlog hphase hhandle rfl ((hclean.lines hd).maskedWrite hhandle htouch reg value) rfl ?_
    fun ws hws => by rwa [List.append_nil]
  cases reg <;> rfl

theorem InSync.command (hs : InSync launch s h) {i : Instr} (hi : isCommand i = true) (ht : exec i s = .next t) :
    t.phase = .faulted ∨ ∃ h', InSync launch t h' := by
  obtain ⟨⟨hphase, hhandle, hd⟩, hclean, hm, ws, hws, hsent⟩ := id hs
  rcases command_next hi ht with ⟨hd', -, hhd, hpt, hht, writes, n, ⟨⟨evs, htrace, hkinds⟩, hmem, -⟩, hwrites⟩ | hr
  · obtain rfl : h = hd' := by simpa [hhandle] using hhd
    obtain rfl := hwrites hsent.1
    obtain ⟨l', hlatches⟩ := latches_words hclean.1 (commandWords i h) (latchOf h s.mem)
    obtain ⟨hlatched, hlines⟩ := hlatches _ (hclean.lines hd)
    exact .inr ⟨_, hs.next ((exec_logged ht).replay hm) (hpt.trans hphase) hht (bytesAfter_pins i h)
      (by rwa [hmem]) htrace (by rw [hkinds, hlatched]) fun ws hws => hws.append_command hi⟩
  · exact .inl hr.phase

/-- The host operations that run to their end in Ready are the commands. -/
theorem runsIn_ready {i : Instr} (hi : i.kind = .hostOperation) : runsIn i .ready = isCommand i := by
  cases i <;> cases hi <;> rfl

/-- Every host operation in Ready faults or keeps sync: `create` and `begin` fault there (R201, R210). -/
theorem InSync.hostOperation (hs : InSync launch s h) {i : Instr} (hi : i.kind = .hostOperation)
    (ht : exec i s = .next t) : t.phase = .faulted ∨ ∃ h', InSync launch t h' := by
  cases hc : isCommand i with
  | true => exact hs.command hc ht
  | false =>
    have hruns : runsIn i s.phase = false := by
      obtain ⟨⟨hphase, -⟩, -⟩ := hs
      rw [hphase, runsIn_ready hi, hc]
    rcases exec_next ht with hdone | hraised
    · exact absurd hdone.runsIn (by simp [hruns])
    · exact .inl hraised.phase

end

/-- Settles O59: an input is an environment write, which latches nothing, or a host operation. -/
theorem flagsStayInSyncWithTheBus : Obligations.FlagsStayInSyncWithTheBus := by
  intro launch s h t hs hplays ht
  obtain ⟨-, -, hm, -⟩ := id hs
  obtain ⟨-, ⟨-, rfl⟩ | ⟨reg, p, mask, value, rest, -, hwrite⟩ | ⟨e, rest, i, hpe, hdel, hrun⟩⟩ := step_next ht
  · exact .inr ⟨h, hs⟩
  · exact .inr ⟨h, (hs.takeInput rest).envWrite hwrite ((step_logged ht).replay hm)⟩
  · have hi : i.kind = .hostOperation := by simpa [State.hostPlays, hpe, hdel] using hplays
    exact (hs.takeInput rest).hostOperation hi hrun

end Sys2Proof.Machine
end

section
/-! PROOF. The environment's writes (R72(b), R44) and the reach of the pin mapper (R63, R141). -/

namespace Sys2Proof.Machine

/-! ### Environment writes -/

section
variable {reg : RegKind} {p : Port} {mask value : Byte} {s : State}

/-- The next input is an environment write: it is made after the time between operations has passed. -/
theorem step_envWrite {rest : List HostEvent} (hp : s.phase ≠ .faulted)
    (hpe : s.pending = .envWrite reg p mask value :: rest) :
    step s = envWrite reg p mask value (takeInput rest s) := by simp [step, hp, hpe]

theorem envWrite_refused (ht : touchesHandle s p mask = true) :
    envWrite reg p mask value s = .refused .envWriteToHandlePin := by simp [envWrite, ht]

theorem envWrite_moves (ht : touchesHandle s p mask = false) : ∃ t, envWrite reg p mask value s = .next t := by
  simp [envWrite, ht]

end

/-- Settles O6: the write is one masked byte, and a mask that touches no handle Pin keeps both bits of each. -/
theorem environmentWritesOnlyForeignBits : Obligations.EnvironmentWritesOnlyForeignBits := by
  intro s reg p mask value rest hp hpe
  rw [step_envWrite hp hpe]
  refine ⟨fun ht => ?_, envWrite_refused (s := takeInput rest s)⟩
  obtain ⟨t, hrun⟩ := envWrite_moves (s := takeInput rest s) (reg := reg) (value := value) ht
  obtain ⟨-, rfl⟩ := next_envWrite hrun
  refine ⟨_, hrun, fun b => ?_, fun a ha => Memory.read_write_ne _ _ ha, fun h pin hh hpin => ⟨?_, ?_⟩, ?_, ?_,
    rfl, rfl, rfl, rfl, rfl⟩
  · simp [Memory.read_write_same, bitOf_maskedByte]
  · exact handleBit_maskedWrite hh ht hpin s.mem reg .data value
  · exact handleBit_maskedWrite hh ht hpin s.mem reg .direction value
  · simp [Memory.read_write_same]
  · simp

/-! ### The pin mapper -/

/-- The logical pin number of a Pin, where it has one (R141). -/
def pinNumber (pin : Pin) : Byte :=
  match pin.port with
  | .d => BitVec.ofNat 8 pin.bit.val
  | .b => BitVec.ofNat 8 (8 + pin.bit.val)
  | .c => BitVec.ofNat 8 (14 + pin.bit.val)

theorem resolvePin_pinNumber {pin : Pin} (h : reachablePin pin = true) : resolvePin (pinNumber pin) = pin := by
  obtain ⟨port, bit⟩ := pin
  revert bit
  cases port <;> decide

/-- Settles O9: every number resolves to a reachable Pin, and a reachable Pin has its number. -/
theorem resolveReachesExactlyTheNamedBits : Obligations.ResolveReachesExactlyTheNamedBits := fun pin =>
  ⟨fun ⟨n, hn⟩ => hn ▸ reachablePin_resolvePin n, fun h => ⟨pinNumber pin, resolvePin_pinNumber h⟩⟩

end Sys2Proof.Machine
end

section
/-! PROOF. The delivered form of a call (log 2) and the bus words (R102, R103): what the encoder writes the decoder
reads back, and the nine patterns of the bus words do not overlap. -/

namespace Sys2Proof

/-! ### Operands -/

theorem modeOfBit_bit (m : Mode) : modeOfBit m.bit = m := by cases m <;> rfl

theorem withBitOperand_byteOfBit (x : Bool) (rest : List Byte) (k : Bool → Except DecodeError Instr) :
    withBitOperand (byteOfBit x :: rest) k = k x := by cases x <;> rfl

theorem pinOfByte_byteOfPin (p : Pin) : pinOfByte (byteOfPin p) = some p := by
  obtain ⟨port, bit⟩ := p
  revert bit
  cases port <;> decide

theorem withPin_byteOfPin (p : Pin) (rest : List Byte) (k : Pin → List Byte → Except DecodeError Instr) :
    withPin (byteOfPin p :: rest) k = k p rest := by
  simp only [withPin, pinOfByte_byteOfPin]

/-- The bytes of a number are its digits to the base 256, as many as the fuel says. -/
theorem natOfBytes_bytesOfNat {fuel n : Nat} (h : n < 256 ^ fuel) : natOfBytes (bytesOfNat fuel n) = n := by
  induction fuel generalizing n with
  | zero => simp only [Nat.pow_zero, Nat.lt_one_iff] at h; rw [h]; rfl
  | succ fuel ih =>
    have hrest : n / 256 < 256 ^ fuel := Nat.div_lt_of_lt_mul (by rwa [← Nat.pow_succ'])
    simp only [bytesOfNat, natOfBytes, ih hrest, BitVec.toNat_ofNat]
    omega

theorem lt_pow_byteCount (n : Nat) : n < 256 ^ byteCount n :=
  calc n < 2 ^ (n.log2 + 1) := Nat.lt_log2_self
    _ ≤ 2 ^ (8 * byteCount n) := Nat.pow_le_pow_right (by decide) (by simp only [byteCount]; omega)
    _ = 256 ^ byteCount n := Nat.pow_mul 2 8 _

/-! ### Headers -/

/-- The way of a header is in its high byte, above the key's bit 8 (log 2). -/
theorem headerWay_high {way : Nat} (hw : way ≤ 2) (key : BitVec 9) :
    headerWay (BitVec.ofNat 8 (2 * way + key.toNat / 256)) = way := by
  have := key.isLt
  simp only [headerWay, BitVec.toNat_ofNat]
  omega

/-- The key of a header is its low byte and the lowest bit of its high byte (log 2). -/
theorem headerKey_bytes (way : Nat) (key : BitVec 9) :
    headerKey (key.setWidth 8) (BitVec.ofNat 8 (2 * way + key.toNat / 256)) = key := by
  have hbit : (BitVec.ofNat 8 (2 * way + key.toNat / 256)).getLsbD 0 = key.getLsbD 8 := by
    simp only [BitVec.getLsbD, BitVec.toNat_ofNat, Nat.testBit_eq_decide_div_mod_eq, decide_eq_decide]
    omega
  have hsplit : ∀ w : BitVec 9, bit1 (w.getLsbD 8) ++ w.setWidth 8 = w := by decide
  rw [headerKey, hbit, hsplit]

/-- A key that is a host operation's word, and its operands. -/
theorem decode_hostHeader {key : BitVec 9} {rest : List Byte} {r : Except DecodeError Instr}
    (h : decodeHostWord key rest = some r) : decode (header 0 key ++ rest) = r := by
  simp only [header, List.cons_append, List.nil_append, decode, headerWay_high (Nat.zero_le 2), headerKey_bytes, h]

/-- A key that is a row's index, and its operands. -/
theorem decode_indexHeader (key : BitVec 9) (rest : List Byte) :
    decode (header 1 key ++ rest) = decodeRow key.toNat rest := by
  simp only [header, List.cons_append, List.nil_append, decode, headerWay_high (Nat.le_succ 1), headerKey_bytes]

/-- A row delivered by its index, and its operands. -/
theorem decode_rowHeader {index : Nat} (hi : index < 512) (rest : List Byte) :
    decode (rowHeader index ++ rest) = decodeRow index rest := by
  rw [rowHeader, decode_indexHeader, BitVec.toNat_ofNat, Nat.mod_eq_of_lt hi]

/-- A bus word delivered as a bus word. -/
theorem decode_busHeader (w : BitVec 9) : decode (header 2 w) = decodeBus w := by
  simp only [header, decode, headerWay_high (Nat.le_refl 2), headerKey_bytes]

/-! ### Bus words -/

section
variable {i : Instr} {w : BitVec 9}

/-- The row found for a word has that word: its mask fixes the bits that are no field. -/
theorem busWord_of_decodeBusWord (h : decodeBusWord w = some i) : i.busWord = some w := by
  have hall : ∀ w, ∀ i ∈ decodeBusWord w, i.busWord = some w := by decide
  exact hall w i h

/-- The word of a row is of that row's pattern and of no earlier one's, and its fields are found in it. -/
theorem decodeBusWord_of_busWord (h : i.busWord = some w) : decodeBusWord w = some i := by
  cases i with
  | b1ClearDisplay | b2ReturnHome => cases h; rfl
  | b3EntryModeSet i s => cases h; revert i s; decide
  | b4DisplayControl d c b => cases h; revert d c b; decide
  | b5CursorDisplayShift s r => cases h; revert s r; decide
  | b6FunctionSet l n f => cases h; revert l n f; decide
  | b7SetCgramAddress a => cases h; revert a; decide
  | b8SetDdramAddress a => cases h; revert a; decide
  | b9WriteData d => cases h; revert d; decide
  | create | begin | clear | home | setCursor | write | print | display | noDisplay | cursor | noCursor | blink
  | noBlink | scrollDisplayLeft | scrollDisplayRight | autoscroll | noAutoscroll | createChar | resolve | set
  | setDirection | sample | delayUs | delayMs | pulseEnable | writeNibble | transferByte | command | data
  | readBusy => cases h

theorem decode_busWord (h : i.busWord = some w) : decode (header 2 w) = .ok i := by
  rw [decode_busHeader, decodeBus, decodeBusWord_of_busWord h]

end

/-- Settles O47: the decoder finds the row of each row's word, and only of such a word. -/
theorem busWordsHaveOneMeaning : Obligations.BusWordsHaveOneMeaning := fun _ _ =>
  ⟨busWord_of_decodeBusWord, decodeBusWord_of_busWord⟩

/-! ### Every instruction -/

/-- Settles O46: an instruction is delivered by its host operation's word, by its row's index or by its bus word, and
the decoder reads each of the three back with the operands that follow. -/
theorem decodeInvertsEncode : Obligations.DecodeInvertsEncode := by
  intro i hwf
  cases i with
  | begin | setCursor | write => exact decode_hostHeader rfl
  | clear | home | display | noDisplay | cursor | blink | scrollDisplayLeft | scrollDisplayRight | autoscroll
  | noAutoscroll => exact decode_hostHeader (rest := []) rfl
  | createChar slot rows =>
    have hlen : rows.length = 8 := by simpa [Instr.wellFormed, Instr.defect] using hwf
    refine decode_hostHeader (rest := slot :: rows) ?_
    simp [decodeHostWord, hlen, List.take_of_length_le hlen.le]
  | create | print | resolve | writeNibble | command | data => exact decode_rowHeader (by decide) _
  | noCursor | noBlink | pulseEnable | readBusy => exact decode_rowHeader (by decide) []
  | set | setDirection | sample | transferByte =>
    refine (decode_rowHeader (by decide) _).trans ?_
    simp only [decodeRow, withByte, withPin_byteOfPin, withBitOperand_byteOfBit, modeOfBit_bit]
  | delayUs n | delayMs n =>
    refine (decode_rowHeader (by decide) _).trans ?_
    simp only [decodeRow, natOfBytes_bytesOfNat (lt_pow_byteCount n)]
  | b1ClearDisplay | b2ReturnHome | b3EntryModeSet | b4DisplayControl | b5CursorDisplayShift | b6FunctionSet
  | b7SetCgramAddress | b8SetDdramAddress | b9WriteData => exact decode_busWord rfl

/-- Settles O48: each word is closed, so the decoder is run on it. -/
theorem specWordsDecode : Obligations.SpecWordsDecode := by
  unfold Obligations.SpecWordsDecode
  decide

end Sys2Proof
end

section
/-! PROOF. The text of a host operation is read back as that operation (R119): the scanner finds in it the tokens of a
call, number by number, and the call of these tokens is the operation. -/

namespace Sys2Proof.Machine

/-! ### What the scanner makes of a piece of a text -/

/-- From `m` the scanner reads these codes, gives these tokens and is then in `m'`, whatever follows. -/
def Scans (m : Scan) (codes : List Byte) (ts : List Token) (m' : Scan) : Prop :=
  ∀ rest, scanText m (codes ++ rest) = (scanText m' rest).map (ts ++ ·)

section
variable {m m' m'' : Scan} {xs ys : List Byte} {ts us : List Token}

theorem Scans.nil (m : Scan) : Scans m [] [] m := fun rest => by simp

theorem Scans.code {c : Byte} (h : scanCode m c = some (ts, m')) : Scans m [c] ts m' := fun rest => by
  simp [scanText, h]

/-- Pieces in a row give their tokens in a row. -/
theorem Scans.append (h : Scans m xs ts m') (h' : Scans m' ys us m'') : Scans m (xs ++ ys) (ts ++ us) m'' :=
  fun rest => by
    rw [List.append_assoc, h, h', Option.map_map]
    simp only [Function.comp_def, List.append_assoc]

/-- A code that ends no token. -/
theorem Scans.cons {c : Byte} (hc : scanCode m c = some ([], m')) (h : Scans m' ys us m'') :
    Scans m (c :: ys) us m'' := (Scans.code hc).append h

/-- A whole text. -/
theorem Scans.text (h : Scans .between xs ts .between) : scanText .between xs = some ts := by
  simpa [scanText] using h []

end

/-- The scanner has read a token that any mark ends. -/
def AtEnd (m : Scan) (t : Token) : Prop := ∀ c, isMark c = true → scanCode m c = some ([t, .mark c], .between)

theorem scanStart_mark {c : Byte} (h : isMark c = true) : scanStart c = some ([.mark c], .between) := by
  revert c; decide

theorem scanEnd_mark (t : Token) {c : Byte} (h : isMark c = true) : scanEnd t c = some ([t, .mark c], .between) := by
  rw [scanEnd, scanStart_mark h]; rfl

theorem scans_mark {c : Byte} (h : isMark c = true) : Scans .between [c] [.mark c] .between :=
  .code (scanStart_mark h)

/-- A mark ends the token before it. -/
theorem Scans.mark {m m' : Scan} {xs : List Byte} {t : Token} (h : Scans m xs [] m') (hend : AtEnd m' t) {c : Byte}
    (hc : isMark c = true) : Scans m (xs ++ [c]) [t, .mark c] .between :=
  h.append (.code (hend c hc))

/-! ### Names and strings -/

theorem atEnd_inName (codes : List Byte) : AtEnd (.inName codes) (.name codes) := fun c hc => by
  have hn : ∀ c, isMark c = true → isNameCode c = false := by decide
  simp only [scanCode, hn c hc, Bool.false_eq_true, if_false, scanEnd_mark _ hc]

theorem scans_inName {xs : List Byte} (h : xs.all isNameCode = true) (codes : List Byte) :
    Scans (.inName codes) xs [] (.inName (codes ++ xs)) := by
  induction xs generalizing codes with
  | nil => simpa using Scans.nil _
  | cons c xs ih =>
    rw [List.all_cons, Bool.and_eq_true] at h
    have hc : scanCode (.inName codes) c = some ([], .inName (codes ++ [c])) := by simp [scanCode, h.1]
    simpa using Scans.cons hc (ih h.2 (codes ++ [c]))

/-- A name, one letter or more. -/
theorem scans_name {c : Byte} {xs : List Byte} (h : (c :: xs).all isNameCode = true) :
    Scans .between (c :: xs) [] (.inName (c :: xs)) := by
  have hstart : ∀ c, isNameCode c = true → scanCode .between c = some ([], .inName [c]) := by decide
  rw [List.all_cons, Bool.and_eq_true] at h
  exact .cons (hstart c h.1) (scans_inName h.2 [c])

theorem scans_inString {xs : List Byte} (hzero : (0x00 : Byte) ∉ xs) (hquote : markQuote ∉ xs) (codes : List Byte) :
    Scans (.inString codes) xs [] (.inString (codes ++ xs)) := by
  induction xs generalizing codes with
  | nil => simpa using Scans.nil _
  | cons c xs ih =>
    rw [List.mem_cons, not_or] at hzero hquote
    have hc : scanCode (.inString codes) c = some ([], .inString (codes ++ [c])) := by
      rw [scanCode, if_neg (Ne.symm hquote.1), if_neg (Ne.symm hzero.1)]
    simpa using Scans.cons hc (ih hzero.2 hquote.2 (codes ++ [c]))

/-- A string in quotes. -/
theorem scans_string {xs : List Byte} (hzero : (0x00 : Byte) ∉ xs) (hquote : markQuote ∉ xs) :
    Scans .between (markQuote :: xs ++ [markQuote]) [.string xs] .between :=
  .cons rfl ((scans_inString hzero hquote []).append (.code (by simp [scanCode])))

/-! ### Numbers -/

theorem digitValue_digit {d : Nat} (h : d < 10) : digitValue (BitVec.ofNat 8 (0x30 + d)) = some d := by
  revert d; decide

theorem hexValue_hexCode {d : Nat} (h : d < 16) : hexValue (hexCode d) = some d := by
  revert d; decide

/-- No mark goes on with a number: it is no digit of either base, and not the `x` of `0x`. -/
theorem mark_no_digit {c : Byte} (h : isMark c = true) : hexValue c = none ∧ digitValue c = none ∧ c ≠ 0x78 := by
  revert c; decide

theorem atEnd_inHex (n : Nat) : AtEnd (.inHex n) (.number n) := fun c hc => by
  obtain ⟨hh, -, -⟩ := mark_no_digit hc
  simp only [scanCode, hh, scanEnd_mark _ hc]

theorem atEnd_inDecimal (n : Nat) : AtEnd (.inDecimal n) (.number n) := fun c hc => by
  obtain ⟨-, hd, -⟩ := mark_no_digit hc
  simp only [scanCode, hd, scanEnd_mark _ hc]

theorem atEnd_inZero : AtEnd .inZero (.number 0) := fun c hc => by
  obtain ⟨-, hd, hx⟩ := mark_no_digit hc
  simp only [scanCode, hx, if_false, hd, scanEnd_mark _ hc]

/-- A u8 in hexadecimal: its two digits after `0x`. -/
theorem scans_renderByte (v : Byte) : Scans .between (renderByte v) [] (.inHex v.toNat) := by
  have hlt := v.isLt
  have hhi : hexValue (hexCode (v.toNat / 16)) = some (v.toNat / 16) := hexValue_hexCode (by omega)
  have hlo : hexValue (hexCode (v.toNat % 16)) = some (v.toNat % 16) := hexValue_hexCode (by omega)
  have hval : 16 * (v.toNat / 16) + v.toNat % 16 = v.toNat := Nat.div_add_mod ..
  refine .cons (m' := .inZero) rfl (.cons (m' := .afterX) rfl
    (.cons (m' := .inHex (v.toNat / 16)) ?_ (.code ?_)))
  · simp only [scanCode, hhi]
  · simp only [scanCode, hlo, hval]

theorem scanCode_digit {d : Nat} (hpos : 0 < d) (h : d < 10) :
    scanCode .between (BitVec.ofNat 8 (0x30 + d)) = some ([], .inDecimal d) := by
  have hall : ∀ d < 10, 0 < d → scanCode .between (BitVec.ofNat 8 (0x30 + d)) = some ([], .inDecimal d) := by decide
  exact hall d h hpos

theorem scanCode_inDecimal {d : Nat} (n : Nat) (h : d < 10) :
    scanCode (.inDecimal n) (BitVec.ofNat 8 (0x30 + d)) = some ([], .inDecimal (10 * n + d)) := by
  simp only [scanCode, digitValue_digit h]

/-- A u8 in decimal: one, two or three digits, the first of two or three not zero. -/
theorem scans_renderDecimal (v : Byte) :
    ∃ m, Scans .between (renderDecimal v) [] m ∧ AtEnd m (.number v.toNat) := by
  have hlt := v.isLt
  unfold renderDecimal
  generalize v.toNat = n at *
  dsimp only
  split_ifs with hone htwo
  · obtain rfl | hpos := Nat.eq_zero_or_pos n
    · exact ⟨.inZero, .code rfl, atEnd_inZero⟩
    · exact ⟨.inDecimal n, .code (scanCode_digit hpos hone), atEnd_inDecimal n⟩
  · have hval : 10 * (n / 10) + n % 10 = n := Nat.div_add_mod ..
    have := Scans.cons (scanCode_digit (d := n / 10) (by omega) (by omega))
      (.code (scanCode_inDecimal (d := n % 10) _ (by omega)))
    exact ⟨.inDecimal n, by simpa only [hval] using this, atEnd_inDecimal n⟩
  · have hval : 10 * (10 * (n / 100) + n / 10 % 10) + n % 10 = n := by omega
    have := Scans.cons (scanCode_digit (d := n / 100) (by omega) (by omega))
      (.cons (scanCode_inDecimal (d := n / 10 % 10) _ (by omega))
        (.code (scanCode_inDecimal (d := n % 10) _ (by omega))))
    exact ⟨.inDecimal n, by simpa only [hval] using this, atEnd_inDecimal n⟩

/-- A number and the mark after it. -/
theorem scans_renderNumber (decimal : Bool) (v : Byte) {c : Byte} (hc : isMark c = true) :
    Scans .between (renderNumber decimal v ++ [c]) [.number v.toNat, .mark c] .between := by
  cases decimal with
  | false => exact (scans_renderByte v).mark (atEnd_inHex _) hc
  | true =>
    obtain ⟨m, hm, hend⟩ := scans_renderDecimal v
    exact hm.mark hend hc

/-- A number and the comma after it, with or without a space. -/
theorem scans_renderNumber_separator (decimal spaced : Bool) (v : Byte) :
    Scans .between (renderNumber decimal v ++ separator spaced) [.number v.toNat, .mark markComma] .between := by
  have hcomma := scans_renderNumber decimal v (c := markComma) rfl
  cases spaced with
  | false => exact hcomma
  | true => simpa [separator] using hcomma.append (.code (c := 0x20) (ts := []) (m' := .between) rfl)

/-! ### Arguments -/

/-- The tokens of numbers with a comma between two, up to the mark that closes them. -/
def numberTokens (close : Byte) : List Byte → List Token
  | [] => [.mark close]
  | [v] => [.number v.toNat, .mark close]
  | v :: rest => .number v.toNat :: .mark markComma :: numberTokens close rest

theorem scans_renderNumbers (spaced : Bool) {close : Byte} (hc : isMark close = true) (ds : List Bool)
    (vs : List Byte) :
    Scans .between (renderNumbers spaced ds vs ++ [close]) (numberTokens close vs) .between := by
  induction vs generalizing ds with
  | nil => exact scans_mark hc
  | cons v vs ih =>
    cases vs with
    | nil => simpa [renderNumbers, numberTokens] using scans_renderNumber _ v hc
    | cons w vs =>
      have := (scans_renderNumber_separator (ds.headD false) spaced v).append (ih ds.tail)
      simpa [renderNumbers, numberTokens] using this

theorem numbersUntil_numberTokens {close : Byte} (hc : close ≠ markComma) (v : Byte) (vs : List Byte)
    (rest : List Token) :
    numbersUntil close (numberTokens close (v :: vs) ++ rest) = some (v :: vs, rest) := by
  induction vs generalizing v with
  | nil => simp [numberTokens, numbersUntil, v.isLt]
  | cons w vs ih =>
    simp [numberTokens, numbersUntil, v.isLt, Ne.symm hc, ih]

theorem numericArgs_numberTokens (vs : List Byte) : numericArgs (numberTokens markClose vs) = some vs := by
  cases vs with
  | nil => rfl
  | cons v vs =>
    have h := numbersUntil_numberTokens (close := markClose) (by decide) v vs []
    rw [List.append_nil] at h
    cases vs <;> simp only [numberTokens, numericArgs] at h ⊢ <;> rw [h]

theorem glyphArgs_numberTokens (slot v : Byte) (vs : List Byte) :
    glyphArgs (.number slot.toNat :: .mark markComma :: .mark markListOpen ::
      (numberTokens markListClose (v :: vs) ++ [.mark markClose])) = some (slot, v :: vs) := by
  simp [glyphArgs, numbersUntil_numberTokens (close := markListClose) (by decide), slot.isLt]

/-! ### Calls -/

/-- A name that the scanner reads: one letter or more. -/
def isName (codes : List Byte) : Bool := !codes.isEmpty && codes.all isNameCode

/-- A name that stands before numbers only: any but those of `print` and `createChar`. -/
def isNumericName (codes : List Byte) : Bool := isName codes && codes != ascii "print" && codes != ascii "createChar"

/-- A name, the tokens of its arguments, and the call they are. -/
theorem parseCall_renderNamed {name : String} {args : List Byte} {ts : List Token} {i : Instr}
    (hname : isName (ascii name) = true) (hargs : Scans .between (args ++ [markClose]) ts .between)
    (hcall : callOfTokens (.name (ascii name) :: .mark markOpen :: ts) = some i) :
    parseCall (renderNamed name args) = .ok i := by
  have hscan : Scans .between (renderNamed name args) (.name (ascii name) :: .mark markOpen :: ts) .between := by
    rw [renderNamed]
    generalize ascii name = codes at hname
    cases codes with
    | nil => exact absurd hname (by decide)
    | cons c xs =>
      simpa using ((scans_name hname).mark (atEnd_inName _) (c := markOpen) rfl).append hargs
  rw [parseCall, hscan.text, Option.bind_some, hcall]

/-- A call whose arguments are numbers, none or several. -/
theorem parseCall_numeric {name : String} {vs : List Byte} {i : Instr} (hname : isNumericName (ascii name) = true)
    (hcall : numericCall (ascii name) vs = some i) (spaced : Bool) (ds : List Bool) :
    parseCall (renderNamed name (renderNumbers spaced ds vs)) = .ok i := by
  simp only [isNumericName, Bool.and_eq_true, bne_iff_ne, ne_eq] at hname
  obtain ⟨⟨hname, hprint⟩, hglyph⟩ := hname
  refine parseCall_renderNamed hname (scans_renderNumbers spaced rfl ds vs) ?_
  simp [callOfTokens, hprint, hglyph, numericArgs_numberTokens, hcall]

theorem parseCall_print {codes : List Byte} (hzero : (0x00 : Byte) ∉ codes) (hquote : markQuote ∉ codes) :
    parseCall (renderNamed "print" (markQuote :: codes ++ [markQuote])) = .ok (.print (codes ++ [0x00])) :=
  parseCall_renderNamed (by decide) ((scans_string hzero hquote).append (scans_mark (c := markClose) rfl)) rfl

theorem parseCall_createChar (form : TextForm) (slot v : Byte) (rows : List Byte) :
    parseCall (renderNamed "createChar" (renderNumber (form.decimal.headD false) slot ++ separator form.spaced ++
      markListOpen :: renderNumbers form.spaced form.decimal.tail (v :: rows) ++ [markListClose])) =
      .ok (.createChar slot (v :: rows)) := by
  refine parseCall_renderNamed (ts := .number slot.toNat :: .mark markComma :: .mark markListOpen ::
    (numberTokens markListClose (v :: rows) ++ [.mark markClose])) (by decide) ?_ ?_
  · have := (scans_renderNumber_separator (form.decimal.headD false) form.spaced slot).append <|
      (scans_mark (c := markListOpen) rfl).append <|
        (scans_renderNumbers (close := markListClose) form.spaced rfl form.decimal.tail (v :: rows)).append
          (scans_mark (c := markClose) rfl)
    simpa using this
  · have hname : ascii "createChar" ≠ ascii "print" := by decide
    simp [callOfTokens, hname, glyphArgs_numberTokens]

/-- Settles O49: a call is its name and the tokens of its arguments, and these are read back one by one. -/
theorem textIsReadBack : Obligations.TextIsReadBack := by
  intro form i text hwf htext
  cases i with
  | create | begin | setCursor =>
    cases htext
    refine parseCall_numeric ?_ rfl form.spaced form.decimal
    decide
  | write c =>
    cases htext
    exact parseCall_numeric (vs := [c]) (by decide) rfl form.spaced form.decimal
  | clear | home | display | noDisplay | cursor | noCursor | blink | noBlink | scrollDisplayLeft | scrollDisplayRight
  | autoscroll | noAutoscroll =>
    cases htext
    refine parseCall_numeric (vs := []) ?_ rfl form.spaced form.decimal
    decide
  | print s =>
    simp only [renderCall] at htext
    split_ifs at htext with hs
    cases htext
    obtain ⟨hlast, hzero, hquote⟩ := hs
    have hsplit : s.dropLast ++ [0x00] = s := List.dropLast_append_getLast? _ hlast
    rw [parseCall_print hzero fun hmem => hquote (List.dropLast_subset s hmem), hsplit]
  | createChar slot rows =>
    cases htext
    cases rows with
    | nil => cases hwf
    | cons v rows => exact parseCall_createChar form slot v rows
  | resolve | set | setDirection | sample | delayUs | delayMs | pulseEnable | writeNibble | transferByte | command
  | data | readBusy | b1ClearDisplay | b2ReturnHome | b3EntryModeSet | b4DisplayControl | b5CursorDisplayShift
  | b6FunctionSet | b7SetCgramAddress | b8SetDdramAddress | b9WriteData => cases htext

end Sys2Proof.Machine
end

section
/-! PROOF. What a step runs (R42, R110, R111, R115): the instruction its input delivers, which for the host is a host
operation. -/

namespace Sys2Proof.Machine

/-! ### The step -/

/-- An input that delivers something is run, or refused by name, after the time between operations has passed. -/
theorem step_delivered {s : State} {e : HostEvent} {rest : List HostEvent} {r : Except DecodeError Instr}
    (hp : s.phase ≠ .faulted) (hpe : s.pending = e :: rest) (hd : delivered e = some r) :
    step s = runDelivered r (takeInput rest s) := by
  cases e with
  | envWrite => cases hd
  | call | text | bench => cases hd; simp only [step, hp, if_false, hpe]

/-- Settles O4: either outcome of a delivery is run by the step, and taking an input only lets time pass. -/
theorem stepRunsDeliveredInstruction : Obligations.StepRunsDeliveredInstruction := fun s e rest hp hpe =>
  ⟨fun _ hd => step_delivered hp hpe hd, fun _ hd => step_delivered hp hpe hd,
    by rw [takeInput_now]; exact Nat.le_add_right .., rfl⟩

/-! ### Ill-formed operations -/

/-- A term with a defect is refused by it, whatever would be run (R115). -/
theorem refuseIllFormed_of_defect {i : Instr} {d : Defect} (h : i.defect = some d)
    (k : Host.Outcome State Fault Refusal) : refuseIllFormed i k = .refused (.illFormed d) := by
  rw [refuseIllFormed, h]

/-- Settles O7: both operations are refused before their phase check. -/
theorem illFormedOperationsAreRefused : Obligations.IllFormedOperationsAreRefused :=
  ⟨fun text _ h => refuseIllFormed_of_defect (i := .print text) (if_neg h) _,
    fun slot rows _ h => refuseIllFormed_of_defect (i := .createChar slot rows) (if_neg h) _⟩

/-! ### Bus words run by themselves -/

/-- Each of the nine bus words is the shell around the transfer of its word (log 1). -/
theorem exec_busWord {i : Instr} {w : BitVec 9} (hw : i.busWord = some w) (s : State) :
    exec i s = runWithHandle i.opName s (transferWord w) := by
  cases i with
  | b1ClearDisplay | b2ReturnHome | b3EntryModeSet | b4DisplayControl | b5CursorDisplayShift | b6FunctionSet
  | b7SetCgramAddress | b8SetDdramAddress | b9WriteData => cases hw; rfl
  | create | begin | clear | home | setCursor | write | print | display | noDisplay | cursor | noCursor | blink
  | noBlink | scrollDisplayLeft | scrollDisplayRight | autoscroll | noAutoscroll | createChar | resolve | set
  | setDirection | sample | delayUs | delayMs | pulseEnable | writeNibble | transferByte | command | data
  | readBusy => cases hw

/-- Settles O23: a transfer makes its writes or stops at an input. -/
theorem busWordsAreTransfers : Obligations.BusWordsAreTransfers := fun i w s h hw hp hh =>
  (sends_transferByte h (wordByte w) (wordRs w)).performs hh
    ((exec_busWord hw s).trans (runWithHandle_some i.opName hp hh (transferWord w)))

/-! ### What the host can issue -/

section
variable {i : Instr}

theorem decodeHostCall_ok_iff {bytes : List Byte} :
    decodeHostCall bytes = .ok i ↔ decode bytes = .ok i ∧ i.kind = .hostOperation := by
  unfold decodeHostCall
  split
  next j hj =>
    rw [hj, Except.ok.injEq]
    split_ifs with hk
    · rw [Except.ok.injEq]
      exact ⟨fun h => ⟨h, h ▸ hk⟩, And.left⟩
    · exact ⟨nofun, fun ⟨h, hi⟩ => absurd (h ▸ hi) hk⟩
  next why hwhy => rw [hwhy]; exact ⟨nofun, nofun⟩

/-- A call of what is no host operation (R111, R115). -/
theorem decodeHostCall_notHostOperation {bytes : List Byte} (hd : decode bytes = .ok i)
    (hk : i.kind ≠ .hostOperation) : decodeHostCall bytes = .error .notHostOperation := by
  simp only [decodeHostCall, hd, hk, if_false]

/-- A table of host operations with one more host operation in front of it. -/
theorem kind_of_ite {c : Prop} [Decidable c] {j : Instr} {o : Option Instr} (hj : j.kind = .hostOperation)
    (ho : o = some i → i.kind = .hostOperation) (h : (if c then some j else o) = some i) :
    i.kind = .hostOperation := by
  split at h
  · exact Option.some.inj h ▸ hj
  · exact ho h

/-- The names that stand before numbers are those of host operations (R110). -/
theorem kind_of_numericCall {name args : List Byte} (h : numericCall name args = some i) :
    i.kind = .hostOperation := by
  unfold numericCall at h
  split at h
  all_goals
    revert h
    repeat refine kind_of_ite rfl ?_
    exact nofun

/-- Every call a text writes is a host operation's (R110, R119). -/
theorem kind_of_callOfTokens {ts : List Token} (h : callOfTokens ts = some i) : i.kind = .hostOperation := by
  unfold callOfTokens at h
  split at h
  next name o args =>
    split_ifs at h with _ hprint hglyph
    · split at h
      · split_ifs at h; cases h; rfl
      · cases h
    · obtain ⟨a, -, rfl⟩ := Option.map_eq_some_iff.1 h
      rfl
    · obtain ⟨vs, -, hcall⟩ := Option.bind_eq_some_iff.1 h
      exact kind_of_numericCall hcall
  next => cases h

theorem kind_of_parseCall {source : List Byte} (h : parseCall source = .ok i) : i.kind = .hostOperation := by
  unfold parseCall at h
  split at h
  next j hj =>
    cases h
    obtain ⟨ts, -, hcall⟩ := Option.bind_eq_some_iff.1 hj
    exact kind_of_callOfTokens hcall
  next => cases h

/-- What an input of the host delivers is a host operation. -/
theorem kind_of_delivered {e : HostEvent} (he : ∀ bytes, e ≠ .bench bytes) (hd : delivered e = some (.ok i)) :
    i.kind = .hostOperation := by
  cases e with
  | call bytes => exact (decodeHostCall_ok_iff.1 (Option.some.inj hd)).2
  | text source => exact kind_of_parseCall (Option.some.inj hd)
  | bench bytes => exact absurd rfl (he bytes)
  | envWrite => cases hd

end

/-- Settles O60: a call is decoded and then held to the host operations, and a text writes nothing else. -/
theorem hostIssuesOnlyHostOperations : Obligations.HostIssuesOnlyHostOperations := by
  refine ⟨fun e i => kind_of_delivered, fun bytes i s rest hd hk hp hpe => ?refused,
    fun i s rest hk hwf hp hpe => ?run⟩
  case refused =>
    rw [step_delivered hp hpe rfl, decodeHostCall_notHostOperation hd hk, runDelivered]
  case run =>
    rw [step_delivered hp hpe rfl, decodeHostCall_ok_iff.2 ⟨decodeInvertsEncode i hwf, hk⟩, runDelivered]

end Sys2Proof.Machine
end

section
/-! PROOF. The primitives on Pins and on time, each run by itself (R141, R145 to R147, R150; log 1), and the step with no
input left (R152). -/

namespace Sys2Proof.Machine

/-! ### Time -/

/-- A wait lasts its figure or longer (R150). -/
theorem le_now_advance (n : Nat) (s : State) : s.now + n ≤ (advance n s).now := by
  rw [advance_now, ← Nat.add_assoc]
  exact Nat.le_add_right ..

/-- A wait changes the time and the draw counter and nothing else. -/
theorem advance_frame (n : Nat) (s : State) :
    advance n s = { s with now := (advance n s).now, draws := (advance n s).draws } := rfl

theorem step_idle {s : State} (hp : s.phase ≠ .faulted) (hpe : s.pending = []) : step s = .next (gap s) := by
  simp only [step, if_neg hp, hpe]

/-- Settles O5: an idle step is a wait of zero or more. -/
theorem idleStepOnlyPassesTime : Obligations.IdleStepOnlyPassesTime := fun s hp hpe =>
  ⟨gap s, step_idle hp hpe, le_now_advance 0 s, advance_frame 0 s⟩

/-! ### Primitives run by themselves -/

/-- Outside Faulted a primitive answers the state in which its statement leaves the machine. -/
theorem runPrimitive_of_ne {s : State} (hp : s.phase ≠ .faulted) (body : State → Flow) :
    runPrimitive s body = .next (body s).state := unlessFaulted_of_ne hp _

section
variable {s : State} (hp : s.phase ≠ .faulted)
include hp

theorem exec_resolve (n : Byte) : exec (.resolve n) s = .next (giveBack (.pin (resolvePin n)) s) :=
  runPrimitive_of_ne hp fun s => .go (giveBack (.pin (resolvePin n)) s)

theorem exec_set (pin : Pin) (level : Bool) : exec (.set pin level) s = .next (setPin pin level s).state :=
  runPrimitive_of_ne hp (setPin pin level)

theorem exec_setDirection (pin : Pin) (mode : Mode) :
    exec (.setDirection pin mode) s = .next (setDirectionStep pin mode s).state :=
  runPrimitive_of_ne hp (setDirectionStep pin mode)

theorem exec_sample (pin : Pin) :
    exec (.sample pin) s = .next (giveBack (.level (samplePin pin s).1) (samplePin pin s).2) :=
  runPrimitive_of_ne hp fun s => .go (giveBack (.level (samplePin pin s).1) (samplePin pin s).2)

theorem exec_delayUs (n : Nat) : exec (.delayUs n) s = .next (advance (n * 1000) s) :=
  runPrimitive_of_ne hp (delayUsStep n)

theorem exec_delayMs (n : Nat) : exec (.delayMs n) s = .next (advance (n * 1000000) s) :=
  runPrimitive_of_ne hp (delayMsStep n)

end

/-- Settles O13: either delay is one wait. -/
theorem delaysLastAtLeastTheirFigure : Obligations.DelaysLastAtLeastTheirFigure := fun n _ hp =>
  ⟨⟨_, exec_delayUs hp n, le_now_advance .., advance_frame ..⟩,
    ⟨_, exec_delayMs hp n, le_now_advance .., advance_frame ..⟩⟩

/-- Settles O12: the level is the draw made after the time of the read has passed. -/
theorem sampleRecordsADrawnLevel : Obligations.SampleRecordsADrawnLevel := by
  intro pin s hp
  obtain ⟨-, hn, ht⟩ := samplePin_state pin s
  exact ⟨_, (advance 0 s).draws, exec_sample hp pin, ht, rfl, hn, rfl⟩

/-! ### The pin mapper -/

section
variable {n : Byte}

theorem resolvePin_portD (h : n.toNat ≤ 7) : resolvePin n = ⟨.d, Fin.ofNat 8 n.toNat⟩ := if_pos h

theorem resolvePin_portB (hlo : 8 ≤ n.toNat) (hhi : n.toNat ≤ 13) :
    resolvePin n = ⟨.b, Fin.ofNat 8 (n.toNat - 8)⟩ := by
  rw [resolvePin, if_neg (by omega), if_pos hhi]

theorem resolvePin_portC (hlo : 14 ≤ n.toNat) (hhi : n.toNat ≤ 19) :
    resolvePin n = ⟨.c, Fin.ofNat 8 (n.toNat - 14)⟩ := by
  rw [resolvePin, if_neg (by omega), if_neg (by omega), if_pos hhi]

theorem resolvePin_unmapped (h : 20 ≤ n.toNat) : resolvePin n = ⟨.d, 0⟩ := by
  rw [resolvePin, if_neg (by omega), if_neg (by omega), if_neg (by omega)]

end

/-- Settles O8: the four ranges are the mapper's branches, and each offset is below 8. -/
theorem resolveMapsPinNumbers : Obligations.ResolveMapsPinNumbers := by
  refine fun n s hp => ⟨exec_resolve hp n, fun h => ?portD, fun hlo hhi => ?portB, fun hlo hhi => ?portC,
    resolvePin_unmapped⟩
  case portD =>
    rw [resolvePin_portD h]
    exact ⟨rfl, Nat.mod_eq_of_lt (by omega)⟩
  case portB =>
    rw [resolvePin_portB hlo hhi]
    exact ⟨rfl, Nat.mod_eq_of_lt (by omega)⟩
  case portC =>
    rw [resolvePin_portC hlo hhi]
    exact ⟨rfl, Nat.mod_eq_of_lt (by omega)⟩

/-! ### Registers -/

/-- A register write sets its own bit and keeps the other seven. -/
theorem bitOf_read_writeMem (m : Memory) (w : RegWrite) (b : BitIdx) :
    bitOf (Memory.read (writeMem m w) (writeAddr w)) b =
      if b = w.pin.bit then w.bit else bitOf (Memory.read m (writeAddr w)) b := by
  rw [writeMem, Memory.read_write_same, writeByte, bitOf_withBit]

theorem read_writeMem_ne (m : Memory) (w : RegWrite) {a : Nat} (ha : a ≠ writeAddr w) :
    Memory.read (writeMem m w) a = Memory.read m a := Memory.read_write_ne _ _ ha

/-- The event of a level write carries the byte that PORT then holds (R145). -/
theorem writeEvent_drive (m : Memory) (pin : Pin) (level : Bool) :
    writeEvent m (drive pin level) = .pinWrite pin.port (some (pin.bit, level))
      (Memory.read (writeMem m (drive pin level)) (Config.portAddr pin.port)) .block :=
  congrArg (EventKind.pinWrite _ _ · _) (Memory.read_write_same ..).symm

/-- The event of a direction write carries its mode and the byte that DDR then holds (R146). -/
theorem writeEvent_direct (m : Memory) (pin : Pin) (mode : Mode) :
    writeEvent m (direct pin mode) = .dirWrite pin.port (some (pin.bit, mode))
      (Memory.read (writeMem m (direct pin mode)) (Config.ddrAddr pin.port)) .block := by
  cases mode <;> exact congrArg (EventKind.dirWrite _ _ · _) (Memory.read_write_same ..).symm

/-- `set` on an output makes its write, records it, and changes nothing else (R145). -/
theorem setPin_state_of_output {pin : Pin} {s : State} (level : Bool) (ho : isOutput s pin = true) :
    ∃ t, (setPin pin level s).state = t ∧ t.mem = writeMem s.mem (drive pin level) ∧
      t.trace = s.trace ++ [⟨t.now, writeEvent s.mem (drive pin level)⟩] ∧ s.now ≤ t.now ∧
      t = { s with mem := t.mem, now := t.now, trace := t.trace, draws := t.draws } := by
  rw [setPin_output level ho]
  refine ⟨_, rfl, rfl, rfl, ?now, rfl⟩
  case now =>
    simp only [Flow.state_go, emit_now, memWrite_now, advance_now]
    omega

/-- Settles O10: on an output it is one level write, on an input the fault. -/
theorem setDrivesOneLatchBit : Obligations.SetDrivesOneLatchBit := by
  refine fun pin level s hp => ⟨fun ho => ?output, fun hi => ?input⟩
  case output =>
    obtain ⟨t, hrun, hm, ht, hn, hframe⟩ := setPin_state_of_output level ho
    refine ⟨t, hrun ▸ exec_set hp pin level, fun b => ?bits, fun a ha => ?others, ?event, hn, hframe⟩
    case bits => rw [State.port, hm]; exact bitOf_read_writeMem s.mem (drive pin level) b
    case others => rw [hm]; exact read_writeMem_ne s.mem (drive pin level) ha
    case event => rw [ht, writeEvent_drive, State.port, hm]
  case input => rw [exec_set hp, setPin_input level hi, Flow.state_halted]

/-- Settles O11: it is one direction write, whatever the direction was. -/
theorem setDirectionDrivesOneDirectionBit : Obligations.SetDirectionDrivesOneDirectionBit := by
  intro pin mode s hp
  obtain ⟨hm, hn, ht⟩ := setDirectionStep_state pin mode s
  refine ⟨_, exec_setDirection hp pin mode, fun b => ?bits, fun a ha => ?others, ?event, hn, rfl⟩
  case bits => rw [State.ddr, hm]; exact bitOf_read_writeMem s.mem (direct pin mode) b
  case others => rw [hm]; exact read_writeMem_ne s.mem (direct pin mode) ha
  case event => rw [ht, writeEvent_direct, State.ddr, hm]

end Sys2Proof.Machine
end

section
/-! PROOF. The writes of the nibble protocol, each operation run by itself (R170 to R173; log 1). -/

namespace Sys2Proof.Machine

/-- Settles O14. -/
theorem pulseEnableStrobesOnce : Obligations.PulseEnableStrobesOnce := fun _ h hp hh =>
  (sends_pulseEnable h).performs hh (runWithHandle_some .pulseEnable hp hh pulseEnable)

section
variable {s : State} {h : Handle} (hp : s.phase ≠ .faulted) (hh : s.handle = some h) (v : Byte)
include hp hh

theorem exec_writeNibble : exec (.writeNibble v) s = .next (writeNibble h v s).state :=
  runWithHandle_some .writeNibble hp hh fun h => writeNibble h v

theorem exec_transferByte (rs : Bool) : exec (.transferByte v rs) s = .next (transferByte h v rs s).state :=
  runWithHandle_some .transferByte hp hh fun h => transferByte h v rs

theorem exec_command : exec (.command v) s = .next (transferByte h v false s).state :=
  runWithHandle_some .command hp hh fun h => command h v

theorem exec_data : exec (.data v) s = .next (transferByte h v true s).state :=
  runWithHandle_some .data hp hh fun h => data h v

end

/-- Settles O15: D4 to D7 take bits 0 to 3, and the strobe follows. -/
theorem writeNibblePresentsBitsThenStrobes : Obligations.WriteNibblePresentsBitsThenStrobes := fun v _ h hp hh =>
  (sends_writeNibble h v).performs hh (exec_writeNibble hp hh v)

/-- A nibble shifted down shows bits 7:4 on D4 to D7 (R101, R172). -/
theorem nibbleWrites_ushiftRight (h : Handle) (v : Byte) : nibbleWrites h (v >>> 4) =
    [drive h.d4 (bitOf v 4), drive h.d5 (bitOf v 5), drive h.d6 (bitOf v 6), drive h.d7 (bitOf v 7)] ++
      pulseWrites h := by
  simp [nibbleWrites, bitOf]

/-- Settles O16: the first nibble is the byte shifted down. -/
theorem transferByteSendsHighNibbleFirst : Obligations.TransferByteSendsHighNibbleFirst := by
  intro v rs s h hp hh
  have hperforms := (sends_transferByte h v rs).performs hh (exec_transferByte hp hh v rs)
  rwa [transferWrites, nibbleWrites_ushiftRight] at hperforms

/-- Settles O17: all four run the same transfer. -/
theorem commandAndDataAreTransfers : Obligations.CommandAndDataAreTransfers := fun v _ h hp hh =>
  ⟨(exec_command hp hh v).trans (exec_transferByte hp hh v false).symm,
    (exec_data hp hh v).trans (exec_transferByte hp hh v true).symm,
    (sends_transferByte h v false).performs hh (exec_command hp hh v),
    (sends_transferByte h v true).performs hh (exec_data hp hh v)⟩

end Sys2Proof.Machine
end

section
/-! PROOF. The waits of the nibble protocol (R174): the statements of a transfer as beats, each an event or a wait, that
the recorded times follow. -/

namespace Sys2Proof.Machine

/-! ### Beats -/

/-- What a statement does to the clock: it records one event, or it waits this many nanoseconds or longer. -/
inductive Beat where
  | event
  | wait (ns : Nat)

/-- From the time `a` to the time `b` events at the times `xs`, and no others, follow the beats. -/
def OnBeat (a : Nat) : List Beat → (xs : List Nat) → (b : Nat) → Prop
  | [], xs, b => xs = [] ∧ a ≤ b
  | .wait n :: p, xs, b => OnBeat (a + n) p xs b
  | .event :: p, xs, b => xs ≠ [] ∧ a ≤ xs.getD 0 0 ∧ OnBeat (xs.getD 0 0) p (xs.drop 1) b

theorem OnBeat.of_le {a a' b : Nat} {p : List Beat} {xs : List Nat} (ha : a' ≤ a) (h : OnBeat a p xs b) :
    OnBeat a' p xs b := by
  induction p generalizing a a' with
  | nil => exact ⟨h.1, ha.trans h.2⟩
  | cons beat p ih =>
    cases beat with
    | event => exact ⟨h.1, ha.trans h.2.1, h.2.2⟩
    | wait n => exact ih (Nat.add_le_add_right ha n) h

theorem OnBeat.append {a b c : Nat} {p q : List Beat} {xs ys : List Nat} (h : OnBeat a p xs b) (h' : OnBeat b q ys c) :
    OnBeat a (p ++ q) (xs ++ ys) c := by
  induction p generalizing a xs with
  | nil =>
    obtain ⟨rfl, hab⟩ := h
    exact h'.of_le hab
  | cons beat p ih =>
    cases beat with
    | wait n => exact ih h
    | event =>
      obtain ⟨hne, hax, hrest⟩ := h
      cases xs with
      | nil => exact absurd rfl hne
      | cons x xs => exact ⟨List.cons_ne_nil _ _, hax, ih hrest⟩

/-- The events a statement records when no fault ends it follow the beats. -/
def Paced (k : State → Flow) (p : List Beat) : Prop :=
  ∀ s t, k s = .go t → ∃ evs, t.trace = s.trace ++ evs ∧ OnBeat s.now p (evs.map Event.time) t.now

theorem paced_setPin (pin : Pin) (level : Bool) : Paced (setPin pin level) [.event] := by
  intro s t ht
  cases ho : isOutput s pin with
  | false => rw [setPin_input level ho] at ht; cases ht
  | true =>
    obtain ⟨u, hu, -, htrace, hnow, -⟩ := setPin_state_of_output level ho
    rw [ht, Flow.state_go] at hu
    subst hu
    exact ⟨_, htrace, List.cons_ne_nil _ _, hnow, rfl, Nat.le_refl _⟩

theorem paced_delayUs (n : Nat) : Paced (delayUsStep n) [.wait (n * 1000)] := by
  intro s t ht
  cases ht
  exact ⟨[], (List.append_nil _).symm, rfl, le_now_advance (n * 1000) s⟩

theorem paced_nil : Paced (runSteps []) [] := by
  intro s t ht
  cases ht
  exact ⟨[], (List.append_nil _).symm, rfl, Nat.le_refl _⟩

/-- Statements in a row went on only if each of them did. -/
theorem Flow.andThen_eq_go {f : Flow} {k : State → Flow} {t : State} (h : f.andThen k = .go t) :
    ∃ u, f = .go u ∧ k u = .go t := by
  cases f with
  | go u => exact ⟨u, rfl, h⟩
  | halted u => cases h

theorem Paced.cons {k : State → Flow} {ks : List (State → Flow)} {p q : List Beat} (h : Paced k p)
    (h' : Paced (runSteps ks) q) : Paced (runSteps (k :: ks)) (p ++ q) := by
  intro s t ht
  obtain ⟨u, hu, hrest⟩ := Flow.andThen_eq_go ht
  obtain ⟨evs, htrace, hbeat⟩ := h s u hu
  obtain ⟨evs', htrace', hbeat'⟩ := h' u t hrest
  refine ⟨evs ++ evs', by rw [htrace', htrace, List.append_assoc], ?_⟩
  rw [List.map_append]
  exact hbeat.append hbeat'

/-! ### The protocol -/

/-- The beats of `pulse_enable` (R170). -/
def pulseBeats : List Beat := [.event, .wait 1000, .event, .wait 1000, .event, .wait 100000]

/-- The beats of `write_nibble` (R171). -/
def nibbleBeats : List Beat := [.event, .event, .event, .event] ++ pulseBeats

/-- The beats of `transfer_byte` (R172). -/
def transferBeats : List Beat := .event :: nibbleBeats ++ nibbleBeats

theorem paced_pulseEnable (h : Handle) : Paced (pulseEnable h) pulseBeats :=
  (paced_setPin h.en false).cons <| (paced_delayUs 1).cons <| (paced_setPin h.en true).cons <|
    (paced_delayUs 1).cons <| (paced_setPin h.en false).cons <| (paced_delayUs 100).cons paced_nil

theorem paced_writeNibble (h : Handle) (v : Byte) : Paced (writeNibble h v) nibbleBeats :=
  (paced_setPin h.d4 _).cons <| (paced_setPin h.d5 _).cons <| (paced_setPin h.d6 _).cons <|
    (paced_setPin h.d7 _).cons <| (paced_pulseEnable h).cons paced_nil

theorem paced_transferByte (h : Handle) (v : Byte) (rs : Bool) : Paced (transferByte h v rs) transferBeats :=
  (paced_setPin h.rs rs).cons <| (paced_writeNibble h (v >>> 4)).cons <| (paced_writeNibble h v).cons paced_nil

/-- Writes of the Pins of a driven handle meet no input. -/
theorem allOutputs_of_driven {s : State} {h : Handle} {ws : List RegWrite} (hd : driven s h = true)
    (hw : ∀ w ∈ ws, w.pin ∈ h.pins) : allOutputs s ws = true :=
  List.all_eq_true.2 fun w hin => List.all_eq_true.1 hd w.pin (hw w hin)

theorem allOutputs_nibbleWrites {s : State} {h : Handle} (hd : driven s h = true) (v : Byte) :
    allOutputs s (nibbleWrites h v) = true :=
  allOutputs_of_driven hd (by simp [nibbleWrites, pulseWrites, drive, Handle.pins])

theorem allOutputs_transferWrites {s : State} {h : Handle} (hd : driven s h = true) (v : Byte) (rs : Bool) :
    allOutputs s (transferWrites h v rs) = true :=
  allOutputs_of_driven hd (by simp [transferWrites, nibbleWrites, pulseWrites, drive, Handle.pins])

/-- An instruction whose statements drive outputs records their writes, in order and on their beats. -/
theorem Sends.next_onBeat {i : Instr} {k : State → Flow} {ws : List RegWrite} {n : Nat} {p : List Beat} {s : State}
    (hk : Sends k ws n) (hp : Paced k p) (ho : allOutputs s ws = true) (hexec : exec i s = .next (k s).state) :
    ∃ t evs, exec i s = .next t ∧ t.trace = s.trace ++ evs ∧ evs.length = ws.length ∧
      evs.map Event.kind = writesEvents s.mem ws ∧ (evs.map Event.time).Pairwise (· ≤ ·) ∧
      OnBeat s.now p (evs.map Event.time) t.now ∧ s.now + n ≤ t.now := by
  obtain ⟨t, ht, ⟨⟨evs, htrace, hkinds⟩, -, hnow, -⟩, -⟩ := (hk.2 s).1 ho
  rw [ht, Flow.state_go] at hexec
  obtain ⟨evs', hbeats, hbeat⟩ := hp s t ht
  obtain ⟨-, evs'', horders, horder, -⟩ := (exec_logged hexec).grows
  obtain rfl : evs = evs' := List.append_cancel_left (htrace.symm.trans hbeats)
  obtain rfl : evs = evs'' := List.append_cancel_left (htrace.symm.trans horders)
  refine ⟨t, evs, hexec, htrace, ?length, hkinds, horder, hbeat, hnow⟩
  case length => rw [← List.length_map (f := Event.kind), hkinds, writesEvents_length]

/-- Settles O18: the waits are those between the beats. -/
theorem transfersKeepTheWaits : Obligations.TransfersKeepTheWaits := by
  refine fun v rs s h hp hh hd => ⟨?nibble, ?byte⟩
  case nibble =>
    obtain ⟨t, evs, hexec, htrace, hlength, hkinds, horder, hbeat, hnow⟩ :=
      (sends_writeNibble h v).next_onBeat (paced_writeNibble h v) (allOutputs_nibbleWrites hd v)
        (exec_writeNibble hp hh v)
    refine ⟨t, evs, hexec, htrace, hlength, hkinds, horder, ?_⟩
    simp only [nibbleBeats, pulseBeats, List.cons_append, List.nil_append, OnBeat, List.drop_drop,
      List.getD_eq_getElem?_getD, List.getElem?_drop, Nat.reduceAdd, Nat.add_zero] at hbeat ⊢
    omega
  case byte =>
    obtain ⟨t, evs, hexec, htrace, hlength, hkinds, horder, hbeat, hnow⟩ :=
      (sends_transferByte h v rs).next_onBeat (paced_transferByte h v rs) (allOutputs_transferWrites hd v rs)
        (exec_transferByte hp hh v rs)
    refine ⟨t, evs, hexec, htrace, hlength, hkinds, horder, ?_⟩
    simp only [transferBeats, nibbleBeats, pulseBeats, List.cons_append, List.nil_append, OnBeat, List.drop_drop,
      List.getD_eq_getElem?_getD, List.getElem?_drop, Nat.reduceAdd, Nat.add_zero] at hbeat ⊢
    omega

end Sys2Proof.Machine
end

section
/-! PROOF. What transfers and commands latch on a clean bus (R176, R177), and that the words of the commands are those
the block emits (R102, R103, R117). -/

namespace Sys2Proof.Machine

/-! ### On a clean bus -/

/-- Writes made on a clean bus put on it what they latch, and leave the lines they leave. -/
theorem SendsOnly.latched_of_clean {h : Handle} {s t : State} {ws : List RegWrite} {n : Nat} {ls : List Latch}
    {l : Latch} (hs : SendsOnly s t ws n) (hd : driven s h = true) (hc : CleanBus s h)
    (hl : Latches h (latchOf h s.mem) false ws ls l false) :
    latchedBetween h s t = ls ∧ Lines h t.mem l false := by
  obtain ⟨⟨evs, htrace, hkinds⟩, hmem, -⟩ := hs
  obtain ⟨hlatched, hlines⟩ := hl s.mem (hc.lines hd)
  refine ⟨?_, hmem ▸ hlines⟩
  rw [latchedBetween, eventsFrom, htrace, List.drop_left, hkinds, hlatched]

/-- Settles O24: the transfer makes its writes, and these latch its two nibbles. -/
theorem transferLatchesItsTwoNibbles : Obligations.TransferLatchesItsTwoNibbles := by
  intro v rs s h hp hh hd hc
  obtain ⟨t, ht, hs, -⟩ := ((sends_transferByte h v rs).2 s).1 (allOutputs_transferWrites hd v rs)
  obtain ⟨hlatched, hlines⟩ := hs.latched_of_clean hd hc (latches_transfer hc.1 _ v rs)
  obtain ⟨-, hclean⟩ := hlines.clean hc.1 rfl
  refine ⟨t, by rw [exec_transferByte hp hh, ht, Flow.state_go], hlatched, ?_, hclean⟩
  rw [hlatched]
  exact pairWords_cons_cons.2 ⟨_, [], pairWord_nibbleLatch rs v, rfl, rfl⟩

/-! ### Emitted words -/

theorem emittedWord_b3Word (sh : Bool) : emittedWord (b3Word true sh) = true := by revert sh; decide
theorem emittedWord_b4Word (d c b : Bool) : emittedWord (b4Word d c b) = true := by revert d c b; decide
theorem emittedWord_b5Word (r : Bool) : emittedWord (b5Word true r) = true := by revert r; decide
theorem emittedWord_b7Word (slot : BitVec 3) : emittedWord (b7Word (slot ++ 0b000#3)) = true := by
  revert slot; decide

theorem emittedWord_b8Word (a : BitVec 7) : emittedWord (b8Word a) = true := by
  rw [emittedWord, (busWordsHaveOneMeaning _ (.b8SetDdramAddress a)).2 rfl]

theorem emittedWord_b9Word (d : Byte) : emittedWord (b9Word d) = true := by
  rw [emittedWord, (busWordsHaveOneMeaning _ (.b9WriteData d)).2 rfl]

/-- Legal entry flags have the direction bit set (R35). -/
theorem bitOf_one_of_entryFlagsLegal {e : Byte} (he : entryFlagsLegal e = true) : bitOf e 1 = true := by
  revert e; decide

/-- The words of a command have the field values the block gives (R103, R117). -/
theorem emittedWord_commandWords {i : Instr} {h : Handle} (hcfg : h.configured = true) :
    (commandWords i h).all emittedWord = true := by
  obtain ⟨c, e, n, -, hc, -, he, hel, hn, -⟩ := configured_iff.1 hcfg
  cases i with
  | clear | home => rfl
  | setCursor col row =>
    simp only [commandWords]
    split <;> simp [emittedWord_b8Word]
  | write | print => simp [commandWords, emittedWord_b9Word]
  | createChar => simp [commandWords, emittedWord_b7Word, emittedWord_b9Word]
  | display | noDisplay | cursor | noCursor | blink | noBlink => simp [commandWords, hc, emittedWord_b4Word]
  | scrollDisplayLeft | scrollDisplayRight => simp [commandWords, emittedWord_b5Word]
  | autoscroll | noAutoscroll =>
    simp [commandWords, he, bitOf_one_of_entryFlagsLegal hel, emittedWord_b3Word]
  | create | begin | resolve | set | setDirection | sample | delayUs | delayMs | pulseEnable | writeNibble
  | transferByte | command | data | readBusy | b1ClearDisplay | b2ReturnHome | b3EntryModeSet | b4DisplayControl
  | b5CursorDisplayShift | b6FunctionSet | b7SetCgramAddress | b8SetDdramAddress | b9WriteData => rfl

/-- Settles O50: a command that ends in Ready has sent its words, and their latches pair to them. -/
theorem commandsEmitOnlyListedWords : Obligations.CommandsEmitOnlyListedWords := by
  intro i s t h hi ⟨_, hh, hd⟩ hc hcfg hexec hready
  refine ⟨?_, emittedWord_commandWords hcfg⟩
  rcases command_next hi hexec with ⟨hd', -, hh', -, -, ws, n, hs, hws⟩ | hraised
  · obtain rfl : h = hd' := Option.some.inj (hh.symm.trans hh')
    obtain rfl := hws hcfg
    obtain ⟨l, hl⟩ := latches_words hc.1 (commandWords i h) (latchOf h s.mem)
    obtain ⟨hlatched, -⟩ := hs.latched_of_clean hd hc hl
    rw [hlatched, pairWords_wordLatches]
  · exact absurd (hraised.phase.symm.trans hready) (by decide)

end Sys2Proof.Machine
end

section
/-! PROOF. The poll (R190, R193, R154), run by itself (log 1): where it stops at an input, and what it records when
it runs to its end. -/

namespace Sys2Proof.Machine

/-! ### Directions and reads -/

/-- Directions given to some Pins move the directions of these Pins and of no other. -/
theorem ddrBit_directs (m : Memory) (pins : List Pin) (mode : Mode) (pin : Pin) :
    bitOf (Memory.read (writesMem m (pins.map (direct · mode))) (Config.ddrAddr pin.port)) pin.bit =
      if pin ∈ pins then mode.bit else bitOf (Memory.read m (Config.ddrAddr pin.port)) pin.bit := by
  induction pins generalizing m with
  | nil => rfl
  | cons q pins ih =>
    rw [List.map_cons, writesMem_cons, ih, isOutput_direct]
    by_cases hin : pin ∈ pins <;> simp [hin]

theorem Sent.mem_eq {s t : State} {ws : List RegWrite} {n : Nat} (hs : Sent s t ws n) :
    t.mem = writesMem s.mem ws := by
  obtain ⟨⟨-, hmem, -⟩, -⟩ := hs
  exact hmem

theorem Read.mem_eq {s t : State} {rs : List (Pin × Bool)} (hr : Read s t rs) : t.mem = s.mem := by
  obtain ⟨-, hmem, -⟩ := hr
  exact hmem

/-- Level writes leave every direction (R39). -/
theorem Sent.isOutput_eq {s t : State} {ws : List RegWrite} {n : Nat} (hs : Sent s t ws n) (hl : levelsOnly ws = true)
    (pin : Pin) : isOutput t pin = isOutput s pin :=
  isOutput_of_ddr (fun p => by rw [State.ddr, hs.mem_eq, ddr_writesMem hl, State.ddr]) pin

theorem Read.isOutput_eq {s t : State} {rs : List (Pin × Bool)} (hr : Read s t rs) (pin : Pin) :
    isOutput t pin = isOutput s pin :=
  isOutput_of_ddr (fun p => by rw [State.ddr, hr.mem_eq, State.ddr]) pin

/-- `set` on an output makes its one write. -/
theorem setPin_go {pin : Pin} {s : State} (level : Bool) (ho : isOutput s pin = true) :
    ∃ t, setPin pin level s = .go t ∧ Sent s t [drive pin level] 0 :=
  ((sends_setPin pin level).2 s).1 (by simpa [drive] using ho)

/-- The data Pins take the mode, and no other Pin's direction moves (R190). -/
theorem dataDirections_go (h : Handle) (mode : Mode) (s : State) : ∃ t, dataDirections h mode s = .go t ∧
    Sent s t (h.dataPins.map (direct · mode)) 0 ∧
    ∀ pin, isOutput t pin = if pin ∈ h.dataPins then mode.bit else isOutput s pin := by
  obtain ⟨t, ht, hs⟩ := directs_dataDirections h mode s
  exact ⟨t, ht, hs, fun pin => by rw [isOutput, State.ddr, hs.mem_eq, ddrBit_directs]; rfl⟩

/-- The poll ends where its first statements end it. -/
theorem readBusy_halted {h : Handle} {s t : State} (ht : runSteps [dataDirections h .input, setPin h.rs false,
    setPin h.en true, delayUsStep Config.tPollSettle] s = .halted t) : readBusy h s = .halted t := by
  rw [readBusy, ht, Flow.halted_andThen]

theorem exec_readBusy {s : State} {h : Handle} (hp : s.phase ≠ .faulted) (hh : s.handle = some h) :
    exec .readBusy s = .next (readBusy h s).state := runWithHandle_some .readBusy hp hh readBusy

/-- A poll that stops has made the writes before its stop. -/
theorem exec_readBusy_halted {s t : State} {h : Handle} {r : FaultRecord} {ws : List RegWrite} {n : Nat}
    (hp : s.phase ≠ .faulted) (hh : s.handle = some h) (hrun : readBusy h s = .halted (raise r t))
    (hs : Sent s t ws n) : ∃ u evs, exec .readBusy s = .next u ∧ u.fault = some r ∧ u.phase = .faulted ∧
      u.trace = s.trace ++ evs ∧ evs.map Event.kind = writesEvents s.mem ws ∧ u.mem = writesMem s.mem ws := by
  obtain ⟨⟨⟨evs, htrace, hkinds⟩, hmem, -⟩, -⟩ := hs
  exact ⟨raise r t, evs, by rw [exec_readBusy hp hh, hrun, Flow.state_halted], rfl, rfl, htrace, hkinds, hmem⟩

/-- Settles O20: once the data Pins are inputs, RS is driven first and Enable next, and `set` stops at an input. -/
theorem readBusyStopsAtAnInput : Obligations.ReadBusyStopsAtAnInput := by
  intro s h hp hh
  obtain ⟨t, hdirs, hs, ho⟩ := dataDirections_go h .input s
  have input {pin : Pin} (hpin : pin ∈ h.dataPins ∨ isOutput s pin = false) : isOutput t pin = false := by
    rw [ho]
    rcases hpin with hin | hout
    · exact if_pos hin
    · rw [hout]; exact ite_self _
  refine ⟨fun hrs => ?rs, fun hrs hout hen => ?enable⟩
  case rs =>
    exact exec_readBusy_halted hp hh (readBusy_halted (by simp [hdirs, setPin_input _ (input hrs)])) hs
  case enable =>
    obtain ⟨u, hdrive, hu⟩ := setPin_go false ((ho h.rs).trans ((if_neg hrs).trans hout))
    have hin : isOutput u h.en = false := (hu.isOutput_eq rfl h.en).trans (input hen)
    exact exec_readBusy_halted hp hh (readBusy_halted (by simp [hdirs, hdrive, setPin_input _ hin])) (hs.trans hu)

/-! ### What a run records, writes and reads alike -/

/-- From `s` to `t` the machine records events of these kinds, moves its registers as they say, and takes at least `ns`
nanoseconds; but for what was given back, all else is as it was. -/
structure Recorded (s t : State) (ks : List EventKind) (ns : Nat) : Prop where
  trace : ∃ evs, t.trace = s.trace ++ evs ∧ evs.map Event.kind = ks
  mem : t.mem = ks.foldl applyEvent s.mem
  now : s.now + ns ≤ t.now
  handle : t.handle = s.handle
  phase : t.phase = s.phase
  fault : t.fault = s.fault
  pending : t.pending = s.pending

theorem Recorded.trans {s t u : State} {ks ls : List EventKind} {m n : Nat} (h : Recorded s t ks m)
    (h' : Recorded t u ls n) : Recorded s u (ks ++ ls) (m + n) where
  trace := by
    obtain ⟨evs, htrace, hkinds⟩ := h.trace
    obtain ⟨evs', htrace', hkinds'⟩ := h'.trace
    exact ⟨evs ++ evs', by rw [htrace', htrace, List.append_assoc], by rw [List.map_append, hkinds, hkinds']⟩
  mem := by rw [h'.mem, h.mem, List.foldl_append]
  now := by have := h.now; have := h'.now; omega
  handle := h'.handle.trans h.handle
  phase := h'.phase.trans h.phase
  fault := h'.fault.trans h.fault
  pending := h'.pending.trans h.pending

theorem Recorded.after_giveBack {s t : State} {ks : List EventKind} {n : Nat} (h : Recorded s t ks n) (r : Returned) :
    Recorded s (giveBack r t) ks n :=
  ⟨h.trace, h.mem, h.now, h.handle, h.phase, h.fault, h.pending⟩

theorem Sent.recorded {s t : State} {ws : List RegWrite} {n : Nat} (h : Sent s t ws n) :
    Recorded s t (writesEvents s.mem ws) n := by
  obtain ⟨⟨htrace, hmem, hnow, hfault, hpending, -⟩, hphase, hhandle⟩ := h
  exact ⟨htrace, by rw [foldl_applyEvent_writesEvents, hmem], hnow, hhandle, hphase, hfault, hpending⟩

/-- The events of reads. -/
def readEvents (rs : List (Pin × Bool)) : List EventKind := rs.map fun r => readEvent r.1 r.2

/-- A read writes no register (R147). -/
@[simp] theorem foldl_applyEvent_readEvents (m : Memory) (rs : List (Pin × Bool)) :
    (readEvents rs).foldl applyEvent m = m := by
  induction rs with
  | nil => rfl
  | cons r rs ih => exact ih

theorem Read.recorded {s t : State} {rs : List (Pin × Bool)} (h : Read s t rs) : Recorded s t (readEvents rs) 0 := by
  obtain ⟨htrace, hmem, hnow, hfault, hpending, -, hphase, hhandle⟩ := h
  exact ⟨htrace, hmem.trans (foldl_applyEvent_readEvents ..).symm, hnow, hhandle, hphase, hfault, hpending⟩

/-! ### The poll run to its end -/

/-- The writes of the poll before its first nibble is read (R190). -/
def pollStart (h : Handle) : List RegWrite := h.dataPins.map (direct · .input) ++ [drive h.rs false, drive h.en true]

/-- The writes of the poll between its two nibbles (R190). -/
def pollGap (h : Handle) : List RegWrite := [drive h.en false, drive h.en true]

/-- The writes of the poll after its second nibble is read (R190). -/
def pollEnd (h : Handle) : List RegWrite := drive h.en false :: h.dataPins.map (direct · .output)

/-- The reads of one nibble: D7, D6, D5, D4 (R190). -/
def nibbleReads (h : Handle) (l7 l6 l5 l4 : Bool) : List (Pin × Bool) :=
  [(h.d7, l7), (h.d6, l6), (h.d5, l5), (h.d4, l4)]

/-- The events of a poll that starts from registers `m` and reads `hi` and then `lo` (R190, R193). -/
def pollEvents (h : Handle) (m : Memory) (hi lo : List (Pin × Bool)) : List EventKind :=
  writesEvents m (pollStart h) ++ readEvents hi ++ writesEvents (writesMem m (pollStart h)) (pollGap h) ++
    readEvents lo ++ writesEvents (writesMem (writesMem m (pollStart h)) (pollGap h)) (pollEnd h)

/-- The registers after a poll. -/
theorem foldl_applyEvent_pollEvents (h : Handle) (m : Memory) (hi lo : List (Pin × Bool)) :
    (pollEvents h m hi lo).foldl applyEvent m =
      writesMem (writesMem (writesMem m (pollStart h)) (pollGap h)) (pollEnd h) := by
  simp only [pollEvents, List.foldl_append, foldl_applyEvent_writesEvents, foldl_applyEvent_readEvents]

section
variable {s : State} {h : Handle} (hen : isOutput s h.en = true)
include hen

theorem pollStart_go (hrs : isOutput s h.rs = true) (hrs' : h.rs ∉ h.dataPins) (hen' : h.en ∉ h.dataPins) :
    ∃ t, runSteps [dataDirections h .input, setPin h.rs false, setPin h.en true, delayUsStep Config.tPollSettle] s =
      .go t ∧ Sent s t (pollStart h) 1000 ∧ isOutput t h.en = true := by
  obtain ⟨t, ht, hs, ho⟩ := dataDirections_go h .input s
  have hout : allOutputs t [drive h.rs false, drive h.en true] = true := by simp [drive, ho, hrs, hrs', hen, hen']
  have hdrives := (sends_setPin h.rs false).cons <| (sends_setPin h.en true).cons <| (sends_delayUs 1).cons sends_nil
  obtain ⟨u, hu, hs'⟩ := (hdrives.2 t).1 hout
  refine ⟨u, by rw [runSteps_cons, ht, Flow.go_andThen]; exact hu, by simpa [pollStart] using hs.trans hs', ?_⟩
  rw [hs'.isOutput_eq hdrives.1, ho, if_neg hen', hen]

theorem pollGap_go : ∃ t, runSteps [setPin h.en false, delayUsStep Config.tPollGap, setPin h.en true,
    delayUsStep Config.tPollSettle] s = .go t ∧ Sent s t (pollGap h) 2000 ∧ isOutput t h.en = true := by
  have hdrives := (sends_setPin h.en false).cons <| (sends_delayUs 1).cons <| (sends_setPin h.en true).cons <|
    (sends_delayUs 1).cons sends_nil
  obtain ⟨t, ht, hs⟩ := (hdrives.2 s).1 (by simp [drive, hen])
  exact ⟨t, ht, hs, by rw [hs.isOutput_eq hdrives.1, hen]⟩

theorem pollEnd_go : ∃ t, runSteps [setPin h.en false, dataDirections h .output] s = .go t ∧
    Sent s t (pollEnd h) 0 := by
  obtain ⟨t, ht, hs⟩ := setPin_go false hen
  obtain ⟨u, hu, hs', -⟩ := dataDirections_go h .output t
  exact ⟨u, by simp [ht, hu], hs.trans hs'⟩

/-- With RS and Enable outputs, and no data Pins, the poll reads its two nibbles (R190, R193). -/
theorem readBusy_go (hrs : isOutput s h.rs = true) (hrs' : h.rs ∉ h.dataPins) (hen' : h.en ∉ h.dataPins) :
    ∃ t a7 a6 a5 a4 b7 b6 b5 b4, readBusy h s = .go t ∧
      t.returned = some (.byte (byteOfNibbles (nibbleOfLevels a7 a6 a5 a4) (nibbleOfLevels b7 b6 b5 b4))) ∧
      Recorded s t (pollEvents h s.mem (nibbleReads h a7 a6 a5 a4) (nibbleReads h b7 b6 b5 b4)) 3000 := by
  obtain ⟨t₁, ht₁, hs₁, ho₁⟩ := pollStart_go hen hrs hrs' hen'
  obtain ⟨a7, a6, a5, a4, ha, hr₂⟩ := read_sampleNibble h t₁
  obtain ⟨t₃, ht₃, hs₃, ho₃⟩ := pollGap_go ((hr₂.isOutput_eq h.en).trans ho₁)
  obtain ⟨b7, b6, b5, b4, hb, hr₄⟩ := read_sampleNibble h t₃
  obtain ⟨t₅, ht₅, hs₅⟩ := pollEnd_go ((hr₄.isOutput_eq h.en).trans ho₃)
  have hrec := (((hs₁.recorded.trans hr₂.recorded).trans hs₃.recorded).trans hr₄.recorded).trans hs₅.recorded
  rw [hr₄.mem_eq, hs₃.mem_eq, hr₂.mem_eq, hs₁.mem_eq] at hrec
  exact ⟨giveBack (.byte (byteOfNibbles (nibbleOfLevels a7 a6 a5 a4) (nibbleOfLevels b7 b6 b5 b4))) t₅,
    a7, a6, a5, a4, b7, b6, b5, b4, by simp only [readBusy, ht₁, ht₃, ht₅, Flow.go_andThen, ha, hb], rfl,
    hrec.after_giveBack _⟩

end

/-- After a poll the data Pins are outputs (R190). -/
theorem ddrBit_pollEnd (h : Handle) (m : Memory) {pin : Pin} (hin : pin ∈ h.dataPins) :
    bitOf (Memory.read (writesMem m (pollEnd h)) (Config.ddrAddr pin.port)) pin.bit = true := by
  rw [pollEnd, writesMem_cons, ddrBit_directs, if_pos hin]
  rfl

/-- Settles O19: the last of what the poll records are the directions that make the data Pins outputs again. -/
theorem readBusyPollsTwoNibbles : Obligations.ReadBusyPollsTwoNibbles := by
  intro s h hp hh hrs hen hrs' hen'
  obtain ⟨t, a7, a6, a5, a4, b7, b6, b5, b4, ht, hreturned, hrec⟩ := readBusy_go hen hrs hrs' hen'
  obtain ⟨evs, htrace, hkinds⟩ := hrec.trace
  have hmem := hrec.mem.trans (foldl_applyEvent_pollEvents ..)
  have hlength : evs.length = 21 := by
    rw [← List.length_map (f := Event.kind), hkinds]
    simp [pollEvents, pollStart, pollGap, pollEnd, readEvents, nibbleReads, Handle.dataPins]
  refine ⟨t, evs, a7, a6, a5, a4, b7, b6, b5, b4, by rw [exec_readBusy hp hh, ht, Flow.state_go], hreturned,
    ⟨htrace, hlength, hkinds, hmem⟩, fun pin hin => ?_, hrec.now, hrec.handle, hrec.phase, hrec.fault,
    hrec.pending⟩
  rw [isOutput, State.ddr, hmem]
  exact ddrBit_pollEnd h _ hin

end Sys2Proof.Machine
end

section
/-! PROOF. What a poll puts on a clean bus (R194, R176; log 20): two falling edges of Enable, with RS low and the data
lines undriven. -/

namespace Sys2Proof.Machine

/-! ### Lines -/

/-- Driving a Pin leaves the line of any other, driven or not. -/
theorem lineLevel_drive_ne {m : Memory} {pin q : Pin} (level : Bool) (hne : pin ≠ q) :
    lineLevel (writeMem m (drive q level)) pin = lineLevel m pin := by
  simp only [lineLevel, ddrBit_drive, portBit_drive, if_neg hne]

/-- Driving a Pin whose line is driven puts the level on the line. -/
theorem lineLevel_drive_same {m : Memory} {pin : Pin} {old : Bool} (level : Bool) (hline : lineLevel m pin = some old) :
    lineLevel (writeMem m (drive pin level)) pin = some level := by
  rw [lineLevel_drive level (by_contra fun hin => by simp [lineLevel, hin] at hline), if_pos rfl]

/-- Direction writes leave every data register. -/
theorem port_directs (m : Memory) (pins : List Pin) (mode : Mode) (p : Port) :
    Memory.read (writesMem m (pins.map (direct · mode))) (Config.portAddr p) = Memory.read m (Config.portAddr p) := by
  induction pins generalizing m with
  | nil => rfl
  | cons q pins ih => rw [List.map_cons, writesMem_cons, ih, port_direct]

/-- Pins made inputs leave their lines undriven, and every other line as it was (R41). -/
theorem lineLevel_inputs (m : Memory) (pins : List Pin) (pin : Pin) :
    lineLevel (writesMem m (pins.map (direct · .input))) pin = if pin ∈ pins then none else lineLevel m pin := by
  simp only [lineLevel, ddrBit_directs, port_directs, Mode.bit]
  split <;> simp

/-- With six distinct Pins, Enable moves none of the lines that are latched. -/
theorem latchOf_drive_enable {h : Handle} (hn : h.pins.Nodup) (m : Memory) (level : Bool) :
    latchOf h (writeMem m (drive h.en level)) = latchOf h m := by
  have hne : ∀ pin ∈ [h.rs, h.d4, h.d5, h.d6, h.d7], pin ≠ h.en := by
    simp only [Handle.pins, List.nodup_cons, List.mem_cons, not_or] at hn
    grind
  have line := fun pin hin => lineLevel_drive_ne (m := m) level (hne pin hin)
  simp only [List.forall_mem_cons] at line
  simp only [latchOf, line]

/-! ### Edges -/

/-- Reads latch nothing. -/
theorem latched_readEvents (h : Handle) (m : Memory) (rs : List (Pin × Bool)) : latched h m (readEvents rs) = [] := by
  induction rs with
  | nil => rfl
  | cons r rs ih => exact ih

/-- Directions latch nothing. -/
theorem latched_directs (h : Handle) (m : Memory) (pins : List Pin) (mode : Mode) :
    latched h m (writesEvents m (pins.map (direct · mode))) = [] := by
  induction pins generalizing m with
  | nil => rfl
  | cons q pins ih =>
    have hedge : fallingEdge h m (writeEvent m (direct q mode)) = false := by rw [writeEvent_direct]; rfl
    simpa [latched, hedge] using ih _

/-- Enable driven low from high latches the lines. -/
theorem latched_enable_low {h : Handle} {m : Memory} (hen : lineLevel m h.en = some true) (ws : List RegWrite) :
    latched h m (writesEvents m (drive h.en false :: ws)) = latchOf h (writeMem m (drive h.en false)) ::
      latched h (writeMem m (drive h.en false)) (writesEvents (writeMem m (drive h.en false)) ws) := by
  simp [latched, fallingEdge_drive, hen]

/-- A level on another Pin than Enable, or a high level on Enable, latches nothing. -/
theorem latched_no_edge {h : Handle} {q : Pin} {level : Bool} (hq : q ≠ h.en ∨ level = true) (m : Memory)
    (ws : List RegWrite) : latched h m (writesEvents m (drive q level :: ws)) =
      latched h (writeMem m (drive q level)) (writesEvents (writeMem m (drive q level)) ws) := by
  have hedge : ¬(q = h.en ∧ level = false) := by grind
  simp [latched, fallingEdge_drive, hedge]

/-! ### The poll -/

/-- RS low and no value on the data lines (R194; log 20). -/
def pollLatch : Latch := ⟨some false, none, none, none, none⟩

theorem latchOf_eq_pollLatch {h : Handle} {m : Memory} (hrs : lineLevel m h.rs = some false)
    (hdata : ∀ pin ∈ h.dataPins, lineLevel m pin = none) : latchOf h m = pollLatch := by
  simp only [Handle.dataPins, List.forall_mem_cons] at hdata
  simp only [latchOf, pollLatch, hrs, hdata]

section
variable {h : Handle} {m : Memory} (hn : h.pins.Nodup)
include hn

/-- Six distinct Pins: RS, Enable and the data Pins are apart. -/
theorem rs_en_apart : h.rs ≠ h.en ∧ h.rs ∉ h.dataPins ∧ h.en ∉ h.dataPins := by
  simp only [Handle.pins, List.nodup_cons, List.mem_cons, not_or] at hn
  grind [Handle.dataPins]

/-- The poll's first writes make RS low, Enable high and the data lines undriven. -/
theorem lines_pollStart {rs en : Bool} (hrs : lineLevel m h.rs = some rs) (hen : lineLevel m h.en = some en) :
    latchOf h (writesMem m (pollStart h)) = pollLatch ∧ lineLevel (writesMem m (pollStart h)) h.en = some true := by
  obtain ⟨hne, hrs', hen'⟩ := rs_en_apart hn
  have hline := lineLevel_inputs m h.dataPins
  rw [pollStart, writesMem_append, writesMem_cons, writesMem_cons, writesMem_nil, latchOf_drive_enable hn]
  refine ⟨latchOf_eq_pollLatch ?low fun pin hin => ?undriven, lineLevel_drive_same (old := en) true ?enable⟩
  case low => exact lineLevel_drive_same false ((hline h.rs).trans ((if_neg hrs').trans hrs))
  case undriven =>
    have hne : pin ≠ h.rs := fun he => hrs' (he ▸ hin)
    rw [lineLevel_drive_ne false hne, hline, if_pos hin]
  case enable => rw [lineLevel_drive_ne false hne.symm, hline, if_neg hen', hen]

/-- Enable low and high again leaves the lines and Enable high. -/
theorem lines_pollGap (hen : lineLevel m h.en = some true) :
    latchOf h (writesMem m (pollGap h)) = latchOf h m ∧ lineLevel (writesMem m (pollGap h)) h.en = some true := by
  simp only [pollGap, writesMem_cons, writesMem_nil, latchOf_drive_enable hn, true_and]
  exact lineLevel_drive_same true (lineLevel_drive_same false hen)

/-- A poll latches two words: its two falling edges find RS low and the data lines undriven (R190, R194). -/
theorem latched_pollEvents {rs en : Bool} (hrs : lineLevel m h.rs = some rs) (hen : lineLevel m h.en = some en)
    (hi lo : List (Pin × Bool)) : latched h m (pollEvents h m hi lo) = [pollLatch, pollLatch] := by
  obtain ⟨hne, -, -⟩ := rs_en_apart hn
  obtain ⟨hlatch₁, hen₁⟩ := lines_pollStart hn hrs hen
  obtain ⟨hlatch₂, hen₂⟩ := lines_pollGap hn hen₁
  have start : latched h m (writesEvents m (pollStart h)) = [] := by
    rw [pollStart, writesEvents_append, latched_append, latched_directs, foldl_applyEvent_writesEvents,
      latched_no_edge (.inl hne), latched_no_edge (.inr rfl)]
    rfl
  have gap : latched h (writesMem m (pollStart h)) (writesEvents (writesMem m (pollStart h)) (pollGap h)) =
      [pollLatch] := by
    rw [pollGap, latched_enable_low hen₁, latched_no_edge (.inr rfl), latchOf_drive_enable hn, hlatch₁]
    rfl
  have stop : ∀ m', latchOf h m' = pollLatch → lineLevel m' h.en = some true →
      latched h m' (writesEvents m' (pollEnd h)) = [pollLatch] := fun m' hlatch hline => by
    rw [pollEnd, latched_enable_low hline, latched_directs, latchOf_drive_enable hn, hlatch]
  simp only [pollEvents, latched_append, List.foldl_append, foldl_applyEvent_writesEvents,
    foldl_applyEvent_readEvents, latched_readEvents, start, gap, stop _ (hlatch₂.trans hlatch₁) hen₂]
  rfl

end

/-- Settles O21: a driven handle of six distinct Pins meets what the poll needs to run to its end. -/
theorem pollLatchesUndrivenData : Obligations.PollLatchesUndrivenData := by
  intro s h hp hh hd hc
  obtain ⟨hn, hlow⟩ := hc
  obtain ⟨-, hrs', hen'⟩ := rs_en_apart hn
  have hout := List.all_eq_true.1 hd
  have hrs : isOutput s h.rs = true := hout h.rs (by simp [Handle.pins])
  obtain ⟨t, _, _, _, _, _, _, _, _, ht, -, hrec⟩ :=
    readBusy_go (hout h.en (by simp [Handle.pins])) hrs hrs' hen'
  obtain ⟨evs, htrace, hkinds⟩ := hrec.trace
  refine ⟨t, by rw [exec_readBusy hp hh, ht, Flow.state_go], ?_⟩
  rw [latchedBetween, eventsFrom, htrace, List.drop_left, hkinds]
  exact latched_pollEvents hn (if_pos hrs) hlow _ _

end Sys2Proof.Machine
end

section
/-! PROOF. How `create` (R201) and `begin` (R210) end: on driven Pins `begin` makes its writes and reaches Ready, at an
input it stops, and out of order either raises its fault at once. -/

namespace Sys2Proof.Machine

/-! ### create -/

section
variable {s : State} (rs en d4 d5 d6 d7 : Byte)

/-- `create` before any handle runs its statements (R201). -/
theorem exec_create_noHandle (hp : s.phase = .noHandle) : exec (.create rs en d4 d5 d6 d7) s =
    .next (createSteps (newHandle rs en d4 d5 d6 d7) s).state := by
  simp [exec, execCreate, unlessFaulted, complete, hp]

/-- A second `create` raises its fault at once (R201, R301). -/
theorem exec_create_again (hno : s.phase ≠ .noHandle) (hf : s.phase ≠ .faulted) :
    exec (.create rs en d4 d5 d6 d7) s = .next (raise (.alreadyCreated s.phase) s) := by
  simp [exec, execCreate, unlessFaulted, complete, raiseStep, hno, hf]

end

/-- Settles O25: direction writes leave every PORT, and make outputs of the Pins they name. -/
theorem createBuildsTheHandle : Obligations.CreateBuildsTheHandle := by
  refine fun rs en d4 d5 d6 d7 s => ⟨fun hp => ?created, exec_create_again rs en d4 d5 d6 d7⟩
  case created =>
    obtain ⟨t, ht, hphase, hhandle, hs⟩ := createSteps_go (newHandle rs en d4 d5 d6 d7) s
    have hmem : t.mem = writesMem s.mem ((newHandle rs en d4 d5 d6 d7).pins.map (direct · .output)) := by
      obtain ⟨-, hmem, -⟩ := hs
      exact hmem
    refine ⟨t, by rw [exec_create_noHandle rs en d4 d5 d6 d7 hp, ht, Flow.state_go], hphase, hhandle, hs, ?ports,
      ?outputs⟩
    case ports => exact fun p => by rw [State.port, hmem, port_directs, State.port]
    case outputs =>
      intro n hn
      have hpin : resolvePin n ∈ (newHandle rs en d4 d5 d6 d7).pins := List.mem_map_of_mem (f := resolvePin) hn
      rw [isOutput, State.ddr, hmem, ddrBit_directs, if_pos hpin, Mode.bit]

/-! ### begin out of order -/

section
variable {s : State} (columns rows : Byte)

theorem exec_begin_noHandle (hp : s.phase = .noHandle) :
    exec (.begin columns rows) s = .next (raise (.noHandle .begin) s) := by
  simp [exec, execBegin, unlessFaulted, complete, raiseStep, hp]

theorem exec_begin_again (hno : s.phase ≠ .noHandle) (hc : s.phase ≠ .constructed) (hf : s.phase ≠ .faulted) :
    exec (.begin columns rows) s = .next (raise (.beginTwice s.phase) s) := by
  simp [exec, execBegin, unlessFaulted, complete, raiseStep, hno, hc, hf]

end

/-- Settles O29: the phase check comes before the first statement. -/
theorem beginOutOfOrderFaults : Obligations.BeginOutOfOrderFaults := fun columns rows _ =>
  ⟨exec_begin_noHandle columns rows, exec_begin_again columns rows⟩

/-! ### begin in Constructed -/

/-- The first six writes of `begin` drive the six Pins of its handle, one each (R214, R171). -/
theorem pins_beginWrites_take (h : Handle) (rows : Byte) :
    ((beginWrites h rows).take 6).map RegWrite.pin = h.pins := rfl

theorem driven_of_allOutputs_beginWrites {s : State} {h : Handle} {rows : Byte}
    (ho : allOutputs s (beginWrites h rows) = true) : driven s h = true := by
  rw [driven, ← pins_beginWrites_take h rows, List.all_map]
  exact List.all_eq_true.2 fun w hw => List.all_eq_true.1 ho w (List.mem_of_mem_take hw)

/-- On driven Pins `begin` runs to its end (R210). -/
theorem begin_go {s : State} {h : Handle} (hp : s.phase = .constructed) (hh : s.handle = some h)
    (hd : driven s h = true) (columns rows : Byte) : ∃ t, exec (.begin columns rows) s = .next t ∧
      beginSteps h rows s = .go t ∧ SendsOnly s t (beginWrites h rows) 82224000 ∧ t.phase = .ready ∧
      t.handle = some (bytesAfter (.begin columns rows) h) := by
  obtain ⟨t, ht, hs, hphase, hhandle⟩ :=
    ((does_beginSteps h columns rows).2 s).1 (allOutputs_beginWrites hd rows)
  exact ⟨t, by rw [exec_begin_constructed hp hh, ht, Flow.state_go], ht, hs, hphase,
    by rw [hhandle, hh, Option.map_some]⟩

/-- Settles O26: the driven case of what the statements of `begin` do. -/
theorem beginReachesReady : Obligations.BeginReachesReady := by
  intro columns rows s h hp hh hd
  obtain ⟨t, hexec, -, hs, hphase, hhandle⟩ := begin_go hp hh hd columns rows
  exact ⟨t, hexec, hs, rfl, hphase, hhandle⟩

/-- Settles O28: `begin` drives each of the six Pins, so one that is an input stops it. -/
theorem beginStopsAtAnInput : Obligations.BeginStopsAtAnInput := by
  intro columns rows s h hp hh hd
  have hinput : allOutputs s (beginWrites h rows) = false :=
    Bool.eq_false_iff.2 fun ho => by simp [driven_of_allOutputs_beginWrites ho] at hd
  obtain ⟨t, ht, before, w, after, hws, hbefore, hw, hfault, hphase, hrest⟩ :=
    ((does_beginSteps h columns rows).2 s).2 hinput
  exact ⟨t.handle, t, before, w, after, hws, hbefore, hw,
    by rw [exec_begin_constructed hp hh, ht, Flow.state_halted], hfault, hphase, rfl, hrest⟩

end Sys2Proof.Machine
end

section
/-! PROOF. The waits inside `begin` (R211 to R218, R220): its statements as beats, and what they put between
an event and the next. -/

namespace Sys2Proof.Machine

/-! ### Between two events -/

/-- The nanoseconds that beats wait before their first event, or before their end. -/
def leadingWait : List Beat → Nat
  | .wait n :: p => n + leadingWait p
  | .event :: _ | [] => 0

/-- The nanoseconds that beats wait after their event `k`, counted from 0, and before the next or their end. -/
def waitAfter : List Beat → Nat → Nat
  | [], _ => 0
  | .wait _ :: p, k => waitAfter p k
  | .event :: p, 0 => leadingWait p
  | .event :: p, k + 1 => waitAfter p k

theorem OnBeat.leadingWait_le {a b : Nat} {p : List Beat} {xs : List Nat} (h : OnBeat a p xs b) :
    a + leadingWait p ≤ xs.getD 0 b := by
  induction p generalizing a with
  | nil =>
    obtain ⟨rfl, hab⟩ := h
    exact hab
  | cons beat p ih =>
    cases beat with
    | wait n => exact (Nat.add_assoc a n _).symm.trans_le (ih h)
    | event =>
      obtain ⟨hne, hax, -⟩ := h
      cases xs with
      | nil => exact absurd rfl hne
      | cons x xs => exact hax

theorem OnBeat.waitAfter_le {a b : Nat} {p : List Beat} {xs : List Nat} (h : OnBeat a p xs b) {k : Nat}
    (hk : k < xs.length) : xs.getD k 0 + waitAfter p k ≤ xs.getD (k + 1) b := by
  induction p generalizing a xs k with
  | nil =>
    obtain ⟨rfl, -⟩ := h
    cases hk
  | cons beat p ih =>
    cases beat with
    | wait n => exact ih h hk
    | event =>
      obtain ⟨-, -, hrest⟩ := h
      cases xs with
      | nil => cases hk
      | cons x xs =>
        cases k with
        | zero => exact hrest.leadingWait_le
        | succ k => exact ih hrest (Nat.lt_of_succ_lt_succ hk)

/-- The default value of a list plays no part below its length. -/
theorem getD_eq_getD {xs : List Nat} {k : Nat} (hk : k < xs.length) (d d' : Nat) : xs.getD k d = xs.getD k d' := by
  rw [List.getD_eq_getElem _ _ hk, List.getD_eq_getElem _ _ hk]

section
variable {a b : Nat} {p : List Beat} {xs : List Nat} (h : OnBeat a p xs b)
include h

theorem OnBeat.wait_first (hne : 0 < xs.length) : a + leadingWait p ≤ xs.getD 0 0 :=
  h.leadingWait_le.trans_eq (getD_eq_getD hne _ _)

theorem OnBeat.wait_next {k : Nat} (hk : k + 1 < xs.length) : xs.getD k 0 + waitAfter p k ≤ xs.getD (k + 1) 0 :=
  (h.waitAfter_le (Nat.lt_of_succ_lt hk)).trans_eq (getD_eq_getD hk _ _)

theorem OnBeat.wait_last {k : Nat} (hk : k + 1 = xs.length) : xs.getD k 0 + waitAfter p k ≤ b :=
  (h.waitAfter_le (by omega)).trans_eq (List.getD_eq_default _ _ hk.ge)

end

/-! ### The statements of begin -/

theorem paced_of_advance {k : State → Flow} (n : Nat) (hk : ∀ s, k s = .go (advance n s)) : Paced k [.wait n] := by
  intro s t ht
  cases (hk s).symm.trans ht
  exact ⟨[], (List.append_nil _).symm, rfl, le_now_advance n s⟩

theorem paced_delayMs (n : Nat) : Paced (delayMsStep n) [.wait (n * 1000000)] := paced_of_advance _ fun _ => rfl

/-- A statement that records nothing and takes no time has no beat. -/
theorem paced_of_instant {k : State → Flow} (hk : ∀ s, ∃ t, k s = .go t ∧ t.trace = s.trace ∧ t.now = s.now) :
    Paced k [] := by
  intro s t ht
  obtain ⟨u, hu, htrace, hnow⟩ := hk s
  cases hu.symm.trans ht
  exact ⟨[], by rw [htrace, List.append_nil], rfl, hnow.ge⟩

theorem paced_setPhase (p : Phase) : Paced (setPhase p) [] := paced_of_instant fun _ => ⟨_, rfl, rfl, rfl⟩

theorem paced_updateHandle (f : Handle → Handle) : Paced (updateHandle f) [] :=
  paced_of_instant fun _ => ⟨_, rfl, rfl, rfl⟩

/-- The beats of `begin`, state by state (R211 to R218). -/
def beginBeats : List Beat :=
  [[.wait (50 * 1000000), .event, .event],
    nibbleBeats, [.wait (5 * 1000000)], nibbleBeats, [.wait (5 * 1000000)], nibbleBeats, [.wait (1 * 1000000)],
    nibbleBeats, transferBeats, [.wait (5 * 1000000)], transferBeats, [.wait (5 * 1000000)],
    transferBeats, [.wait (5 * 1000000)], transferBeats, [.wait (5 * 1000000)]].flatten

theorem paced_beginSteps (h : Handle) (rows : Byte) : Paced (beginSteps h rows) beginBeats := by
  have command := fun v => paced_transferByte h v false
  have nibble := fun v => paced_writeNibble h v
  exact (paced_updateHandle _).cons <| (paced_setPhase _).cons <| (paced_delayMs 50).cons <|
    (paced_setPin h.rs false).cons <| (paced_setPin h.en false).cons <|
    (paced_setPhase _).cons <| (nibble 0x03).cons <| (paced_delayMs 5).cons <|
    (paced_setPhase _).cons <| (nibble 0x03).cons <| (paced_delayMs 5).cons <|
    (paced_setPhase _).cons <| (nibble 0x03).cons <| (paced_delayMs 1).cons <|
    (paced_setPhase _).cons <| (nibble 0x02).cons <|
    (paced_setPhase _).cons <| (paced_updateHandle _).cons <| (command _).cons <| (paced_delayMs 5).cons <|
    (paced_setPhase _).cons <| (paced_updateHandle _).cons <| (command _).cons <| (paced_delayMs 5).cons <|
    (paced_setPhase _).cons <| (command 0x01).cons <| (paced_delayMs 5).cons <|
    (paced_setPhase _).cons <| (paced_updateHandle _).cons <| (command _).cons <| (paced_delayMs 5).cons <|
    (paced_setPhase _).cons paced_nil

/-- Settles O27: each wait is the one that the beats of `begin` put before the first event or after event `k`. -/
theorem beginKeepsTheWaits : Obligations.BeginKeepsTheWaits := by
  intro columns rows s h hp hh hd
  obtain ⟨t, hexec, ht, ⟨⟨evs, htrace, hkinds⟩, -⟩, -⟩ := begin_go hp hh hd columns rows
  obtain ⟨evs', hbeats, hbeat⟩ := paced_beginSteps h rows s t ht
  obtain ⟨-, evs'', horders, horder, -⟩ := (exec_logged hexec).grows
  obtain rfl : evs = evs' := List.append_cancel_left (htrace.symm.trans hbeats)
  obtain rfl : evs = evs'' := List.append_cancel_left (htrace.symm.trans horders)
  have hlength : evs.length = 90 := by rw [← List.length_map (f := Event.kind), hkinds, writesEvents_length]; rfl
  have htimes : (evs.map Event.time).length = 90 := by rw [List.length_map, hlength]
  have next : ∀ k < 89, (evs.map Event.time).getD k 0 + waitAfter beginBeats k ≤
      (evs.map Event.time).getD (k + 1) 0 := fun k hk => hbeat.wait_next (by omega)
  -- The figures of the statement are what `leadingWait` and `waitAfter` compute on `beginBeats`.
  exact ⟨t, evs, hexec, htrace, hlength, hkinds, horder, hbeat.wait_first (by omega), next 8 (by decide),
    next 15 (by decide), next 22 (by decide), next 29 (by decide), next 44 (by decide), next 59 (by decide),
    next 74 (by decide), hbeat.wait_last htimes.symm⟩

end Sys2Proof.Machine
end

section
/-! PROOF. What `begin` leaves on the lines (R214) and what it latches on a clean bus (R221). -/

namespace Sys2Proof.Machine

/-! ### The lines, whatever was on Enable -/

section
variable {h : Handle} {m : Memory}

/-- Pins that are outputs have some level on their lines (R41). -/
theorem lines_of_outputs
    (ho : ∀ pin ∈ h.pins, bitOf (Memory.read m (Config.ddrAddr pin.port)) pin.bit = true) :
    Lines h m (latchOf h m) (bitOf (Memory.read m (Config.portAddr h.en.port)) h.en.bit) :=
  ⟨ho, rfl, if_pos (ho h.en (by simp [Handle.pins]))⟩

variable (hn : h.pins.Nodup) {l : Latch} {en : Bool} (hm : Lines h m l en) (v : Byte) {rs : Bool}
include hn hm

/-- A nibble leaves its bits on the data lines and Enable low (R170, R171). -/
theorem lines_nibbleWrites (hrs : l.rs = some rs) :
    Lines h (writesMem m (nibbleWrites h v)) (nibbleLatch rs v) false := by
  have chain := ((((((hm.drive h.d4 (bitOf v 0)).drive h.d5 (bitOf v 1)).drive h.d6 (bitOf v 2)).drive h.d7
    (bitOf v 3)).drive h.en false).drive h.en true).drive h.en false
  simp only [driveLatch_of_nodup hn, hrs, if_true] at chain
  exact chain

/-- A transfer leaves RS and its low nibble on the lines and Enable low (R172). -/
theorem lines_transferWrites : Lines h (writesMem m (transferWrites h v rs)) (nibbleLatch rs v) false := by
  have high := lines_nibbleWrites hn (hm.drive h.rs rs) (v >>> 4) (rs := rs) (by simp [driveLatch])
  have low := lines_nibbleWrites hn high v rfl
  rwa [← writesMem_append] at low

end

/-- The last transfer of `begin` is its entry-mode byte 0x06 (R218). -/
theorem beginWrites_eq_take_append (h : Handle) (rows : Byte) :
    beginWrites h rows = (beginWrites h rows).take 75 ++ transferWrites h 0x06 false := rfl

/-- `begin` ends with its entry-mode byte's low nibble on the lines and Enable low, whatever was on them before
(R214). -/
theorem lines_beginWrites {h : Handle} {m : Memory} (hn : h.pins.Nodup)
    (ho : ∀ pin ∈ h.pins, bitOf (Memory.read m (Config.ddrAddr pin.port)) pin.bit = true) (rows : Byte) :
    Lines h (writesMem m (beginWrites h rows)) (nibbleLatch false 0x06) false := by
  have hlevels : levelsOnly ((beginWrites h rows).take 75) = true := rfl
  rw [beginWrites_eq_take_append, writesMem_append]
  exact lines_transferWrites hn (lines_of_outputs fun pin hp => by rw [ddr_writesMem hlevels, ho pin hp]) 0x06

/-- Settles O30: the last transfer leaves the lines, level writes keep DDR, and `begin` drives its own Pins only. -/
theorem beginLeavesTheLinesAsSpecified : Obligations.BeginLeavesTheLinesAsSpecified := by
  intro columns rows s h hp hh hd hn
  obtain ⟨t, hexec, -, ⟨-, hmem, -⟩, -⟩ := begin_go hp hh hd columns rows
  obtain ⟨-, hlatch, henable⟩ := lines_beginWrites hn (List.all_eq_true.1 hd) rows
  obtain ⟨hlevels, -⟩ := does_beginSteps h columns rows
  obtain ⟨hports, -, -⟩ := onlyOwnPinsChange _ _ _ hexec
  refine ⟨t, hexec, by rw [hmem, hlatch]; rfl, by rw [hmem, henable], ?directions, ?others⟩
  case directions => exact fun p => by rw [State.ddr, hmem, ddr_writesMem hlevels, State.ddr]
  case others => exact fun pin hpin => hports pin (by simpa only [mayDrive, hh] using hpin)

/-- Settles O31: the words `begin` latches after its raw nibbles are its four bytes with RS low. -/
theorem beginLatchesTheInitSequence : Obligations.BeginLatchesTheInitSequence := by
  intro columns rows s h hp hh hd hc
  obtain ⟨t, hexec, -, hs, -⟩ := begin_go hp hh hd columns rows
  obtain ⟨l, hl⟩ := latches_beginWrites hc.1 rows (latchOf h s.mem)
  obtain ⟨hlatched, -⟩ := hs.latched_of_clean hd hc hl
  refine ⟨t, hexec, hlatched.trans ?_⟩
  simp only [wordLatches, beginWords, List.flatMap_map, wordRs_transferredWord, wordByte_transferredWord]
  rfl

end Sys2Proof.Machine
end

section
/-! PROOF. The phase check that the sixteen commands share (R230), and the commands whose statements only drive Pins:
clear, home, write, print, createChar and the two shifts. -/

namespace Sys2Proof.Machine

/-! ### The phase check -/

/-- A well-formed term is not refused (R115). -/
theorem refuseIllFormed_of_wellFormed {i : Instr} (h : i.wellFormed = true) (k : Host.Outcome State Fault Refusal) :
    refuseIllFormed i k = k := by
  rw [refuseIllFormed, Option.isNone_iff_eq_none.1 h]

/-- The shell of R230 makes its phase check. -/
theorem phaseChecked_of_runReady {i : Instr} {op : OpName} {s : State} {body : Handle → State → Flow}
    (h : exec i s = runReady op s body) : PhaseChecked i op s :=
  ⟨fun hp => h.trans (runReady_noHandle op hp body), fun hp => h.trans (runReady_constructed op hp body)⟩

theorem exec_print {text : List Byte} (hw : (Instr.print text).wellFormed = true) (s : State) :
    exec (.print text) s = runReady .print s fun h => runSteps ((untilTerminator text).map (data h)) :=
  refuseIllFormed_of_wellFormed hw _

theorem exec_createChar {slot : Byte} {rows : List Byte} (hw : (Instr.createChar slot rows).wellFormed = true)
    (s : State) : exec (.createChar slot rows) s =
      runReady .createChar s fun h => runSteps (command h (cgramByte slot) :: rows.map (data h)) :=
  refuseIllFormed_of_wellFormed hw _

/-- Every well-formed command is the shell of R230, under its own name, around some statements. -/
theorem exec_command_eq_runReady {i : Instr} (hi : isCommand i = true) (hw : i.wellFormed = true) :
    ∃ body, ∀ s, exec i s = runReady i.opName s body := by
  cases i with
  | clear | home | setCursor | write | display | noDisplay | cursor | noCursor | blink | noBlink | scrollDisplayLeft
  | scrollDisplayRight | autoscroll | noAutoscroll => exact ⟨_, fun _ => rfl⟩
  | print => exact ⟨_, exec_print hw⟩
  | createChar => exact ⟨_, exec_createChar hw⟩
  | create | begin | resolve | set | setDirection | sample | delayUs | delayMs | pulseEnable | writeNibble
  | transferByte | command | data | readBusy | b1ClearDisplay | b2ReturnHome | b3EntryModeSet | b4DisplayControl
  | b5CursorDisplayShift | b6FunctionSet | b7SetCgramAddress | b8SetDdramAddress | b9WriteData => cases hi

/-- Settles O32: the shell checks the phase, and in Ready a command has sent its words there or has raised a fault. -/
theorem commandsCheckThePhase : Obligations.CommandsCheckThePhase := by
  intro i s hi hw
  obtain ⟨body, hbody⟩ := exec_command_eq_runReady hi hw
  obtain ⟨hno, hconstructed⟩ := phaseChecked_of_runReady (hbody s)
  refine ⟨hno, hconstructed, fun t hp ht => ?_⟩
  rcases command_next hi ht with ⟨h, -, -, hphase, -⟩ | hraised
  · exact .inl (hphase.trans hp)
  · exact .inr hraised.phase

/-! ### Commands that only drive Pins -/

/-- In Ready the shell around statements that drive Pins makes their writes or stops at an input. -/
theorem Sends.performs_runReady {i : Instr} {op : OpName} {s : State} {h : Handle} {body : Handle → State → Flow}
    {ws : List RegWrite} {n : Nat} (hk : Sends (body h) ws n) (hexec : exec i s = runReady op s body)
    (hp : s.phase = .ready) (hh : s.handle = some h) : Performs i s ws n (some h) :=
  hk.performs hh (hexec.trans (runReady_ready op hp hh body))

/-- Settles O38: the statement of `write` is one data byte. -/
theorem writeSendsTheCharacter : Obligations.WriteSendsTheCharacter := fun c _ =>
  ⟨phaseChecked_of_runReady rfl, fun h => (sends_transferByte h c true).performs_runReady rfl⟩

/-- Settles O43: 0x18 and 0x1C are what the fields of B5 compose to. -/
theorem scrollSendsTheShift : Obligations.ScrollSendsTheShift := fun _ =>
  ⟨phaseChecked_of_runReady rfl, phaseChecked_of_runReady rfl, fun h hp hh =>
    ⟨(sends_transferByte h scrollLeftByte false).performs_runReady rfl hp hh,
      (sends_transferByte h scrollRightByte false).performs_runReady rfl hp hh⟩⟩

/-- What follows the first 0x00 is not shown (R244). -/
theorem untilTerminator_append {shown : List Byte} (h : (0x00 : Byte) ∉ shown) (rest : List Byte) :
    untilTerminator (shown ++ 0x00 :: rest) = shown := by
  induction shown with
  | nil => rfl
  | cons c shown ih =>
    obtain ⟨hc, hshown⟩ := List.ne_and_not_mem_of_not_mem_cons h
    rw [List.cons_append, untilTerminator, if_neg hc.symm, ih hshown]

/-- Settles O39: the bytes before the terminator are sent as data bytes, one after another. -/
theorem printSendsUpToTheTerminator : Obligations.PrintSendsUpToTheTerminator := by
  intro shown rest s hshown
  have hexec := exec_print (text := shown ++ 0x00 :: rest) (by simp [Instr.wellFormed, Instr.defect]) s
  rw [untilTerminator_append hshown] at hexec
  exact ⟨phaseChecked_of_runReady hexec, fun h => (sends_dataBytes h shown).performs_runReady hexec⟩

/-- The slot masked to three bits and shifted by three is eight times the slot modulo 8 (R252). -/
theorem cgramByte_eq (slot : Byte) : cgramByte slot = 0x40 ||| BitVec.ofNat 8 (slot.toNat % 8 * 8) := by
  revert slot; decide

/-- Settles O40: one command byte and then eight data bytes. -/
theorem createCharSendsNineBytes : Obligations.CreateCharSendsNineBytes := by
  intro slot rows s hrows
  have hexec := exec_createChar (slot := slot) (rows := rows) (by simp [Instr.wellFormed, Instr.defect, hrows]) s
  refine ⟨phaseChecked_of_runReady hexec, fun h => ?_⟩
  have hsends := (sends_transferByte h (cgramByte slot) false).cons (sends_dataBytes h rows)
  rw [cgramByte_eq, hrows] at hsends
  rw [cgramByte_eq] at hexec
  exact hsends.performs_runReady hexec

/-! ### clear and home -/

theorem paced_settledCommand (h : Handle) (v : Byte) :
    Paced (settledCommand h v) (transferBeats ++ [.wait (5 * 1000000)]) :=
  (paced_transferByte h v false).cons <| (paced_delayMs 5).cons paced_nil

/-- The last of some times in order is the greatest. -/
theorem le_getD_of_pairwise {xs : List Nat} (h : xs.Pairwise (· ≤ ·)) {k : Nat} (hk : k + 1 = xs.length) {x : Nat}
    (hx : x ∈ xs) : x ≤ xs.getD k 0 := by
  have hlast : xs.getLast (List.ne_nil_of_mem hx) = xs.getD k 0 := by
    rw [List.getLast_eq_getElem, List.getD_eq_getElem _ _ (by omega)]
    simp [← hk]
  exact (h.rel_getLast hx).trans_eq hlast

section
variable {i : Instr} {s : State} {h : Handle} {v : Byte}

/-- The settle wait, and the wait of the last strobe before it, come after the last event (R174, R232). -/
theorem settledCommand_settles (hexec : exec i s = .next (settledCommand h v s).state) (hd : driven s h = true) :
    ∃ t evs, exec i s = .next t ∧ t.trace = s.trace ++ evs ∧ ∀ e ∈ evs, e.time + 5100000 ≤ t.now := by
  obtain ⟨t, evs, ht, htrace, hlength, -, horder, hbeat, -⟩ :=
    (sends_settledCommand h v).next_onBeat (paced_settledCommand h v) (allOutputs_transferWrites hd v false) hexec
  have htimes : 14 + 1 = (evs.map Event.time).length := by rw [List.length_map, hlength]; rfl
  refine ⟨t, evs, ht, htrace, fun e he => ?_⟩
  calc e.time + 5100000
      ≤ (evs.map Event.time).getD 14 0 + 5100000 :=
        Nat.add_le_add_right (le_getD_of_pairwise horder htimes (List.mem_map_of_mem he)) _
    _ ≤ t.now := hbeat.wait_last htimes

/-- The shell of R230 around a command byte and the settle wait. -/
theorem settledCommand_sends_and_settles {op : OpName}
    (hexec : exec i s = runReady op s fun h => settledCommand h v) :
    PhaseChecked i op s ∧ ∀ h, s.phase = .ready → s.handle = some h →
      Performs i s (transferWrites h v false) 5204000 (some h) ∧
        (driven s h = true → ∃ t evs, exec i s = .next t ∧ t.trace = s.trace ++ evs ∧
          ∀ e ∈ evs, e.time + 5100000 ≤ t.now) :=
  ⟨phaseChecked_of_runReady hexec, fun h hp hh =>
    ⟨(sends_settledCommand h v).performs_runReady hexec hp hh,
      settledCommand_settles (hexec.trans (runReady_ready op hp hh _))⟩⟩

end

/-- Settles O33: `clear` is one command byte and the settle wait. -/
theorem clearSendsAndSettles : Obligations.ClearSendsAndSettles := fun _ => settledCommand_sends_and_settles rfl

/-- Settles O34: `home` is one command byte and the settle wait. -/
theorem homeSendsAndSettles : Obligations.HomeSendsAndSettles := fun _ => settledCommand_sends_and_settles rfl

/-- On a clean bus `clear` latches the nibbles of 0x01 and leaves a Ready state with a clean bus (R231, R177). -/
theorem clear_of_clean {s : State} {h : Handle} (hr : IsReady s h) (hc : CleanBus s h) :
    ∃ t, exec .clear s = .next t ∧ latchedBetween h s t = [nibbleLatch false 0x00, nibbleLatch false 0x01] ∧
      IsReady t h ∧ CleanBus t h := by
  obtain ⟨hp, hh, hd⟩ := hr
  obtain ⟨-, hperforms⟩ := clearSendsAndSettles s
  obtain ⟨⟨hends, -⟩, -⟩ := hperforms h hp hh
  obtain ⟨t, ht, hs, hphase, hhandle⟩ := hends (allOutputs_transferWrites hd 0x01 false)
  obtain ⟨hlatched, hlines⟩ := hs.latched_of_clean hd hc (latches_transfer hc.1 _ 0x01 false)
  obtain ⟨hdriven, hclean⟩ := hlines.clean hc.1 rfl
  exact ⟨t, ht, hlatched, ⟨hphase.trans hp, hhandle, hdriven⟩, hclean⟩

/-- Settles O35: the second `clear` begins as the first did, in Ready on a clean bus. -/
theorem clearTwiceLatchesTheSame : Obligations.ClearTwiceLatchesTheSame := by
  intro s h hr hc
  have ⟨_, hh, _⟩ := hr
  obtain ⟨t, ht, hlatched, hr', hc'⟩ := clear_of_clean hr hc
  obtain ⟨u, hu, hlatched', ⟨-, hh', -⟩, -⟩ := clear_of_clean hr' hc'
  exact ⟨t, u, ht, hu, hh'.trans hh.symm, hlatched, hlatched'.trans hlatched.symm⟩

end Sys2Proof.Machine
end

section
/-! PROOF. `set_cursor` (R240, R241): the clamp, the table of row offsets and the fault outside it. -/

namespace Sys2Proof.Machine

/-! ### The clamp and the table -/

@[simp] theorem readByte_some (field : HandleByte) (b : Byte) (k : Byte → State → Flow) :
    readByte field (some b) k = k b := rfl

theorem clampRow_eq (n row : Byte) : clampRow n row = if n.toNat ≤ row.toNat then n - 1 else row := rfl

/-- The table has an offset for the rows 0 to 3 (R46). -/
theorem rowOffset_eq_none_iff (r : Byte) : rowOffset r = none ↔ 3 < r.toNat :=
  List.getElem?_eq_none_iff

/-- The clamped row leaves the table exactly by R240's condition. -/
theorem three_lt_clampRow_iff (n row : Byte) :
    3 < (clampRow n row).toNat ↔ n.toNat = 0 ∨ (5 ≤ n.toNat ∧ 4 ≤ row.toNat) := by
  have hn := n.isLt
  have hone : (1 : Byte).toNat = 1 := rfl
  rw [clampRow_eq]
  split
  · rw [BitVec.toNat_sub, hone]
    omega
  · omega

/-! ### The statements -/

section
variable {h : Handle} {n row : Byte} (hl : h.lineCount = some n) (col : Byte)
include hl

theorem setCursorSteps_of_offset {offset : Byte} (ho : rowOffset (clampRow n row) = some offset) :
    setCursorSteps h col row = command h (ddramByte col offset) := by
  simp only [setCursorSteps, hl, readByte_some, ho]

theorem setCursorSteps_of_none (ho : rowOffset (clampRow n row) = none) :
    setCursorSteps h col row = raiseStep (.rowOffsetOutOfRange (clampRow n row)) := by
  simp only [setCursorSteps, hl, readByte_some, ho]

variable {s : State} (hp : s.phase = .ready) (hh : s.handle = some h)
include hp hh

theorem setCursor_performs {offset : Byte} (ho : rowOffset (clampRow n row) = some offset) :
    Performs (.setCursor col row) s (transferWrites h (ddramByte col offset) false) 204000 (some h) := by
  have hsends : Sends (setCursorSteps h col row) (transferWrites h (ddramByte col offset) false) 204000 := by
    rw [setCursorSteps_of_offset hl col ho]
    exact sends_transferByte h (ddramByte col offset) false
  exact hsends.performs_runReady (body := fun h => setCursorSteps h col row) rfl hp hh

theorem setCursor_raises (ho : rowOffset (clampRow n row) = none) :
    exec (.setCursor col row) s = .next (raise (.rowOffsetOutOfRange (clampRow n row)) s) :=
  runReady_raises .setCursor hp hh (setCursorSteps_of_none hl col ho)

end

/-- Settles O36: the clamped row is looked up in the table. -/
theorem setCursorSendsTheAddress : Obligations.SetCursorSendsTheAddress := by
  refine fun col row s => ⟨phaseChecked_of_runReady rfl, fun h n hp hh hl => ?_⟩
  rw [← clampRow_eq]
  have sends : ∀ r offset, rowOffset r = some offset → clampRow n row = r →
      Performs (.setCursor col row) s (transferWrites h (ddramByte col offset) false) 204000 (some h) :=
    fun r offset ho hr => setCursor_performs hl col hp hh (hr ▸ ho)
  exact ⟨sends 0 0x00 rfl, sends 1 0x40 rfl, sends 2 0x14 rfl, sends 3 0x54 rfl,
    fun hr => setCursor_raises hl col hp hh ((rowOffset_eq_none_iff _).2 hr)⟩

/-- What makes writes or stops at an input raises no fault but PinNotOutput (R145). -/
theorem Performs.fault_eq {i : Instr} {s t : State} {ws : List RegWrite} {n : Nat} {h' : Option Handle}
    (h : Performs i s ws n h') (ht : exec i s = .next t) :
    t.fault = s.fault ∨ ∃ pin, t.fault = some (.pinNotOutput pin) := by
  obtain ⟨hends, hstops⟩ := h
  cases ho : allOutputs s ws with
  | true =>
    obtain ⟨u, hu, ⟨-, -, -, hf, -, -⟩, -⟩ := hends ho
    cases hu.symm.trans ht
    exact .inl hf
  | false =>
    obtain ⟨u, -, w, -, -, -, -, hu, hf, -⟩ := hstops ho
    cases hu.symm.trans ht
    exact .inr ⟨w.pin, hf⟩

/-- Settles O37: `set_cursor` raises the fault exactly when the clamped row has no offset; a Ready state that meets the
invariant has no fault yet, and a transfer raises another one or none. -/
theorem setCursorFaultsExactlyOutsideTheTable : Obligations.SetCursorFaultsExactlyOutsideTheTable := by
  intro col row s h n ⟨_, _, _, hfault, _⟩ hp hh hl
  rw [← three_lt_clampRow_iff, ← rowOffset_eq_none_iff]
  constructor
  · rintro ⟨t, r, ht, hr⟩
    by_contra hne
    obtain ⟨offset, ho⟩ := Option.ne_none_iff_exists'.1 hne
    rcases (setCursor_performs hl col hp hh ho).fault_eq ht with hf | ⟨pin, hf⟩
    · exact absurd (hfault.1 (by rw [← hf, hr]; rfl)) (by rw [hp]; decide)
    · exact absurd (hr.symm.trans hf) (by simp)
  · exact fun ho => ⟨_, _, setCursor_raises hl col hp hh ho, rfl⟩

end Sys2Proof.Machine
end

section
/-! PROOF. The commands that update a flag byte and then send it (R245 to R251, R253, R258, R259). -/

namespace Sys2Proof.Machine

/-! ### An update and a transfer -/

/-- In Ready the shell around an update of the handle and statements that drive Pins. -/
theorem Sends.performs_afterUpdate {i : Instr} {op : OpName} {s : State} {h : Handle} {body : Handle → State → Flow}
    {k : State → Flow} {f : Handle → Handle} {ws : List RegWrite} {n : Nat} (hk : Sends k ws n)
    (hexec : exec i s = runReady op s body) (hbody : body h = runSteps [updateHandle f, k]) (hp : s.phase = .ready)
    (hh : s.handle = some h) : Performs i s ws n (some (f h)) := by
  rw [runReady_ready op hp hh, hbody] at hexec
  have hupdate : s.handle.map f = some (f h) := by rw [hh, Option.map_some]
  refine ⟨fun ho => ?_, fun ho => ?_⟩
  · obtain ⟨t, ht, hs, hphase, hhandle⟩ := (hk.afterUpdate f s).1 ho
    exact ⟨t, by rw [hexec, ht, Flow.state_go], hs, hphase, hhandle.trans hupdate⟩
  · obtain ⟨t, ht, before, w, after, hws, hb, hw, hf, hphase, hhandle, hrest⟩ := (hk.afterUpdate f s).2 ho
    exact ⟨t, before, w, after, hws, hb, hw, by rw [hexec, ht, Flow.state_halted], hf, hphase,
      hhandle.trans hupdate, hrest⟩

section
variable {i : Instr} {op : OpName} {s : State} {h : Handle} {f : Byte} {update : Byte → Byte}

/-- The statements of a display-control operation whose byte is set (R245). -/
theorem controlSteps_of_some (hc : h.controlFlags = some f) : controlSteps h update =
    runSteps [updateHandle fun h => { h with controlFlags := some (update f) },
      command h (displayControlByte (update f))] := by
  rw [controlSteps, hc, readByte_some]

/-- The statements of an autoscroll operation whose byte is set (R258). -/
theorem entrySteps_of_some (he : h.entryFlags = some f) : entrySteps h update =
    runSteps [updateHandle fun h => { h with entryFlags := some (update f) },
      command h (entryModeByte (update f))] := by
  rw [entrySteps, he, readByte_some]

theorem controlSteps_performs (hexec : exec i s = runReady op s fun h => controlSteps h update)
    (hp : s.phase = .ready) (hh : s.handle = some h) (hc : h.controlFlags = some f) :
    Performs i s (transferWrites h (displayControlByte (update f)) false) 204000
      (some { h with controlFlags := some (update f) }) :=
  (sends_transferByte h _ false).performs_afterUpdate hexec (controlSteps_of_some hc) hp hh

theorem entrySteps_performs (hexec : exec i s = runReady op s fun h => entrySteps h update)
    (hp : s.phase = .ready) (hh : s.handle = some h) (he : h.entryFlags = some f) :
    Performs i s (transferWrites h (entryModeByte (update f)) false) 204000
      (some { h with entryFlags := some (update f) }) :=
  (sends_transferByte h _ false).performs_afterUpdate hexec (entrySteps_of_some he) hp hh

end

/-- Settles O41: each of the six is the shell around its own update. -/
theorem displayControlUpdatesAndSends : Obligations.DisplayControlUpdatesAndSends := by
  intro i op update hmem s
  have shell (hexec : exec i s = runReady op s fun h => controlSteps h update) : PhaseChecked i op s ∧
      ∀ h f, s.phase = .ready → s.handle = some h → h.controlFlags = some f →
        Performs i s (transferWrites h (0x08 ||| update f) false) 204000
          (some { h with controlFlags := some (update f) }) :=
    ⟨phaseChecked_of_runReady hexec, fun h f => controlSteps_performs hexec⟩
  simp only [List.mem_cons, Prod.mk.injEq, List.not_mem_nil, or_false] at hmem
  rcases hmem with ⟨rfl, rfl, rfl⟩ | ⟨rfl, rfl, rfl⟩ | ⟨rfl, rfl, rfl⟩ | ⟨rfl, rfl, rfl⟩ | ⟨rfl, rfl, rfl⟩ |
    ⟨rfl, rfl, rfl⟩
  all_goals exact shell rfl

/-- Settles O44: each of the two is the shell around its own update. -/
theorem autoscrollUpdatesAndSends : Obligations.AutoscrollUpdatesAndSends := fun _ =>
  ⟨phaseChecked_of_runReady rfl, phaseChecked_of_runReady rfl, fun _ _ hp hh he =>
    ⟨entrySteps_performs (update := setFlag autoscrollBit) rfl hp hh he,
      entrySteps_performs (update := clearFlag autoscrollBit) rfl hp hh he⟩⟩

/-! ### cursor and then noCursor -/

/-- Level writes leave the Pins of a handle driven. -/
theorem SendsOnly.driven_of_driven {s t : State} {h : Handle} {ws : List RegWrite} {n : Nat} (hs : SendsOnly s t ws n)
    (hl : levelsOnly ws = true) (hd : driven s h = true) : driven t h = true := by
  obtain ⟨-, hmem, -⟩ := hs
  have hout : isOutput t = isOutput s :=
    funext (isOutput_of_ddr fun p => by rw [State.ddr, hmem, ddr_writesMem hl, State.ddr])
  rwa [driven, hout]

/-- In a Ready state whose Pins are outputs a display-control operation ends in such a state, with the byte updated. -/
theorem controlSteps_next {i : Instr} {op : OpName} {s : State} {h : Handle} {f : Byte} {update : Byte → Byte}
    (hexec : exec i s = runReady op s fun h => controlSteps h update) (hr : IsReady s h)
    (hc : h.controlFlags = some f) :
    ∃ t, exec i s = .next t ∧ SendsOnly s t (transferWrites h (displayControlByte (update f)) false) 204000 ∧
      IsReady t { h with controlFlags := some (update f) } := by
  obtain ⟨hp, hh, hd⟩ := hr
  obtain ⟨t, ht, hs, hphase, hhandle⟩ :=
    (controlSteps_performs hexec hp hh hc).1 (allOutputs_transferWrites hd _ false)
  obtain ⟨hlevels, -⟩ := sends_transferByte h (displayControlByte (update f)) false
  exact ⟨t, ht, hs, hphase.trans hp, hhandle, hs.driven_of_driven hlevels hd⟩

/-- The two updates of R253 on a flag byte: what is sent, what is left, and when it is what was there before. -/
theorem cursorBit_updates (f : Byte) :
    clearFlag cursorBit (setFlag cursorBit f) = f &&& 0xFD ∧
      (0x08 ||| f ||| 0x02) ^^^ (0x08 ||| (f &&& 0xFD)) = 0x02 ∧ (f &&& 0xFD = f ↔ bitOf f 1 = false) := by
  revert f; decide

/-- A handle keeps its control flags exactly when the byte put there is the one it had. -/
theorem withControl_eq_self_iff {h : Handle} {f c : Byte} (hc : h.controlFlags = some f) :
    { h with controlFlags := some c } = h ↔ c = f := by
  cases h
  simp_all [eq_comm]

/-- Settles O42: `noCursor` runs in the state that `cursor` leaves. -/
theorem cursorThenNoCursor : Obligations.CursorThenNoCursor := by
  intro s h f hr hc
  have ⟨_, hh, _⟩ := hr
  obtain ⟨hclear, hdiffer, hsame⟩ := cursorBit_updates f
  obtain ⟨t, ht, hs, hr'⟩ := controlSteps_next (i := .cursor) (update := setFlag cursorBit) rfl hr hc
  obtain ⟨u, hu, hs', -, hhandle, -⟩ := controlSteps_next (i := .noCursor) (update := clearFlag cursorBit) rfl hr' rfl
  rw [hclear] at hs' hhandle
  refine ⟨t, u, ht, hu, ?_, hs', hdiffer, hhandle, ?_⟩
  · rw [BitVec.or_assoc]
    exact hs
  · rw [hhandle, hh, Option.some.injEq, withControl_eq_self_iff hc, hsame]

end Sys2Proof.Machine
end

section
/-! PROOF. While the host issues only host operations, its handle's Pins stay outputs, and no step raises PinNotOutput or
UnsetRead (R302, R303, R72): only `create` directs Pins, and on driven Pins a configured handle meets no input and has no
unset byte. -/

namespace Sys2Proof.Machine

/-! ### Driven Pins -/

/-- The handle's Pins are to be outputs in Constructed and in Ready (R202, R214). -/
theorem pinsDriven_iff {s : State} : s.pinsDriven = true ↔
    (s.phase = .constructed ∨ s.phase = .ready → ∀ h, s.handle = some h → driven s h = true) := by
  cases hp : s.phase <;> simp [State.pinsDriven, hp, Option.all_eq_true]

theorem pinsDriven_of_faulted {s : State} (hp : s.phase = .faulted) : s.pinsDriven = true := by
  simp [State.pinsDriven, hp]

theorem driven_congr {s t : State} {h h' : Handle} (hpins : h'.pins = h.pins)
    (hout : ∀ pin ∈ h.pins, isOutput t pin = isOutput s pin) : driven t h' = driven s h := by
  rw [driven, driven, hpins, Bool.eq_iff_iff, List.all_eq_true, List.all_eq_true]
  exact forall₂_congr fun pin hin => by rw [hout pin hin]

/-- Whatever keeps the phase, the handle and its Pins' directions keeps the Pins driven. -/
theorem pinsDriven_of_outputs_kept {s t : State} (hs : s.pinsDriven = true) (hp : t.phase = s.phase)
    (hh : t.handle = s.handle) (hout : ∀ h, s.handle = some h → ∀ pin ∈ h.pins, isOutput t pin = isOutput s pin) :
    t.pinsDriven = true := by
  rw [pinsDriven_iff] at hs ⊢
  rw [hp, hh]
  exact fun hphase h hhd => (driven_congr rfl (hout h hhd)).trans (hs hphase h hhd)

section
variable {i : Instr} {s t : State}

/-- `create` is the only host operation that directs Pins (R195, R201). -/
theorem mayDirect_of_ne_create (hi : i.kind = .hostOperation) (hc : i.opName ≠ .create) (s : State) :
    mayDirect i s = [] := by
  cases i <;> cases hi
  case create => exact absurd rfl hc
  all_goals rfl

/-- A host operation other than `create` runs to its end only with a handle (R210, R230). -/
theorem phase_of_runsIn {p : Phase} (hi : i.kind = .hostOperation) (hc : i.opName ≠ .create)
    (hr : runsIn i p = true) : p = .constructed ∨ p = .ready := by
  by_cases hb : i.opName = .begin
  · exact .inl (by simpa [runsIn, hi, hb] using hr)
  · exact .inr (by simpa [runsIn, hi, hc, hb] using hr)

/-- A host operation other than `create` leaves every direction, and so the Pins of its handle driven. -/
theorem pinsDriven_of_ne_create (hi : i.kind = .hostOperation) (hc : i.opName ≠ .create) (hs : s.pinsDriven = true)
    (ht : exec i s = .next t) : t.pinsDriven = true := by
  rcases exec_next ht with hdone | hraised
  · refine pinsDriven_iff.2 fun _ h' hh' => ?_
    rw [hdone.handle, handleAfter_of_ne_create hc, Option.map_eq_some_iff] at hh'
    obtain ⟨h, hh, rfl⟩ := hh'
    have hkept := keeps_exec (steady_bitsKept _ _ _) ht
    rw [driven_congr (bytesAfter_pins i h) fun pin _ =>
      hkept.direction pin (by rw [mayDirect_of_ne_create hi hc]; exact List.not_mem_nil)]
    exact pinsDriven_iff.1 hs (phase_of_runsIn hi hc hdone.runsIn) h hh
  · exact pinsDriven_of_faulted hraised.phase

/-! ### The faults of host operations -/

/-- A fault that the host's order of operations or its operands raise (R302): codes 1 to 5, and so neither PinNotOutput
nor UnsetRead. -/
def FaultRecord.ofHost (r : FaultRecord) : Bool := r.code ≤ 5

/-- A fault that stands is one that the host raised. -/
def HostFaultOnly (t : State) : Prop := ∀ r, t.fault = some r → r.ofHost = true

theorem hostFaultOnly_raise {r : FaultRecord} (hr : r.ofHost = true) (s : State) : HostFaultOnly (raise r s) := by
  rintro _ ⟨⟩
  exact hr

theorem HostFaultOnly.congr (hs : HostFaultOnly s) (hf : t.fault = s.fault) : HostFaultOnly t :=
  fun r hr => hs r (hf ▸ hr)

theorem HostFaultOnly.no_pin_or_byte (h : HostFaultOnly t) :
    (∀ pin, t.fault ≠ some (.pinNotOutput pin)) ∧ ∀ f, t.fault ≠ some (.unsetRead f) :=
  ⟨fun _ hf => Bool.false_ne_true (h _ hf), fun _ hf => Bool.false_ne_true (h _ hf)⟩

/-- What makes writes or stops at an input raises no fault when no Pin of its writes is an input. -/
theorem Performs.fault_of_outputs {ws : List RegWrite} {n : Nat} {h' : Option Handle} (hp : Performs i s ws n h')
    (ho : allOutputs s ws = true) (ht : exec i s = .next t) : t.fault = s.fault := by
  obtain ⟨hends, -⟩ := hp
  obtain ⟨u, hu, ⟨-, -, -, hf, -, -⟩, -⟩ := hends ho
  cases hu.symm.trans ht
  exact hf

end

/-! ### The commands in Ready -/

/-- The writes drive Pins of the handle. -/
def OfPins (h : Handle) (ws : List RegWrite) : Prop := ∀ w ∈ ws, w.pin ∈ h.pins

theorem ofPins_transferWrites (h : Handle) (v : Byte) (rs : Bool) : OfPins h (transferWrites h v rs) := by
  simp [OfPins, transferWrites, nibbleWrites, pulseWrites, drive, Handle.pins]

theorem ofPins_dataWrites (h : Handle) (vs : List Byte) : OfPins h (vs.flatMap fun v => transferWrites h v true) := by
  intro w hw
  obtain ⟨v, -, hw⟩ := List.mem_flatMap.1 hw
  exact ofPins_transferWrites h v true w hw

theorem OfPins.append {h : Handle} {ws vs : List RegWrite} (hw : OfPins h ws) (hv : OfPins h vs) :
    OfPins h (ws ++ vs) := List.forall_mem_append.2 ⟨hw, hv⟩

/-- In Ready, with every byte set, a command performs writes of its handle's Pins, or is a cursor position outside the
table (R240). -/
theorem command_performs {i : Instr} {s : State} {h : Handle} (hi : isCommand i = true) (hw : i.wellFormed = true)
    (hp : s.phase = .ready) (hh : s.handle = some h) (hcfg : h.configured = true) :
    (∃ ws n h', Performs i s ws n (some h') ∧ OfPins h ws) ∨
      ∃ r, exec i s = .next (raise (.rowOffsetOutOfRange r) s) := by
  obtain ⟨c, e, n, -, hc, -, he, -, hl, -⟩ := configured_iff.1 hcfg
  have transfer {v : Byte} {rs : Bool} {m : Nat} {h' : Handle}
      (hperf : Performs i s (transferWrites h v rs) m (some h')) :
      (∃ ws n h', Performs i s ws n (some h') ∧ OfPins h ws) ∨
        ∃ r, exec i s = .next (raise (.rowOffsetOutOfRange r) s) :=
    .inl ⟨_, _, _, hperf, ofPins_transferWrites h v rs⟩
  cases i with
  | clear | home => exact transfer ((sends_settledCommand h _).performs_runReady rfl hp hh)
  | setCursor col row =>
    cases ho : rowOffset (clampRow n row) with
    | none => exact .inr ⟨_, setCursor_raises hl col hp hh ho⟩
    | some offset => exact transfer (setCursor_performs hl col hp hh ho)
  | write c => exact transfer ((sends_transferByte h c true).performs_runReady rfl hp hh)
  | scrollDisplayLeft | scrollDisplayRight =>
    exact transfer ((sends_transferByte h _ false).performs_runReady rfl hp hh)
  | print text =>
    exact .inl ⟨_, _, _, (sends_dataBytes h _).performs_runReady (exec_print hw s) hp hh, ofPins_dataWrites h _⟩
  | createChar slot rows =>
    exact .inl ⟨_, _, _, ((sends_transferByte h _ false).cons (sends_dataBytes h rows)).performs_runReady
      (exec_createChar hw s) hp hh, (ofPins_transferWrites h _ false).append (ofPins_dataWrites h rows)⟩
  | display | noDisplay | cursor | noCursor | blink | noBlink => exact transfer (controlSteps_performs rfl hp hh hc)
  | autoscroll | noAutoscroll => exact transfer (entrySteps_performs rfl hp hh he)
  | create | begin | resolve | set | setDirection | sample | delayUs | delayMs | pulseEnable | writeNibble
  | transferByte | command | data | readBusy | b1ClearDisplay | b2ReturnHome | b3EntryModeSet | b4DisplayControl
  | b5CursorDisplayShift | b6FunctionSet | b7SetCgramAddress | b8SetDdramAddress | b9WriteData => cases hi

/-! ### The host operations -/

/-- What is no operation of the block is refused, so only a well-formed term answers (R115). -/
theorem wellFormed_of_next {i : Instr} {s t : State} (h : exec i s = .next t) : i.wellFormed = true := by
  cases hd : i.defect with
  | none => rw [Instr.wellFormed, hd, Option.isNone_none]
  | some d =>
    exfalso
    cases i with
    | print text => rw [exec, execPrint, refuseIllFormed_of_defect hd] at h; cases h
    | createChar slot rows => rw [exec, execCreateChar, refuseIllFormed_of_defect hd] at h; cases h
    | _ => cases hd

/-- The phases seen between steps (R37). -/
theorem phase_of_phaseFits {s : State} (hs : s.phaseFits = true) :
    s.phase = .noHandle ∨ s.phase = .constructed ∨ s.phase = .ready ∨ s.phase = .faulted := by
  cases hp : s.phase <;> simp [State.phaseFits, hp] at hs ⊢

section
variable {i : Instr} {s t : State} (hok : PhaseOk s) (hs : s.pinsDriven = true) (hp : s.phase ≠ .faulted)
include hok hp

theorem hostFaultOnly_of_phaseOk : HostFaultOnly s := by
  obtain ⟨hfault, -⟩ := hok
  exact fun r hr => absurd (hfault.1 (by rw [hr]; rfl)) hp

theorem create_ends {rs en d4 d5 d6 d7 : Byte} (ht : exec (.create rs en d4 d5 d6 d7) s = .next t) :
    t.pinsDriven = true ∧ HostFaultOnly t := by
  obtain ⟨hcreated, hagain⟩ := createBuildsTheHandle rs en d4 d5 d6 d7 s
  by_cases hno : s.phase = .noHandle
  · obtain ⟨u, hu, -, hhandle, ⟨-, -, -, hf, -, -⟩, -, hout⟩ := hcreated hno
    cases hu.symm.trans ht
    refine ⟨pinsDriven_iff.2 fun _ h hh => ?_, (hostFaultOnly_of_phaseOk hok hp).congr hf⟩
    cases hhandle.symm.trans hh
    simpa [driven, Handle.pins] using hout
  · cases (hagain hno hp).symm.trans ht
    exact ⟨pinsDriven_of_faulted rfl, hostFaultOnly_raise rfl s⟩

include hs

theorem begin_hostFaultOnly {columns rows : Byte} (ht : exec (.begin columns rows) s = .next t) : HostFaultOnly t := by
  by_cases hno : s.phase = .noHandle
  · cases (exec_begin_noHandle columns rows hno).symm.trans ht
    exact hostFaultOnly_raise rfl s
  by_cases hc : s.phase = .constructed
  · obtain ⟨h, hh, -⟩ := (phaseFits_constructed hc).1 hok.2
    obtain ⟨u, hu, -, ⟨-, -, -, hf, -, -⟩, -⟩ := begin_go hc hh (pinsDriven_iff.1 hs (.inl hc) h hh) columns rows
    cases hu.symm.trans ht
    exact (hostFaultOnly_of_phaseOk hok hp).congr hf
  · cases (exec_begin_again columns rows hno hc hp).symm.trans ht
    exact hostFaultOnly_raise rfl s

theorem command_hostFaultOnly (hi : isCommand i = true) (ht : exec i s = .next t) : HostFaultOnly t := by
  have hw := wellFormed_of_next ht
  obtain ⟨hno, hconstructed, -⟩ := commandsCheckThePhase i s hi hw
  rcases phase_of_phaseFits hok.2 with hph | hph | hph | hph
  · cases (hno hph).symm.trans ht
    exact hostFaultOnly_raise rfl s
  · cases (hconstructed hph).symm.trans ht
    exact hostFaultOnly_raise rfl s
  · obtain ⟨h, hh, hcfg, -⟩ := (phaseFits_ready hph).1 hok.2
    rcases command_performs hi hw hph hh hcfg with ⟨ws, n, h', hperf, hpins⟩ | ⟨r, hr⟩
    · have hd : driven s h = true := pinsDriven_iff.1 hs (.inr hph) h hh
      exact (hostFaultOnly_of_phaseOk hok hp).congr (hperf.fault_of_outputs (allOutputs_of_driven hd hpins) ht)
    · cases hr.symm.trans ht
      exact hostFaultOnly_raise rfl s
  · exact absurd hph hp

/-- How a host operation ends, on driven Pins (R302, R303). -/
theorem hostOperation_ends (hi : i.kind = .hostOperation) (ht : exec i s = .next t) :
    t.pinsDriven = true ∧ HostFaultOnly t := by
  cases i with
  | create => exact create_ends hok hp ht
  | begin => exact ⟨pinsDriven_of_ne_create hi nofun hs ht, begin_hostFaultOnly hok hs hp ht⟩
  | clear | home | setCursor | write | print | display | noDisplay | cursor | noCursor | blink | noBlink
  | scrollDisplayLeft | scrollDisplayRight | autoscroll | noAutoscroll | createChar =>
    exact ⟨pinsDriven_of_ne_create hi nofun hs ht, command_hostFaultOnly hok hs hp rfl ht⟩
  | resolve | set | setDirection | sample | delayUs | delayMs | pulseEnable | writeNibble | transferByte | command
  | data | readBusy | b1ClearDisplay | b2ReturnHome | b3EntryModeSet | b4DisplayControl | b5CursorDisplayShift
  | b6FunctionSet | b7SetCgramAddress | b8SetDdramAddress | b9WriteData => cases hi

end

/-- Settles O56: time and an environment write leave the Pins driven and the fault unset, and a host operation ends as
`hostOperation_ends` says. -/
theorem hostPlayKeepsPinsDriven : Obligations.HostPlayKeepsPinsDriven := by
  intro s t ⟨_, _, _, hok⟩ hs hplays h
  suffices t.pinsDriven = true ∧ HostFaultOnly t from this.imp_right HostFaultOnly.no_pin_or_byte
  obtain ⟨hp, ⟨-, rfl⟩ | ⟨reg, p, mask, value, rest, -, hwrite⟩ | ⟨e, rest, i, hpe, hdel, hrun⟩⟩ := step_next h
  · exact ⟨hs, hostFaultOnly_of_phaseOk hok hp⟩
  · obtain ⟨htouch, rfl⟩ := next_envWrite hwrite
    refine ⟨pinsDriven_of_outputs_kept hs rfl rfl fun hd hh pin hpin => ?_, hostFaultOnly_of_phaseOk hok hp⟩
    exact handleBit_maskedWrite hh htouch hpin s.mem reg .direction value
  · have hi : i.kind = .hostOperation := by simpa [State.hostPlays, hpe, hdel] using hplays
    exact hostOperation_ends (s := takeInput rest s) hok hs hp hi hrun

end Sys2Proof.Machine
end

section
/-! PROOF. Faults: raising one ends the run (R301, R370), and with no handle every primitive or bus word that reads its
Pins raises NoHandle (log 7). -/

namespace Sys2Proof.Machine

/-! ### A faulted state -/

theorem runReady_faulted {s : State} (op : OpName) (hp : s.phase = .faulted) (body : Handle → State → Flow) :
    runReady op s body = .fault .faultedHasNoStep := by
  simp [runReady, hp]

theorem step_faulted {s : State} (hp : s.phase = .faulted) : step s = .fault .faultedHasNoStep := if_pos hp

/-- No well-formed instruction runs in a faulted state: each shell looks at the phase first (R301). -/
theorem exec_faulted {i : Instr} {s : State} (hp : s.phase = .faulted) (hw : i.wellFormed = true) :
    exec i s = .fault .faultedHasNoStep := by
  cases i with
  | clear | home | setCursor | write | print | display | noDisplay | cursor | noCursor | blink | noBlink
  | scrollDisplayLeft | scrollDisplayRight | autoscroll | noAutoscroll | createChar =>
    obtain ⟨body, hbody⟩ := exec_command_eq_runReady rfl hw
    rw [hbody, runReady_faulted _ hp]
  | create | begin | resolve | set | setDirection | sample | delayUs | delayMs | pulseEnable | writeNibble
  | transferByte | command | data | readBusy | b1ClearDisplay | b2ReturnHome | b3EntryModeSet | b4DisplayControl
  | b5CursorDisplayShift | b6FunctionSet | b7SetCgramAddress | b8SetDdramAddress | b9WriteData =>
    exact unlessFaulted_faulted hp _

/-- Settles O3. -/
theorem raisedFaultEndsTheRun : Obligations.RaisedFaultEndsTheRun :=
  ⟨fun _ _ => ⟨rfl, rfl, rfl, Bool.and_false _⟩, fun _ _ _ => rfl, fun _ => step_faulted, fun _ _ => exec_faulted⟩

/-! ### No handle -/

theorem runWithHandle_none {s : State} (op : OpName) (hp : s.phase ≠ .faulted) (hh : s.handle = none)
    (body : Handle → State → Flow) : runWithHandle op s body = .next (raise (.noHandle op) s) := by
  rw [runWithHandle, unlessFaulted_of_ne hp, hh]
  rfl

/-- Settles O22: what is left are the operations that the shell with a handle runs. -/
theorem pinsNeedAHandle : Obligations.PinsNeedAHandle := by
  intro i s hkind hresolve hset hdirection hsample hus hms hp hh
  cases i with
  | pulseEnable | writeNibble | transferByte | command | data | readBusy | b1ClearDisplay | b2ReturnHome
  | b3EntryModeSet | b4DisplayControl | b5CursorDisplayShift | b6FunctionSet | b7SetCgramAddress | b8SetDdramAddress
  | b9WriteData => exact runWithHandle_none _ hp hh _
  | resolve n => exact absurd rfl (hresolve n)
  | set pin level => exact absurd rfl (hset pin level)
  | setDirection pin mode => exact absurd rfl (hdirection pin mode)
  | sample pin => exact absurd rfl (hsample pin)
  | delayUs n => exact absurd rfl (hus n)
  | delayMs n => exact absurd rfl (hms n)
  | create | begin | clear | home | setCursor | write | print | display | noDisplay | cursor | noCursor | blink
  | noBlink | scrollDisplayLeft | scrollDisplayRight | autoscroll | noAutoscroll | createChar => exact absurd rfl hkind

end Sys2Proof.Machine
end
